-- ==== Sys2Proof/Word.lean ====
section
/-! DEFINITION. Sys2Proof/Word.lean: the byte, the sentinel, the two-valued index of transports and queues, and a pair indexed by it.
Rules: 00_scope.md R6 (SENTINEL), R8 (numbering), R9 (byte). -/

namespace Sys2Proof

/-- A byte, "unsigned 8-bit value, 0..255" (00_scope.md R9). -/
abbrev Byte := BitVec 8

/-- SENTINEL, "255, fixed" (00_scope.md R6). -/
abbrev sentinel : Byte := 255

/-- The index t of a transport and q of a queue: 0 is UART, 1 is CAN, and queue q is the
outbound queue of transport q (00_scope.md R8). -/
inductive Port where
  | uart
  | can
  deriving DecidableEq, Repr

/-- One value for each of the two transports or queues. -/
structure Pair (α : Type) where
  uart : α
  can : α
  deriving DecidableEq, Repr

end Sys2Proof
end

