-- ==== Sys2Proof/Config.lean ====
section
/-! DEFINITION. Sys2Proof/Config.lean: the implementation parameters (00_scope.md R6) and the configuration of State.reset.
When a configuration is well-formed is said by Config.wf in Machine/Ops.lean. -/

namespace Sys2Proof

/-- A present entry of the Command Configuration Table, `Some(default_priority, default_body_size)`
(10_state.md R14). Both are whole bytes, so that the forbidden value 255 can be written down and refused. -/
structure Entry where
  defaultPriority : Byte
  defaultBodySize : Byte
  deriving DecidableEq, Repr

/-- The parameters of 00_scope.md R6. "They are configuration, not state: no operation changes them."
W and IDXW are derived (Config.w, Config.idxw in Machine/Ops.lean). -/
structure Config where
  /-- K, the number of body bytes. -/
  k : Nat
  /-- N[q], the number of slots of queue q. -/
  n : Pair Nat
  /-- NCMD, the size of the command index range. -/
  ncmd : Nat
  /-- TABLE[c] for 0 <= c < NCMD: absent, or present with its defaults. -/
  table : List (Option Entry)
  /-- HOLD_TICKS. -/
  holdTicks : Nat
  /-- TX_RETRY_MAX. -/
  txRetryMax : Nat
  deriving DecidableEq, Repr

/-- The table of the spec's test configuration CFG_T (95_test_vectors.md section 1), NCMD = 8. -/
def Config.tableT : List (Option Entry) :=
  [none, some ⟨3, 7⟩, some ⟨10, 0⟩, some ⟨1, 4⟩, none, some ⟨0, 2⟩, none, none]

/-- The configuration State.reset carries: the spec's defaults K = 7, N = 32, TX_RETRY_MAX = 0
(00_scope.md R6), and for the OPEN parameters NCMD, TABLE and HOLD_TICKS the values of the spec's test
configuration CFG_T. DESIGN CHOICE, unsafe (log 2): the spec gives the OPEN parameters no value. -/
def Config.atReset : Config where
  k := 7
  n := ⟨32, 32⟩
  ncmd := 8
  table := Config.tableT
  holdTicks := 3
  txRetryMax := 0

end Sys2Proof
end

