-- ==== Sys2Proof/Syntax.lean ====
section
/-! DEFINITION. Sys2Proof/Syntax.lean: the operand records and the instructions, one constructor for each row of spec/opcode_table.json. -/

namespace Sys2Proof

/-- A Message (10_state.md R12). The K body bytes are a list, because K is a parameter. -/
structure Message where
  priority : Byte
  sender : Byte
  recipient : Byte
  command : Byte
  bodySize : Byte
  body : List Byte
  deriving DecidableEq, Repr

/-- The five fields of the wire frame (30_encoding.md R60). -/
structure Frame where
  priority : Byte
  sender : Byte
  recipient : Byte
  command : Byte
  body : List Byte
  deriving DecidableEq, Repr

/-- The rows of spec/opcode_table.json: the fourteen operations of 00_scope.md R2 and the wire frame. -/
inductive Instr where
  | qIsEmpty (q : Port)
  | qIsFull (q : Port)
  | qEnq (q : Port) (m : Message)
  | qDeq (q : Port)
  | qLen (q : Port)
  | cEnc (m : Message)
  | cDec (b : List Byte)
  | rRx (t : Port) (b : List Byte)
  | rWstart (t : Port)
  | rWdone (t : Port)
  | rWfail (t : Port)
  | nWake
  | nTick
  | sysReset
  /-- The wire frame f on the wire of transport t. The frame carries no bit for t: the wire it is on says which
  transport received it (log 6). -/
  | frame (t : Port) (f : Frame)
  deriving DecidableEq, Repr

end Sys2Proof
end

