-- ==== Sys2Proof/WellFormed.lean ====
section
/-! DEFINITION. Sys2Proof/WellFormed.lean: which operands the encodings can carry, for a given K. -/

namespace Sys2Proof

/-- `body` is K bytes (10_state.md R12). -/
def Message.wf (k : Nat) (m : Message) : Bool :=
  m.body.length == k

/-- A frame is W = 4 + K bytes (30_encoding.md R60). -/
def Frame.wf (k : Nat) (f : Frame) : Bool :=
  f.body.length == k

/-- The length byte L of C.DEC and R.RX carries 0..255 (30_encoding.md R70). -/
def bytesWf (b : List Byte) : Bool :=
  decide (b.length ≤ 255)

/-- The instruction can be encoded at this K (30_encoding.md R60, R70). -/
def Instr.wf (k : Nat) : Instr → Bool
  | .qIsEmpty _ => true
  | .qIsFull _ => true
  | .qEnq _ m => m.wf k
  | .qDeq _ => true
  | .qLen _ => true
  | .cEnc m => m.wf k
  | .cDec b => bytesWf b
  | .rRx _ b => bytesWf b
  | .rWstart _ => true
  | .rWdone _ => true
  | .rWfail _ => true
  | .nWake => true
  | .nTick => true
  | .sysReset => true
  | .frame _ f => f.wf k

end Sys2Proof
end

