-- ==== Sys2Proof/Decode.lean ====
section
/-! DEFINITION. Sys2Proof/Decode.lean: from bytes to instructions and back.
The operation table is opcode_table.json written as rows; operands as 30_encoding.md R69 and R70 lay them out; the wire frame as
R60 lays it out. Reserved identifiers are refused by name (R71). -/

namespace Sys2Proof

/-- Why the bytes of a trace hold no next operation. -/
inductive DecodeError where
  /-- There is no byte left. -/
  | endOfTrace
  /-- A reserved opid (30_encoding.md R71). -/
  | reservedOpid (b : Byte)
  /-- The record of this opid is cut short: fewer operand bytes follow than R70 says. -/
  | truncated (b : Byte)
  deriving DecidableEq, Repr

/-- The fourteen operations that have an opid. -/
inductive OpName where
  | qIsEmpty | qIsFull | qEnq | qDeq | qLen | cEnc | cDec
  | rRx | rWstart | rWdone | rWfail | nWake | nTick | sysReset
  deriving DecidableEq, Repr

/-- A row of the operation table: an opid b is this row's when `b &&& mask = value`. -/
structure OpRow where
  mask : Byte
  value : Byte
  op : OpName
  deriving DecidableEq, Repr

/-- The rows of opcode_table.json that have an opid, in its order. -/
def opTable : List OpRow :=
  [⟨0xFE, 0x10, .qIsEmpty⟩, ⟨0xFE, 0x20, .qIsFull⟩, ⟨0xFE, 0x30, .qEnq⟩, ⟨0xFE, 0x40, .qDeq⟩,
   ⟨0xFE, 0x50, .qLen⟩, ⟨0xFF, 0x60, .cEnc⟩, ⟨0xFF, 0x70, .cDec⟩, ⟨0xFE, 0x80, .rRx⟩,
   ⟨0xFE, 0x90, .rWstart⟩, ⟨0xFE, 0xA0, .rWdone⟩, ⟨0xFE, 0xB0, .rWfail⟩, ⟨0xFF, 0xC0, .nWake⟩,
   ⟨0xFF, 0xD0, .nTick⟩, ⟨0xFF, 0xF0, .sysReset⟩]

/-- The operation of the first row that b belongs to. -/
def findOp : List OpRow → Byte → Option OpName
  | [], _ => none
  | r :: rs, b => if b &&& r.mask = r.value then some r.op else findOp rs b

/-- `opid[0]`, the index of the queue or transport (30_encoding.md R70). -/
def portOf (b : Byte) : Port :=
  if b.getLsbD 0 then .can else .uart

/-- The index as the bit `opid[0]`. -/
def portBit : Port → Byte
  | .uart => 0
  | .can => 1

/-- The first n bytes and the rest, or none where there are fewer than n. -/
def takeExact : Nat → List Byte → Option (List Byte × List Byte)
  | 0, l => some ([], l)
  | _ + 1, [] => none
  | n + 1, b :: l => (takeExact n l).map fun r => (b :: r.1, r.2)

/-- The 5 + K bytes of a Message in the order priority, sender, recipient, command, body_size, body (30_encoding.md R69). -/
def parseMessage (k : Nat) : List Byte → Option (Message × List Byte)
  | p :: s :: r :: c :: z :: rest =>
    match takeExact k rest with
    | some (body, rest') => some (⟨p, s, r, c, z, body⟩, rest')
    | none => none
  | _ => none

/-- One length byte L, then L bytes (30_encoding.md R70). -/
def parseBytes : List Byte → Option (List Byte × List Byte)
  | n :: rest => takeExact n.toNat rest
  | [] => none

/-- The operands that follow an opid, by operation (30_encoding.md R70). -/
def parseOperands (k : Nat) (op : OpName) (i : Port) (rest : List Byte) : Option (Instr × List Byte) :=
  match op with
  | .qIsEmpty => some (.qIsEmpty i, rest)
  | .qIsFull => some (.qIsFull i, rest)
  | .qEnq => (parseMessage k rest).map fun r => (.qEnq i r.1, r.2)
  | .qDeq => some (.qDeq i, rest)
  | .qLen => some (.qLen i, rest)
  | .cEnc => (parseMessage k rest).map fun r => (.cEnc r.1, r.2)
  | .cDec => (parseBytes rest).map fun r => (.cDec r.1, r.2)
  | .rRx => (parseBytes rest).map fun r => (.rRx i r.1, r.2)
  | .rWstart => some (.rWstart i, rest)
  | .rWdone => some (.rWdone i, rest)
  | .rWfail => some (.rWfail i, rest)
  | .nWake => some (.nWake, rest)
  | .nTick => some (.nTick, rest)
  | .sysReset => some (.sysReset, rest)

/-- One operation record from the front of a trace: the operation and the bytes after it (30_encoding.md R70, R71). -/
def decode (k : Nat) : List Byte → Except DecodeError (Instr × List Byte)
  | [] => .error .endOfTrace
  | b :: rest =>
    match findOp opTable b with
    | none => .error (.reservedOpid b)
    | some op =>
      match parseOperands k op (portOf b) rest with
      | some r => .ok r
      | none => .error (.truncated b)

/-- The five fields of a byte sequence that is a frame: byte 0 priority, 1 sender, 2 recipient, 3 command, then body
(30_encoding.md R60). A sequence whose length is not W = 4 + K is no frame (R65). -/
def parseFrame (k : Nat) : List Byte → Option Frame
  | p :: s :: r :: c :: body => if body.length = k then some ⟨p, s, r, c, body⟩ else none
  | _ => none

/-- What arrives on the wire of transport t is the event RxFrame(t, b), which triggers R.RX t, b (10_state.md R29): a frame is
the instruction `frame`, and a byte sequence of another length, which a transport may deliver too (R29, D20), is R.RX with
those bytes. -/
def decodeWire (k : Nat) (t : Port) (b : List Byte) : Instr :=
  match parseFrame k b with
  | some f => .frame t f
  | none => .rRx t b

/-- The bytes of a Message in a trace record (30_encoding.md R69). -/
def Message.bytes (m : Message) : List Byte :=
  m.priority :: m.sender :: m.recipient :: m.command :: m.bodySize :: m.body

/-- The W bytes of a frame in wire order (30_encoding.md R60). -/
def Frame.bytes (f : Frame) : List Byte :=
  f.priority :: f.sender :: f.recipient :: f.command :: f.body

/-- One length byte, then the bytes (30_encoding.md R70). -/
def lengthBytes (b : List Byte) : List Byte :=
  BitVec.ofNat 8 b.length :: b

/-- How an instruction's bits reach the block: as an operation record of a trace, or as bytes on the wire of a transport. -/
inductive Arrival where
  | record (bytes : List Byte)
  | wire (t : Port) (bytes : List Byte)
  deriving DecidableEq, Repr

/-- The encoding of an instruction (30_encoding.md R60, R69, R70). -/
def encode : Instr → Arrival
  | .qIsEmpty q => .record [0x10 ||| portBit q]
  | .qIsFull q => .record [0x20 ||| portBit q]
  | .qEnq q m => .record ((0x30 ||| portBit q) :: m.bytes)
  | .qDeq q => .record [0x40 ||| portBit q]
  | .qLen q => .record [0x50 ||| portBit q]
  | .cEnc m => .record (0x60 :: m.bytes)
  | .cDec b => .record (0x70 :: lengthBytes b)
  | .rRx t b => .record ((0x80 ||| portBit t) :: lengthBytes b)
  | .rWstart t => .record [0x90 ||| portBit t]
  | .rWdone t => .record [0xA0 ||| portBit t]
  | .rWfail t => .record [0xB0 ||| portBit t]
  | .nWake => .record [0xC0]
  | .nTick => .record [0xD0]
  | .sysReset => .record [0xF0]
  | .frame t f => .wire t f.bytes

/-- What the block reads from an arrival followed, in a trace, by the bytes of later records. -/
def decodeArrival (k : Nat) (later : List Byte) : Arrival → Except DecodeError (Instr × List Byte)
  | .record bytes => decode k (bytes ++ later)
  | .wire t bytes => .ok (decodeWire k t bytes, later)

/-- The n bytes of a number, byte i in bits 8i+7..8i (30_encoding.md R61, R69). -/
def unpackBytes : Nat → Nat → List Byte
  | 0, _ => []
  | n + 1, w => BitVec.ofNat 8 w :: unpackBytes n (w / 256)

/-- The number whose bits 8i+7..8i are byte i: `F[8W-1:0]` of a frame (30_encoding.md R61), `M[8(5+K)-1:0]` of a Message (R69). -/
def packBytes : List Byte → Nat
  | [] => 0
  | b :: bs => b.toNat + 256 * packBytes bs

/-- The length in bytes of the longest operation record: opid, length byte and 255 bytes, or opid and a Message with K = 251. -/
def longestRecord : Nat := 257

/-- The bits of the row FRAME of opcode_table.json, which is written at K = 7. -/
def frameBits : Nat := 88

/-- The bytes of a table row's word, and zeros up to the longest record. -/
def tableRecord (nbits w : Nat) : List Byte :=
  unpackBytes (nbits / 8) w ++ List.replicate (longestRecord - nbits / 8) 0

/-- The instruction the decoder reads from a word of opcode_table.json (K = 7): a word of 88 bits is the row FRAME, taken from
the wire of UART (log 6), and any other word is the start of an operation record whose further bytes are zero.
DESIGN CHOICE: byte i of the word is in its bits 8i+7..8i. 30_encoding.md R61 gives the vector F that order and writes the table's bit
string with byte 0 leftmost, and says of neither how the row is numbered as a word (log 6). -/
def decodeTableWord (nbits w : Nat) : Option Instr :=
  if nbits = frameBits then some (decodeWire 7 .uart (unpackBytes 11 w))
  else
    match decode 7 (tableRecord nbits w) with
    | .ok r => some r.1
    | .error _ => none

end Sys2Proof
end

