-- ==== Sys2Proof/Machine/State.lean ====
section
/-! DEFINITION. Sys2Proof/Machine/State.lean: the state of the block (10_state.md R11, R28), its configuration, the schedule that drives
it, the reasons a run can stop, and the state after reset (R32). -/

namespace Sys2Proof.Machine

/-- The state of a worker (10_state.md R20). -/
inductive WState where
  | idle
  | busy
  deriving DecidableEq, Repr

/-- The state of the notifier (10_state.md R24). -/
inductive NtfState where
  | off
  | on
  deriving DecidableEq, Repr

/-- The results of an operation that has a status (30_encoding.md R67; the codes 5 to 7 are never produced). -/
inductive Status where
  | ok
  | malformedFrame
  | unknownCommand
  | queueFull
  | queueEmpty
  deriving DecidableEq, Repr

/-- The output events (10_state.md R28). -/
inductive Event where
  | txStart (t : Port) (f : List Byte)
  | rearm (t : Port)
  | activate
  | deactivate
  | rxStatus (t : Port) (code : Status)
  deriving DecidableEq, Repr

/-- What an operation returns to its caller (30_encoding.md R66). -/
inductive Result where
  /-- R.WSTART, R.WDONE, R.WFAIL, N.WAKE, N.TICK and SYS.RESET "return nothing". -/
  | nothing
  /-- Q.ISEMPTY, Q.ISFULL, Q.ENQ. -/
  | bool (b : Bool)
  /-- Q.DEQ: `(item, true)`, or `(_, false)` with no item at all (41_queue.md R94, U2). -/
  | item (m : Option Message)
  /-- Q.LEN. -/
  | len (n : Nat)
  /-- C.ENC: the frame's bytes. -/
  | frame (f : List Byte)
  /-- C.DEC: `Ok(m)`. -/
  | message (m : Message)
  /-- R.RX: its status; C.DEC: its error kind. -/
  | status (st : Status)
  deriving DecidableEq, Repr

/-- A slot array: entry i is the Message in slot i, or no value (10_state.md R15, R19). -/
abbrev Memory := List (Option Message)

/-- A Bounded Message Queue: "slots, head, tail" and no count (10_state.md R15, 70_reset_and_hazards.md R188). -/
structure Queue where
  slots : Memory
  head : Nat
  tail : Nat
  deriving DecidableEq, Repr

/-- The state of an outbound worker (10_state.md R20 to R22). `txbuf` is none while it holds no value. -/
structure Worker where
  wstate : WState
  txbuf : Option (List Byte)
  retry : Nat
  deriving DecidableEq, Repr

/-- The notifier (10_state.md R24 to R26): `state`, the pending-signal flag `sig`, the ticks left `cnt`. -/
structure Notifier where
  state : NtfState
  sig : Bool
  cnt : Nat
  deriving DecidableEq, Repr

/-- The output streams (10_state.md R28), each oldest event first. -/
structure Streams where
  tx : Pair (List Event)
  rearm : Pair (List Event)
  ind : List Event
  stat : Pair (List Event)
  deriving DecidableEq, Repr

/-- Who performs Q.ENQ and Q.DEQ on a queue: the script that drives a stand-alone queue, or the router's own agents
(70_reset_and_hazards.md R185). -/
inductive Party where
  | script
  | router
  deriving DecidableEq, Repr

/-- How far a Q.ENQ in progress has come (70_reset_and_hazards.md R180). -/
inductive EnqPhase where
  /-- E1 and E2 are being done. -/
  | reading
  /-- E3 passed: there is room. -/
  | tested
  /-- E4 is done: the slot is written. -/
  | written
  deriving DecidableEq, Repr

/-- A Q.ENQ in progress: its operand and the locals t0 (E1) and h (E2). -/
structure EnqProgress where
  item : Message
  t0 : Option Nat
  h : Option Nat
  phase : EnqPhase
  deriving DecidableEq, Repr

/-- How far a Q.DEQ in progress, and the R.WSTART around it, has come (70_reset_and_hazards.md R181, R186). -/
inductive DeqPhase where
  /-- D1 and D2 are being done. -/
  | reading
  /-- D3 passed: there is a Message. -/
  | tested
  /-- D4 is done: the Message is copied out. -/
  | copied (m : Message)
  /-- R.WSTART only: D5 is done. -/
  | dequeued (m : Message)
  /-- R.WSTART only: C.ENC is done. -/
  | encoded (f : List Byte)
  deriving DecidableEq, Repr

/-- A Q.DEQ in progress: who performs it and the locals h0 (D1) and t (D2). -/
structure DeqProgress where
  who : Party
  h0 : Option Nat
  t : Option Nat
  phase : DeqPhase
  deriving DecidableEq, Repr

/-- The sub-steps of Q.ENQ and Q.DEQ (70_reset_and_hazards.md R180, R181) and of R.WSTART around its Q.DEQ (R186). They have no
opid. E1 and E2 may come in either order, and so may D1 and D2. -/
inductive SubStep where
  /-- The script starts `Q.ENQ q, m`. -/
  | enqBegin (q : Port) (m : Message)
  | e1 (q : Port)
  | e2 (q : Port)
  | e3 (q : Port)
  | e4 (q : Port)
  | e5 (q : Port)
  /-- The script starts `Q.DEQ q`. -/
  | deqBegin (q : Port)
  /-- Worker t starts `R.WSTART t`; its Q.DEQ is D1 to D5 on queue t. -/
  | wstartBegin (t : Port)
  | d1 (q : Port)
  | d2 (q : Port)
  | d3 (q : Port)
  | d4 (q : Port)
  | d5 (q : Port)
  /-- R.WSTART t after D5: `f <- C.ENC(m)`. -/
  | wstartEncode (t : Port)
  /-- R.WSTART t, last: `txbuf`, `retry`, `wstate` and `TxStart(t, f)`. -/
  | wstartTransmit (t : Port)
  deriving DecidableEq, Repr

/-- One move of the schedule (log 3). -/
inductive Turn where
  /-- The next operation record of the trace. -/
  | record
  /-- The event RxFrame(t, b): transport t hands over the bytes b (10_state.md R29). -/
  | wire (t : Port) (b : List Byte)
  /-- One sub-step of a Q.ENQ, Q.DEQ or R.WSTART in progress. -/
  | sub (m : SubStep)
  deriving DecidableEq, Repr

/-- The machine: the configuration, the state of the block (10_state.md R11), its output streams (R28), the transfers in progress
between sub-steps (70_reset_and_hazards.md section 3), and the model's own result, owner, trace and turns. -/
structure State where
  cfg : Config
  queues : Pair Queue
  workers : Pair Worker
  ntf : Notifier
  out : Streams
  /-- A Q.ENQ of the script in progress on each queue. -/
  enq : Pair (Option EnqProgress)
  /-- A Q.DEQ in progress on each queue, by the script or inside R.WSTART. -/
  deq : Pair (Option DeqProgress)
  /-- Who has started a Q.ENQ or Q.DEQ on each queue since reset (log 7). -/
  owner : Pair (Option Party)
  /-- What the last completed operation returned (log 4). -/
  result : Result
  /-- The bytes of the operation records still to come (log 3). -/
  trace : List Byte
  /-- The next moves; where it is empty the next move is the next record of the trace (log 3). -/
  turns : List Turn
  deriving DecidableEq, Repr

/-- Why the machine stops with a fault. Both are safe, and no run reaches either (10_state.md R19, 20_memory.md R40). -/
inductive Fault where
  /-- Raised by reading a slot or a transmit buffer that holds no value (10_state.md R19, R21; U4). Safe. -/
  | readNoValue
  /-- Raised by a slot access at an index that no slot has (20_memory.md R40). Safe. -/
  | noSuchSlot
  deriving DecidableEq, Repr

/-- Why a run has no next state. All are safe: the model stops. -/
inductive Refusal where
  /-- Raised by exec for an instruction without a meaning. Safe. No arm raises it. -/
  | notModelled (mnemonic : String)
  /-- Raised by step: the configuration violates a constraint of 00_scope.md R6 (U9). Safe. -/
  | illFormedConfig
  /-- Raised by step: the schedule holds no further move (log 3). Safe. -/
  | endOfTrace
  /-- Raised by step: a reserved opid (30_encoding.md R71, U7). Safe. -/
  | reservedOpid (b : Byte)
  /-- Raised by step: the record of opid b is cut short (30_encoding.md R70). Safe. -/
  | truncatedRecord (b : Byte)
  /-- Raised by the operations with an enabling condition, where it does not hold
  (42_router.md R114, R118, R119; 43_notifier.md R131; U5; log 8). Safe. -/
  | notEnabled (op : OpName)
  /-- Raised by Q.ENQ, R.RX, FRAME and the sub-steps: a second producer on queue q, or a second Q.ENQ before the first is finished
  (70_reset_and_hazards.md R185, U3; log 7). Safe. -/
  | secondProducer (q : Port)
  /-- Raised by Q.DEQ, R.WSTART and the sub-steps: a second consumer on queue q, or a second Q.DEQ before the first is finished
  (70_reset_and_hazards.md R185, U3; log 7). Safe. -/
  | secondConsumer (q : Port)
  /-- Raised by a sub-step that is not the next one of its operation (70_reset_and_hazards.md R183, U11). Safe. -/
  | subStepOutOfOrder
  /-- Raised by a sub-step that starts a Q.ENQ with an item that is no Message of this configuration (10_state.md R12). Safe. -/
  | illFormedMessage
  deriving DecidableEq, Repr

/-- A queue after reset: N slots that hold no value, both indices 0 (10_state.md R32). -/
def Queue.reset (n : Nat) : Queue where
  slots := List.replicate n none
  head := 0
  tail := 0

/-- A worker after reset (10_state.md R32). -/
def Worker.reset : Worker where
  wstate := .idle
  txbuf := none
  retry := 0

/-- The notifier after reset (10_state.md R32). -/
def Notifier.reset : Notifier where
  state := .off
  sig := false
  cnt := 0

/-- The output streams after reset, "All output streams are empty" (10_state.md R32). -/
def Streams.reset : Streams where
  tx := ⟨[], []⟩
  rearm := ⟨[], []⟩
  ind := []
  stat := ⟨[], []⟩

/-- The machine right after reset with the parameters c and nothing scheduled (10_state.md R32). -/
def State.resetWith (c : Config) : State where
  cfg := c
  queues := ⟨Queue.reset c.n.uart, Queue.reset c.n.can⟩
  workers := ⟨Worker.reset, Worker.reset⟩
  ntf := Notifier.reset
  out := Streams.reset
  enq := ⟨none, none⟩
  deq := ⟨none, none⟩
  owner := ⟨none, none⟩
  result := .nothing
  trace := []
  turns := []

/-- The machine right after reset, with the parameters of Config.atReset (log 2). -/
def State.reset : State :=
  State.resetWith Config.atReset

end Sys2Proof.Machine
end

