-- ==== Sys2Proof/Machine/Ops.lean ====
section
/-! DEFINITION. Sys2Proof/Machine/Ops.lean: the named operations over pairs, configuration, queues, streams and the state, and the
queue operations as the agents perform them. -/

namespace Sys2Proof

/-- `other(t) = 1 - t` (00_scope.md R8). -/
def Port.other : Port → Port
  | .uart => .can
  | .can => .uart

/-- The number of a transport or queue, 0 UART, 1 CAN (00_scope.md R8). -/
def Port.toNat : Port → Nat
  | .uart => 0
  | .can => 1

/-- The value for index t. -/
def Pair.get {α : Type} (p : Pair α) : Port → α
  | .uart => p.uart
  | .can => p.can

/-- The pair with the value for index t replaced. -/
def Pair.set {α : Type} (p : Pair α) (t : Port) (a : α) : Pair α :=
  match t with
  | .uart => { p with uart := a }
  | .can => { p with can := a }

/-- W = 4 + K, the frame width (00_scope.md R6). -/
def Config.w (c : Config) : Nat := 4 + c.k

/-- N[q], the number of slots of queue q (00_scope.md R6). -/
def Config.slots (c : Config) (q : Port) : Nat := c.n.get q

/-- IDXW[q] = max(1, ceil(log2 N[q])), the width of `head` and `tail` (00_scope.md R6, D5). -/
def Config.idxw (c : Config) (q : Port) : Nat :=
  if c.slots q ≤ 2 then 1 else Nat.log2 (c.slots q - 1) + 1

/-- "in every Some(p, s): 0 <= p <= 254 and 0 <= s <= 254" (00_scope.md R6, D7). -/
def Entry.wf (e : Entry) : Bool :=
  e.defaultPriority != sentinel && e.defaultBodySize != sentinel

/-- A configuration that satisfies every constraint of 00_scope.md R6 (U9). -/
def Config.wf (c : Config) : Bool :=
  decide (1 ≤ c.k) && decide (c.w ≤ 255)
    && decide (2 ≤ c.n.uart) && decide (2 ≤ c.n.can)
    && decide (1 ≤ c.ncmd) && decide (c.ncmd ≤ 256)
    && decide (c.table.length = c.ncmd) && c.table.all (fun o => o.all Entry.wf)
    && decide (1 ≤ c.holdTicks)

end Sys2Proof

namespace Sys2Proof.Machine

/-- The outcome of an operation that yields a value of type α. -/
abbrev Out (α : Type) := Host.Outcome α Fault Refusal

/-- Goes on with what x yields; a stop stays a stop. -/
def andThen {α β : Type} (x : Out α) (f : α → Out β) : Out β :=
  match x with
  | .next a => f a
  | .fault r => .fault r
  | .refused r => .refused r

/-! ### One queue -/

/-- `inc(i, n)`, `(i + 1) mod n`, "computed as if i + 1 == n then 0 else i + 1" (00_scope.md R9, 41_queue.md R101). -/
def inc (i n : Nat) : Nat := if i + 1 = n then 0 else i + 1

/-- `head == tail` (41_queue.md R90). -/
def Queue.isEmpty (q : Queue) : Bool := q.head == q.tail

/-- `(tail + 1) mod N == head` (41_queue.md R91). -/
def Queue.isFull (n : Nat) (q : Queue) : Bool := inc q.tail n == q.head

/-- The number of Messages from index h up to index t, `(t - h) mod n` with no negative intermediate (41_queue.md R95). -/
def occupancy (n h t : Nat) : Nat := if h ≤ t then t - h else t + n - h

/-- The number of Messages in the queue (41_queue.md R95). -/
def Queue.len (n : Nat) (q : Queue) : Nat := occupancy n q.head q.tail

/-- SlotRead (00_scope.md R9): a slot that holds no value faults (10_state.md R19), and so does an index that no slot has
(20_memory.md R40). -/
def slotRead (slots : Memory) (i : Nat) : Except Fault Message :=
  match slots[i]? with
  | some (some m) => .ok m
  | some none => .error .readNoValue
  | none => .error .noSuchSlot

/-- SlotWrite (00_scope.md R9): an index that no slot has faults (20_memory.md R40). -/
def slotWrite (slots : Memory) (i : Nat) (m : Message) : Except Fault Memory :=
  if i < slots.length then .ok (slots.set i (some m)) else .error .noSuchSlot

/-- Q.ENQ (41_queue.md R93): the slot first, then the index. -/
def Queue.enqueue (n : Nat) (m : Message) (q : Queue) : Except Fault (Bool × Queue) :=
  if q.isFull n then .ok (false, q)
  else
    match slotWrite q.slots q.tail m with
    | .ok slots => .ok (true, { q with slots := slots, tail := inc q.tail n })
    | .error f => .error f

/-- Q.DEQ (41_queue.md R94): the slot first, then the index. An empty queue yields no item. -/
def Queue.dequeue (n : Nat) (q : Queue) : Except Fault (Option Message × Queue) :=
  if q.isEmpty then .ok (none, q)
  else
    match slotRead q.slots q.head with
    | .ok m => .ok (some m, { q with head := inc q.head n })
    | .error f => .error f

/-- The form of a slot array: exactly n slots, each with no value or with a Message of K body bytes (10_state.md R12, R15). -/
def Memory.wf (n k : Nat) (slots : Memory) : Bool :=
  slots.length == n && slots.all (fun o => o.all (Message.wf k))

/-! ### Accessors of the state -/

/-- Queue q. -/
def State.queue (s : State) (q : Port) : Queue := s.queues.get q

/-- Queue q replaced. -/
def State.setQueue (s : State) (q : Port) (x : Queue) : State := { s with queues := s.queues.set q x }

/-- Worker t. -/
def State.worker (s : State) (t : Port) : Worker := s.workers.get t

/-- Worker t replaced. -/
def State.setWorker (s : State) (t : Port) (x : Worker) : State := { s with workers := s.workers.set t x }

/-- The notifier replaced. -/
def State.setNtf (s : State) (x : Notifier) : State := { s with ntf := x }

/-- The Q.ENQ in progress on queue q replaced. -/
def State.setEnq (s : State) (q : Port) (x : Option EnqProgress) : State := { s with enq := s.enq.set q x }

/-- The Q.DEQ in progress on queue q replaced. -/
def State.setDeq (s : State) (q : Port) (x : Option DeqProgress) : State := { s with deq := s.deq.set q x }

/-- Queue q belongs to p from now on (log 7). -/
def State.claim (s : State) (q : Port) (p : Party) : State := { s with owner := s.owner.set q (some p) }

/-- The operation returns r (30_encoding.md R66; log 4). -/
def State.ret (s : State) (r : Result) : State := { s with result := r }

/-- `emit E`: "append output event E to the port stream it belongs to" (00_scope.md R9, 10_state.md R28). -/
def Streams.emit (o : Streams) (e : Event) : Streams :=
  match e with
  | .txStart t _ => { o with tx := o.tx.set t (o.tx.get t ++ [e]) }
  | .rearm t => { o with rearm := o.rearm.set t (o.rearm.get t ++ [e]) }
  | .activate => { o with ind := o.ind ++ [e] }
  | .deactivate => { o with ind := o.ind ++ [e] }
  | .rxStatus t _ => { o with stat := o.stat.set t (o.stat.get t ++ [e]) }

/-- `emit E` on the machine's streams. -/
def State.emit (s : State) (e : Event) : State := { s with out := s.out.emit e }

/-! ### Who may use a queue (70_reset_and_hazards.md R185; log 7) -/

/-- The other party has started a Q.ENQ or Q.DEQ on queue q since reset. -/
def State.foreign (who : Party) (q : Port) (s : State) : Bool :=
  (s.owner.get q).any (fun p => p != who)

/-- A Q.ENQ on queue q by this party has no meaning now: it would be a second producer, or a second Q.ENQ before the first is
finished (70_reset_and_hazards.md R185, U3). -/
def State.producerBarred (who : Party) (q : Port) (s : State) : Bool :=
  (s.enq.get q).isSome || s.foreign who q

/-- The same for a Q.DEQ. -/
def State.consumerBarred (who : Party) (q : Port) (s : State) : Bool :=
  (s.deq.get q).isSome || s.foreign who q

/-- Q.ENQ q, m by a party (41_queue.md R93): the Boolean, and the state after it. It makes the queue the party's own, whatever the
Boolean says (log 7). -/
def enqueueAs (who : Party) (q : Port) (m : Message) (s : State) : Out (Bool × State) :=
  if s.producerBarred who q then .refused (.secondProducer q)
  else
    match (s.queue q).enqueue (s.cfg.slots q) m with
    | .ok (ok, x) => .next (ok, (s.setQueue q x).claim q who)
    | .error f => .fault f

/-- Q.DEQ q by a party (41_queue.md R94): the item, if there is one, and the state after it. It makes the queue the party's own, whether
or not there is an item (log 7). -/
def dequeueAs (who : Party) (q : Port) (s : State) : Out (Option Message × State) :=
  if s.consumerBarred who q then .refused (.secondConsumer q)
  else
    match (s.queue q).dequeue (s.cfg.slots q) with
    | .ok (item, x) => .next (item, (s.setQueue q x).claim q who)
    | .error f => .fault f

/-- SYS.RESET (70_reset_and_hazards.md R170): all of 10_state.md R11, the streams, every operation in progress and the queues'
owners go back to their reset values; "Parameters unchanged"; the rest of the schedule is the environment's and stays. -/
def State.clear (s : State) : State :=
  { State.resetWith s.cfg with trace := s.trace, turns := s.turns }

end Sys2Proof.Machine
end

