-- ==== Sys2Proof/Machine/Operands.lean ====
section
/-! DEFINITION. Sys2Proof/Machine/Operands.lean: operand assembly, from frame bytes to Message fields and back (30_encoding.md
section 2): the table lookup, the raw copy, the sentinel resolution, the two codec functions. -/

namespace Sys2Proof.Machine

/-- `TableRead(c)`: "TABLE[c] if c < NCMD, else None" (00_scope.md R9, 40_codec.md R86). -/
def tableRead (c : Config) (command : Byte) : Option Entry :=
  if command.toNat < c.ncmd then (c.table[command.toNat]?).join else none

/-- `InDomain(c)` (00_scope.md R9). -/
def inDomain (c : Config) (command : Byte) : Bool := (tableRead c command).isSome

/-- The frame of a Message, `f[0]` to `f[4+K-1]` (40_codec.md R80). `body_size` is not on the wire. -/
def frameOf (m : Message) : List Byte :=
  m.priority :: m.sender :: m.recipient :: m.command :: m.body

/-- The raw copy of a frame's bytes; `body_size` has no byte and is set to 255 (30_encoding.md R63). -/
def rawCopy : List Byte → Option Message
  | p :: s :: r :: c :: body => some ⟨p, s, r, c, sentinel, body⟩
  | _ => none

/-- Sentinel resolution (30_encoding.md R64, 40_codec.md R81): an unknown command is an error while a field is the sentinel. -/
def resolve (c : Config) (m : Message) : Except Status Message :=
  match tableRead c m.command with
  | some e => .ok { m with
      bodySize := if m.bodySize = sentinel then e.defaultBodySize else m.bodySize
      priority := if m.priority = sentinel then e.defaultPriority else m.priority }
  | none => if m.bodySize = sentinel ∨ m.priority = sentinel then .error .unknownCommand else .ok m

/-- C.DEC (40_codec.md R81): the length is tested before any byte is read. -/
def decodeFrame (c : Config) (b : List Byte) : Except Status Message :=
  if b.length = c.w then
    match rawCopy b with
    | some m => resolve c m
    | none => .error .malformedFrame
  else .error .malformedFrame

end Sys2Proof.Machine

namespace Sys2Proof

/-- "A Message m is valid when m.priority != 255 and m.body_size != 255" (10_state.md R13). -/
def Message.valid (m : Message) : Bool :=
  m.priority != sentinel && m.bodySize != sentinel

end Sys2Proof
end

