-- ==== Sys2Proof/Machine/Codec.lean ====
section
/-! DEFINITION. Sys2Proof/Machine/Codec.lean: the Frame Codec operations C.ENC and C.DEC (40_codec.md). -/

namespace Sys2Proof.Machine

/-- C.ENC m (40_codec.md R80): the frame of m; total. -/
def execCEnc (m : Message) (s : State) : Out State :=
  .next (s.ret (.frame (frameOf m)))

/-- C.DEC b (40_codec.md R81): a Message, or the error kind. -/
def execCDec (b : List Byte) (s : State) : Out State :=
  match decodeFrame s.cfg b with
  | .ok m => .next (s.ret (.message m))
  | .error st => .next (s.ret (.status st))

end Sys2Proof.Machine
end

