-- ==== Sys2Proof/Machine/Flags.lean ====
section
/-! DEFINITION. Sys2Proof/Machine/Flags.lean: every status-like value the spec derives from the state, none of them stored
(10_state.md R23, R27, R30): empty, full, occupancy, led, the pipeline view, the status codes, the storage encodings, the enabling
conditions, quiescence. -/

namespace Sys2Proof.Machine

/-- `empty[q]` (10_state.md R30). -/
def State.empty (s : State) (q : Port) : Bool := (s.queue q).isEmpty

/-- `full[q]` (10_state.md R30). -/
def State.full (s : State) (q : Port) : Bool := (s.queue q).isFull (s.cfg.slots q)

/-- The occupancy of queue q from one snapshot of both indices (41_queue.md R95, 70_reset_and_hazards.md R187). -/
def State.len (s : State) (q : Port) : Nat := (s.queue q).len (s.cfg.slots q)

/-- The indicator level (10_state.md R27, 43_notifier.md R134). -/
def State.led (s : State) : Bool := s.ntf.state == .on

/-- The source's two-state view of a pipeline (10_state.md R23). -/
inductive PipeState where
  | idle
  | messageAvailable
  deriving DecidableEq, Repr

/-- `pipe_state[t]` (10_state.md R23). -/
def State.pipeState (s : State) (t : Port) : PipeState :=
  if s.empty t && (s.worker t).wstate == .idle then .idle else .messageAvailable

/-- The 3-bit status code (30_encoding.md R67). -/
def Status.code : Status → BitVec 3
  | .ok => 0
  | .malformedFrame => 1
  | .unknownCommand => 2
  | .queueFull => 3
  | .queueEmpty => 4

/-- The status of a code; the codes 5, 6 and 7 are reserved (30_encoding.md R67). -/
def Status.ofCode (c : BitVec 3) : Option Status :=
  if c = 0 then some .ok
  else if c = 1 then some .malformedFrame
  else if c = 2 then some .unknownCommand
  else if c = 3 then some .queueFull
  else if c = 4 then some .queueEmpty
  else none

/-- "IDLE = 0, BUSY = 1" (30_encoding.md R69). -/
def WState.code : WState → BitVec 1
  | .idle => 0
  | .busy => 1

/-- "OFF = 0, ON = 1" (30_encoding.md R69). -/
def NtfState.code : NtfState → BitVec 1
  | .off => 0
  | .on => 1

/-- The status of Q.ENQ's Boolean: true is OK, false is QueueFull (30_encoding.md R67). -/
def enqStatus (ok : Bool) : Status := if ok then .ok else .queueFull

/-- The status of Q.DEQ's result: an item is OK, none is QueueEmpty (30_encoding.md R67). -/
def deqStatus (item : Option Message) : Status := if item.isSome then .ok else .queueEmpty

/-- The enabling condition of R.WSTART t (42_router.md R114). -/
def State.wstartEnabled (s : State) (t : Port) : Bool :=
  (s.worker t).wstate == .idle && !s.empty t

/-- The enabling condition of R.WDONE t and R.WFAIL t, beside their event (42_router.md R115, R116). -/
def State.answerEnabled (s : State) (t : Port) : Bool := (s.worker t).wstate == .busy

/-- The enabling condition of N.WAKE (43_notifier.md R131). -/
def State.wakeEnabled (s : State) : Bool := s.ntf.state == .off && s.ntf.sig

/-- The quiescent states (70_reset_and_hazards.md R192). -/
def State.quiescent (s : State) : Bool :=
  s.empty .uart && s.empty .can
    && (s.worker .uart).wstate == .idle && (s.worker .can).wstate == .idle
    && !s.ntf.sig && s.ntf.state == .off
    && s.enq == ⟨none, none⟩ && s.deq == ⟨none, none⟩

end Sys2Proof.Machine
end

