-- ==== Sys2Proof/Machine/Notify.lean ====
section
/-! DEFINITION. Sys2Proof/Machine/Notify.lean: the Notifier operations N.WAKE and N.TICK (43_notifier.md). -/

namespace Sys2Proof.Machine

/-- N.WAKE (43_notifier.md R131). -/
def execNWake (s : State) : Out State :=
  if s.wakeEnabled then
    .next (((s.setNtf { state := .on, sig := false, cnt := s.cfg.holdTicks }).emit .activate).ret .nothing)
  else .refused (.notEnabled .nWake)

/-- N.TICK (43_notifier.md R132): always enabled; the test for a new signal is made when the hold ends. -/
def execNTick (s : State) : Out State :=
  match s.ntf.state with
  | .off => .next (s.ret .nothing)
  | .on =>
    if 1 < s.ntf.cnt then .next ((s.setNtf { s.ntf with cnt := s.ntf.cnt - 1 }).ret .nothing)
    else if s.ntf.sig then
      .next ((s.setNtf { s.ntf with sig := false, cnt := s.cfg.holdTicks }).ret .nothing)
    else .next (((s.setNtf { s.ntf with state := .off, cnt := 0 }).emit .deactivate).ret .nothing)

end Sys2Proof.Machine
end

