-- ==== Sys2Proof/Machine/Queues.lean ====
section
/-! DEFINITION. Sys2Proof/Machine/Queues.lean: the Bounded Message Queue operations (41_queue.md). A Q.ENQ or Q.DEQ of a trace record is
the script's, which drives a stand-alone queue (70_reset_and_hazards.md R185; log 7). -/

namespace Sys2Proof.Machine

/-- Q.ISEMPTY q (41_queue.md R90). -/
def execQIsEmpty (q : Port) (s : State) : Out State :=
  .next (s.ret (.bool (s.empty q)))

/-- Q.ISFULL q (41_queue.md R91). -/
def execQIsFull (q : Port) (s : State) : Out State :=
  .next (s.ret (.bool (s.full q)))

/-- Q.LEN q (41_queue.md R95). -/
def execQLen (q : Port) (s : State) : Out State :=
  .next (s.ret (.len (s.len q)))

/-- Q.ENQ q, m (41_queue.md R93). -/
def execQEnq (q : Port) (m : Message) (s : State) : Out State :=
  andThen (enqueueAs .script q m s) fun r => .next (r.2.ret (.bool r.1))

/-- Q.DEQ q (41_queue.md R94). -/
def execQDeq (q : Port) (s : State) : Out State :=
  andThen (dequeueAs .script q s) fun r => .next (r.2.ret (.item r.1))

end Sys2Proof.Machine
end

