-- ==== Sys2Proof/Machine/Router.lean ====
section
/-! DEFINITION. Sys2Proof/Machine/Router.lean: the Bridge Router operations (42_router.md), and the arrival of a wire frame. -/

namespace Sys2Proof.Machine

/-- The end of a receive handler: `Rearm(t)`, `RxStatus(t, status)`, the status returned (42_router.md R111, R112). -/
def State.finishReceive (s : State) (t : Port) (st : Status) : State :=
  ((s.emit (.rearm t)).emit (.rxStatus t st)).ret (.status st)

/-- The receive handler of transport t on the bytes b (42_router.md R111). Its entry saves nothing and its return restores nothing
(60_exceptions.md R152, R153); it runs to its end in one step (70_reset_and_hazards.md R186). -/
def serveReceive (t : Port) (b : List Byte) (s : State) : Out State :=
  match decodeFrame s.cfg b with
  | .error st => .next (s.finishReceive t st)
  | .ok m =>
    andThen (enqueueAs .router t.other m s) fun r => .next (r.2.finishReceive t (enqStatus r.1))

/-- R.RX t, b (42_router.md R111). -/
def execRRx (t : Port) (b : List Byte) (s : State) : Out State :=
  serveReceive t b s

/-- A wire frame on transport t: the event RxFrame(t, b) with the frame's W bytes, which triggers R.RX t, b
(10_state.md R29; 30_encoding.md R60, R68; log 6). -/
def execFrame (t : Port) (f : Frame) (s : State) : Out State :=
  serveReceive t f.bytes s

/-- The end of R.WSTART t: `txbuf`, `retry`, `wstate` and `TxStart(t, f)` (42_router.md R114). -/
def State.startTransmit (s : State) (t : Port) (f : List Byte) : State :=
  ((s.setWorker t { wstate := .busy, txbuf := some f, retry := 0 }).emit (.txStart t f)).ret .nothing

/-- R.WSTART t (42_router.md R114). -/
def execRWstart (t : Port) (s : State) : Out State :=
  if s.wstartEnabled t then
    andThen (dequeueAs .router t s) fun r =>
      match r.1 with
      | some m => .next (r.2.startTransmit t (frameOf m))
      | none => .refused (.notEnabled .rWstart)
  else .refused (.notEnabled .rWstart)

/-- N.SIGNAL, `ntf_sig <- 1` (43_notifier.md R130). -/
def State.signal (s : State) : State := s.setNtf { s.ntf with sig := true }

/-- R.WDONE t (42_router.md R115). -/
def execRWdone (t : Port) (s : State) : Out State :=
  if s.answerEnabled t then
    .next ((s.signal.setWorker t { s.worker t with wstate := .idle }).ret .nothing)
  else .refused (.notEnabled .rWdone)

/-- R.WFAIL t (42_router.md R116): the same frame again while retries are left, else the Message is dropped. -/
def execRWfail (t : Port) (s : State) : Out State :=
  if s.answerEnabled t then
    if (s.worker t).retry < s.cfg.txRetryMax then
      match (s.worker t).txbuf with
      | some f =>
        .next (((s.setWorker t { s.worker t with retry := (s.worker t).retry + 1 }).emit (.txStart t f)).ret .nothing)
      | none => .fault .readNoValue
    else .next ((s.setWorker t { s.worker t with wstate := .idle }).ret .nothing)
  else .refused (.notEnabled .rWfail)

end Sys2Proof.Machine
end

