-- ==== Sys2Proof/Machine/System.lean ====
section
/-! DEFINITION. Sys2Proof/Machine/System.lean: SYS.RESET (70_reset_and_hazards.md R170). -/

namespace Sys2Proof.Machine

/-- SYS.RESET (70_reset_and_hazards.md R170): always enabled; it overrides any operation in progress. -/
def execSysReset (s : State) : Out State :=
  .next s.clear

end Sys2Proof.Machine
end

