-- ==== Sys2Proof/Machine/Dispatch.lean ====
section
/-! DEFINITION. Sys2Proof/Machine/Dispatch.lean: one arm for each instruction. -/

namespace Sys2Proof.Machine

def exec (i : Instr) (s : State) : Host.Outcome State Fault Refusal :=
  match i with
  | .qIsEmpty q => Sys2Proof.Machine.execQIsEmpty q s
  | .qIsFull q => Sys2Proof.Machine.execQIsFull q s
  | .qEnq q m => Sys2Proof.Machine.execQEnq q m s
  | .qDeq q => Sys2Proof.Machine.execQDeq q s
  | .qLen q => Sys2Proof.Machine.execQLen q s
  | .cEnc m => Sys2Proof.Machine.execCEnc m s
  | .cDec b => Sys2Proof.Machine.execCDec b s
  | .rRx t b => Sys2Proof.Machine.execRRx t b s
  | .rWstart t => Sys2Proof.Machine.execRWstart t s
  | .rWdone t => Sys2Proof.Machine.execRWdone t s
  | .rWfail t => Sys2Proof.Machine.execRWfail t s
  | .nWake => Sys2Proof.Machine.execNWake s
  | .nTick => Sys2Proof.Machine.execNTick s
  | .sysReset => Sys2Proof.Machine.execSysReset s
  | .frame t f => Sys2Proof.Machine.execFrame t f s

end Sys2Proof.Machine
end

