-- ==== Sys2Proof/Machine/Substeps.lean ====
section
/-! DEFINITION. Sys2Proof/Machine/Substeps.lean: Q.ENQ and Q.DEQ split into their sub-steps, and R.WSTART around its Q.DEQ
(70_reset_and_hazards.md R180, R181, R186; log 9). -/

namespace Sys2Proof.Machine

/-- The script starts `Q.ENQ q, m`. The queue is its own from here on (log 7). -/
def subEnqBegin (q : Port) (m : Message) (s : State) : Out State :=
  if s.producerBarred .script q then .refused (.secondProducer q)
  else if m.wf s.cfg.k then .next ((s.setEnq q (some ⟨m, none, none, .reading⟩)).claim q .script)
  else .refused .illFormedMessage

/-- E1: `t0 <- Q[q].tail`. -/
def subE1 (q : Port) (s : State) : Out State :=
  match s.enq.get q with
  | some ⟨m, none, h, .reading⟩ => .next (s.setEnq q (some ⟨m, some (s.queue q).tail, h, .reading⟩))
  | _ => .refused .subStepOutOfOrder

/-- E2: `h <- Q[q].head`. -/
def subE2 (q : Port) (s : State) : Out State :=
  match s.enq.get q with
  | some ⟨m, t0, none, .reading⟩ => .next (s.setEnq q (some ⟨m, t0, some (s.queue q).head, .reading⟩))
  | _ => .refused .subStepOutOfOrder

/-- E3: `if inc(t0, N) == h: return false`. -/
def subE3 (q : Port) (s : State) : Out State :=
  match s.enq.get q with
  | some ⟨m, some t0, some h, .reading⟩ =>
    if inc t0 (s.cfg.slots q) = h then .next ((s.setEnq q none).ret (.bool false))
    else .next (s.setEnq q (some ⟨m, some t0, some h, .tested⟩))
  | _ => .refused .subStepOutOfOrder

/-- E4: `SlotWrite(q, t0, item)`. -/
def subE4 (q : Port) (s : State) : Out State :=
  match s.enq.get q with
  | some ⟨m, some t0, h, .tested⟩ =>
    match slotWrite (s.queue q).slots t0 m with
    | .ok slots =>
      .next ((s.setQueue q { s.queue q with slots := slots }).setEnq q (some ⟨m, some t0, h, .written⟩))
    | .error f => .fault f
  | _ => .refused .subStepOutOfOrder

/-- E5: `Q[q].tail <- inc(t0, N); return true`. -/
def subE5 (q : Port) (s : State) : Out State :=
  match s.enq.get q with
  | some ⟨_, some t0, _, .written⟩ =>
    .next (((s.setQueue q { s.queue q with tail := inc t0 (s.cfg.slots q) }).setEnq q none).ret (.bool true))
  | _ => .refused .subStepOutOfOrder

/-- The script starts `Q.DEQ q`. The queue is its own from here on (log 7). -/
def subDeqBegin (q : Port) (s : State) : Out State :=
  if s.consumerBarred .script q then .refused (.secondConsumer q)
  else .next ((s.setDeq q (some ⟨.script, none, none, .reading⟩)).claim q .script)

/-- Worker t starts `R.WSTART t`, where it is enabled (42_router.md R114). -/
def subWstartBegin (t : Port) (s : State) : Out State :=
  if s.wstartEnabled t then
    if s.consumerBarred .router t then .refused (.secondConsumer t)
    else .next ((s.setDeq t (some ⟨.router, none, none, .reading⟩)).claim t .router)
  else .refused (.notEnabled .rWstart)

/-- D1: `h0 <- Q[q].head`. -/
def subD1 (q : Port) (s : State) : Out State :=
  match s.deq.get q with
  | some ⟨who, none, t, .reading⟩ => .next (s.setDeq q (some ⟨who, some (s.queue q).head, t, .reading⟩))
  | _ => .refused .subStepOutOfOrder

/-- D2: `t <- Q[q].tail`. -/
def subD2 (q : Port) (s : State) : Out State :=
  match s.deq.get q with
  | some ⟨who, h0, none, .reading⟩ => .next (s.setDeq q (some ⟨who, h0, some (s.queue q).tail, .reading⟩))
  | _ => .refused .subStepOutOfOrder

/-- D3: `if h0 == t: return (_, false)`. Inside R.WSTART, where it cannot happen, a failed test leaves the worker waiting
(42_router.md R114). -/
def subD3 (q : Port) (s : State) : Out State :=
  match s.deq.get q with
  | some ⟨who, some h0, some t, .reading⟩ =>
    if h0 = t then
      match who with
      | .script => .next ((s.setDeq q none).ret (.item none))
      | .router => .next (s.setDeq q none)
    else .next (s.setDeq q (some ⟨who, some h0, some t, .tested⟩))
  | _ => .refused .subStepOutOfOrder

/-- D4: `item <- SlotRead(q, h0)`. -/
def subD4 (q : Port) (s : State) : Out State :=
  match s.deq.get q with
  | some ⟨who, some h0, t, .tested⟩ =>
    match slotRead (s.queue q).slots h0 with
    | .ok m => .next (s.setDeq q (some ⟨who, some h0, t, .copied m⟩))
    | .error f => .fault f
  | _ => .refused .subStepOutOfOrder

/-- D5: `Q[q].head <- inc(h0, N); return (item, true)`; inside R.WSTART the item stays with the worker. -/
def subD5 (q : Port) (s : State) : Out State :=
  match s.deq.get q with
  | some ⟨.script, some h0, _, .copied m⟩ =>
    .next (((s.setQueue q { s.queue q with head := inc h0 (s.cfg.slots q) }).setDeq q none).ret (.item (some m)))
  | some ⟨.router, some h0, t, .copied m⟩ =>
    .next ((s.setQueue q { s.queue q with head := inc h0 (s.cfg.slots q) }).setDeq q (some ⟨.router, some h0, t, .dequeued m⟩))
  | _ => .refused .subStepOutOfOrder

/-- `f <- C.ENC(m)` of R.WSTART t. -/
def subWstartEncode (t : Port) (s : State) : Out State :=
  match s.deq.get t with
  | some ⟨who, h0, t', .dequeued m⟩ => .next (s.setDeq t (some ⟨who, h0, t', .encoded (frameOf m)⟩))
  | _ => .refused .subStepOutOfOrder

/-- `txbuf[t] <- f; retry[t] <- 0; wstate[t] <- BUSY; emit TxStart(t, f)` of R.WSTART t. -/
def subWstartTransmit (t : Port) (s : State) : Out State :=
  match s.deq.get t with
  | some ⟨_, _, _, .encoded f⟩ => .next ((s.setDeq t none).startTransmit t f)
  | _ => .refused .subStepOutOfOrder

/-- One sub-step. -/
def execSub (m : SubStep) (s : State) : Out State :=
  match m with
  | .enqBegin q m => subEnqBegin q m s
  | .e1 q => subE1 q s
  | .e2 q => subE2 q s
  | .e3 q => subE3 q s
  | .e4 q => subE4 q s
  | .e5 q => subE5 q s
  | .deqBegin q => subDeqBegin q s
  | .wstartBegin t => subWstartBegin t s
  | .d1 q => subD1 q s
  | .d2 q => subD2 q s
  | .d3 q => subD3 q s
  | .d4 q => subD4 q s
  | .d5 q => subD5 q s
  | .wstartEncode t => subWstartEncode t s
  | .wstartTransmit t => subWstartTransmit t s

end Sys2Proof.Machine
end

