-- ==== Sys2Proof/Machine/Fetch.lean ====
section
/-! DEFINITION. Sys2Proof/Machine/Fetch.lean: what the schedule in State says is the next move (log 3), and how a word of the opcode
table is placed there. -/

namespace Sys2Proof.Machine

/-- The next move, taken from the state: an instruction or a sub-step and the state without it, or no move. -/
inductive Fetched where
  | instr (i : Instr) (s : State)
  | sub (m : SubStep) (s : State)
  | stop (r : Refusal)
  deriving DecidableEq, Repr

/-- The refusal of a trace whose next record cannot be read. -/
def refusalOf : DecodeError → Refusal
  | .endOfTrace => .endOfTrace
  | .reservedOpid b => .reservedOpid b
  | .truncated b => .truncatedRecord b

/-- The next operation record of the trace (30_encoding.md R70, R71). DESIGN CHOICE: the records before a reserved opid are performed, and
the trace is refused when that opid is reached (log 18). -/
def fetchRecord (s : State) : Fetched :=
  match decode s.cfg.k s.trace with
  | .ok (i, rest) => .instr i { s with trace := rest }
  | .error e => .stop (refusalOf e)

/-- The next move. A configuration that violates 00_scope.md R6 has none (U9). -/
def fetch (s : State) : Fetched :=
  if s.cfg.wf then
    match s.turns with
    | [] => fetchRecord s
    | .record :: rest => fetchRecord { s with turns := rest }
    | .wire t b :: rest => .instr (decodeWire s.cfg.k t b) { s with turns := rest }
    | .sub m :: rest => .sub m { s with turns := rest }
  else .stop .illFormedConfig

/-- The schedule whose next move is the table row's instruction: the row FRAME is a frame on the wire of UART, any other row an
operation record of the trace (log 3, log 6). DESIGN CHOICE: byte i of the word is in its bits 8i+7..8i, as in the vector of
30_encoding.md R61 and not as in the table's bit string (log 6). -/
def placeWord (s : State) (nbits w : Nat) : State :=
  if nbits = frameBits then { s with turns := [.wire .uart (unpackBytes 11 w)] }
  else { s with turns := [], trace := tableRecord nbits w }

end Sys2Proof.Machine
end

