-- ==== Sys2Proof/Machine/Script.lean ====
section
/-! DEFINITION. Sys2Proof/Machine/Script.lean: the script notation's pseudo-operations and their expansion to real operations
(30_encoding.md R72, R73), and the trace bytes of a script (95_test_vectors.md). -/

namespace Sys2Proof.Machine

/-- One line of a script: a real operation or one of the two pseudo-operations (30_encoding.md R73). -/
inductive ScriptLine where
  | op (i : Instr)
  /-- `N.TICK*n`. -/
  | ticks (n : Nat)
  /-- `R.RELAY t, b`. -/
  | relay (t : Port) (b : List Byte)
  deriving DecidableEq, Repr

/-- The real operations a line stands for, in order (30_encoding.md R73). DESIGN CHOICE: R.RELAY expands in every state, also where the
rule calls it not meaningful because `Q[other(t)]` holds a Message or its worker is BUSY. The three operations then do what their own
rules say, so an older frame may be the one that is transmitted (log 19). -/
def ScriptLine.expand : ScriptLine → List Instr
  | .op i => [i]
  | .ticks n => List.replicate n .nTick
  | .relay t b => [.rRx t b, .rWstart t.other, .rWdone t.other]

/-- The trace record of an operation; a wire frame has none, it is no record of a trace. -/
def traceRecord (i : Instr) : List Byte :=
  match encode i with
  | .record bytes => bytes
  | .wire _ _ => []

/-- The trace bytes of a script: "the concatenation of its records in order" (95_test_vectors.md). -/
def traceBytes (script : List ScriptLine) : List Byte :=
  (script.flatMap ScriptLine.expand).flatMap traceRecord

/-- The instructions of a list performed one at a time, in order, each atomically (30_encoding.md R72). -/
def execAll : List Instr → State → Out State
  | [], s => .next s
  | i :: is, s => andThen (exec i s) (execAll is)

end Sys2Proof.Machine
end

