-- ==== Sys2Proof/Safety.lean ====
section
/-! DEFINITION. Sys2Proof/Safety.lean: the terms in which claims are stated: the content of a queue, the invariants of the machine, the
transfers in progress that its rules allow, and which outputs are well-formed. -/

namespace Sys2Proof.Machine

/-- The live region's slots from head on, `slots[head]`, `slots[inc(head)]`, ... up to but excluding `slots[tail]`
(41_queue.md R96). -/
def Queue.content (n : Nat) (q : Queue) : List (Option Message) :=
  (List.range (q.len n)).map fun j => (q.slots[(q.head + j) % n]?).join

/-- The content of queue q in state s. -/
def State.content (s : State) (q : Port) : List (Option Message) :=
  (s.queue q).content (s.cfg.slots q)

/-- The invariant of one queue: indices in range (10_state.md R18), the slot array's form (R12, R15), and every live slot written
(10_state.md R19, 41_queue.md R100). -/
structure Queue.Inv (n k : Nat) (q : Queue) : Prop where
  head_lt : q.head < n
  tail_lt : q.tail < n
  slots_wf : Memory.wf n k q.slots = true
  live_written : ∀ j, j < q.len n → ∃ m, q.slots[(q.head + j) % n]? = some (some m)

/-- Who may have written what: a queue on which nobody has started an operation is as reset, and the router stores only valid Messages
(10_state.md R13; log 7). -/
def Queue.OwnedBy (o : Option Party) (q : Queue) : Prop :=
  (o = none → q.head = 0 ∧ q.tail = 0 ∧ ∀ x ∈ q.slots, x = none)
    ∧ (o = some .router → ∀ m, some m ∈ q.slots → m.valid = true)

/-- A Q.ENQ in progress agrees with the queue (70_reset_and_hazards.md R182): t0 is still `tail`, h is an older `head` (the producer
sees the queue at least as full as it is), the test has found room, and the written slot is the one at `tail`. -/
structure EnqProgress.Inv (n k : Nat) (q : Queue) (p : EnqProgress) : Prop where
  item_wf : p.item.wf k = true
  t0_eq : ∀ x, p.t0 = some x → x = q.tail
  h_older : ∀ y, p.h = some y → y < n ∧ q.len n ≤ occupancy n y q.tail
  room : p.phase ≠ .reading → p.t0 = some q.tail ∧ ∃ y, p.h = some y ∧ inc q.tail n ≠ y
  slot : p.phase = .written → q.slots[q.tail]? = some (some p.item)

/-- A Q.DEQ in progress agrees with the queue and the worker (70_reset_and_hazards.md R182): until D5 h0 is still `head`, t is an older
`tail` (the consumer sees the queue at most as full as it is), the test has found a Message, the copied item is the one at `head`; a
worker in the middle of R.WSTART is IDLE, and until D5 its queue is not empty. -/
structure DeqProgress.Inv (n k : Nat) (q : Queue) (w : Worker) (p : DeqProgress) : Prop where
  worker_idle : p.who = .router → w.wstate = .idle
  script_phase : p.who = .script → (∀ m, p.phase ≠ .dequeued m) ∧ ∀ f, p.phase ≠ .encoded f
  before_d5 : (∀ m, p.phase ≠ .dequeued m) → (∀ f, p.phase ≠ .encoded f) →
    (∀ x, p.h0 = some x → x = q.head)
      ∧ (∀ y, p.t = some y → y < n ∧ occupancy n q.head y ≤ q.len n)
      ∧ (p.who = .router → q.head ≠ q.tail ∧ ∀ y, p.t = some y → y ≠ q.head)
      ∧ (p.phase ≠ .reading → p.h0 = some q.head ∧ ∃ y, p.t = some y ∧ y ≠ q.head)
  copied : ∀ m, p.phase = .copied m → q.slots[q.head]? = some (some m)
  dequeued : ∀ m, p.phase = .dequeued m → m.wf k = true
  encoded : ∀ f, p.phase = .encoded f → ∃ m : Message, m.wf k = true ∧ f = frameOf m

/-- The invariant of a worker: BUSY holds a frame of W bytes (10_state.md R21), `retry` never exceeds TX_RETRY_MAX (R22). -/
structure Worker.Inv (c : Config) (w : Worker) : Prop where
  retry_le : w.retry ≤ c.txRetryMax
  busy_frame : w.wstate = .busy → ∃ f, w.txbuf = some f
  frame_len : ∀ f, w.txbuf = some f → f.length = c.w

/-- The invariant of the notifier's counter (10_state.md R26). -/
def Notifier.Inv (c : Config) (x : Notifier) : Prop :=
  match x.state with
  | .off => x.cnt = 0
  | .on => 1 ≤ x.cnt ∧ x.cnt ≤ c.holdTicks

/-- The indicator level a stream of indicator events leaves, from the level it starts at, or none where the events do not alternate
(43_notifier.md R133 d, R134). -/
def indLevel : Bool → List Event → Option Bool
  | l, [] => some l
  | false, .activate :: es => indLevel true es
  | true, .deactivate :: es => indLevel false es
  | _, _ => none

/-- Each stream holds only its own events, and the frames of `TX[t]` are W bytes long (10_state.md R28). -/
def Streams.Inv (c : Config) (o : Streams) : Prop :=
  (∀ t, ∀ e ∈ o.tx.get t, ∃ f, e = .txStart t f ∧ f.length = c.w)
    ∧ (∀ t, ∀ e ∈ o.rearm.get t, e = .rearm t)
    ∧ (∀ t, ∀ e ∈ o.stat.get t, ∃ st, e = .rxStatus t st)

/-- The invariant of the machine. -/
structure State.Inv (s : State) : Prop where
  cfg_wf : s.cfg.wf = true
  queue : ∀ q, (s.queue q).Inv (s.cfg.slots q) s.cfg.k
  owned : ∀ q, (s.queue q).OwnedBy (s.owner.get q)
  worker : ∀ t, (s.worker t).Inv s.cfg
  ntf : s.ntf.Inv s.cfg
  streams : s.out.Inv s.cfg
  ind : indLevel false s.out.ind = some s.led
  enq : ∀ q p, s.enq.get q = some p →
    p.Inv (s.cfg.slots q) s.cfg.k (s.queue q) ∧ s.owner.get q = some .script
  deq : ∀ q p, s.deq.get q = some p →
    p.Inv (s.cfg.slots q) s.cfg.k (s.queue q) (s.worker q) ∧ s.owner.get q = some p.who

/-- No Q.ENQ, Q.DEQ or R.WSTART is in progress on queue q between sub-steps. -/
def State.settled (s : State) (q : Port) : Prop :=
  s.enq.get q = none ∧ s.deq.get q = none

/-- Queue q may be driven by a script: nobody else uses it, and no transfer is in progress on it (70_reset_and_hazards.md R185). -/
def State.standAlone (s : State) (q : Port) : Prop :=
  s.settled q ∧ s.owner.get q ≠ some .router

/-- Queue q may be used by the router: no script uses it (70_reset_and_hazards.md R185). -/
def State.routed (s : State) (q : Port) : Prop :=
  s.owner.get q ≠ some .script

/-- The state of 10_state.md R11 (the queues, the workers, the notifier), the configuration and the transfers in progress. What is left
out are the output streams and the model's own owner, result, trace and turns. -/
def State.block (s : State) :
    Config × Pair Queue × Pair Worker × Notifier × Pair (Option EnqProgress) × Pair (Option DeqProgress) :=
  (s.cfg, s.queues, s.workers, s.ntf, s.enq, s.deq)

/-- The reserved opids in the rule's own numbers (30_encoding.md R71): operation numbers 0 and 14, a bit of `opid[3:1]` set, or the
index bit set on C.ENC, C.DEC, N.WAKE, N.TICK or SYS.RESET. -/
def reservedOpid (b : Byte) : Bool :=
  let number := b.toNat / 16
  let zeros := b.toNat / 2 % 8
  let index := b.toNat % 2
  number == 0 || number == 14 || zeros != 0
    || (index == 1 && (number == 6 || number == 7 || number == 12 || number == 13 || number == 15))

/-- The constraints of 00_scope.md R6 in the rule's own words. -/
def Constraints (c : Config) : Prop :=
  1 ≤ c.k ∧ 4 + c.k ≤ 255 ∧ (∀ q, 2 ≤ c.n.get q) ∧ 1 ≤ c.ncmd ∧ c.ncmd ≤ 256 ∧ c.table.length = c.ncmd
    ∧ (∀ e, some e ∈ c.table → e.defaultPriority.toNat ≤ 254 ∧ e.defaultBodySize.toNat ≤ 254) ∧ 1 ≤ c.holdTicks

/-- The instructions by which the bytes b reach the receive handler of transport t (10_state.md R29). -/
def Receives (t : Port) (b : List Byte) (i : Instr) : Prop :=
  i = .rRx t b ∨ ∃ f, i = .frame t f ∧ f.bytes = b

/-- s after `emit Rearm(t); emit RxStatus(t, st); return st` (42_router.md R111), written out. -/
def State.afterReceive (s : State) (t : Port) (st : Status) : State :=
  { s with
    out := { s.out with
      rearm := s.out.rearm.set t (s.out.rearm.get t ++ [.rearm t])
      stat := s.out.stat.set t (s.out.stat.get t ++ [.rxStatus t st]) }
    result := .status st }

/-- The frame in the hands of worker t between two sub-steps of R.WSTART: that of the Message D5 took, until it is transmitted
(70_reset_and_hazards.md R186). -/
def State.inHand (s : State) (t : Port) : List (Option (List Byte)) :=
  match s.deq.get t with
  | some ⟨_, _, _, .dequeued m⟩ => [some (frameOf m)]
  | some ⟨_, _, _, .encoded f⟩ => [some f]
  | some ⟨_, _, _, .reading⟩ => []
  | some ⟨_, _, _, .tested⟩ => []
  | some ⟨_, _, _, .copied _⟩ => []
  | none => []

/-- The frames transport t has still to be offered, in order: the one in the worker's hands, then those of the queue's Messages
(42_router.md R117). -/
def State.toSend (s : State) (t : Port) : List (Option (List Byte)) :=
  s.inHand t ++ (s.content t).map (Option.map frameOf)

/-- Sub-steps performed one after the other. -/
def runSubs : List SubStep → State → Out State
  | [], s => .next s
  | m :: ms, s => andThen (execSub m s) (runSubs ms)

/-- R.WSTART t as its sub-steps (70_reset_and_hazards.md R181, R186). -/
def wstartSubs (t : Port) : List SubStep :=
  [.wstartBegin t, .d1 t, .d2 t, .d3 t, .d4 t, .d5 t, .wstartEncode t, .wstartTransmit t]

/-- The same with D1 and D2 swapped (70_reset_and_hazards.md R181). -/
def wstartSubsSwapped (t : Port) : List SubStep :=
  [.wstartBegin t, .d2 t, .d1 t, .d3 t, .d4 t, .d5 t, .wstartEncode t, .wstartTransmit t]

/-! ### Endless runs and their fairness (70_reset_and_hazards.md R191) -/

/-- An endless run of the block: operation `μ n` takes state `σ n` to the next. The operations are atomic, as R186 allows for R.WSTART,
and each is one that a step can fetch: well-formed, or R.RX with bytes of any length. -/
def IsRun (σ : Nat → State) (μ : Nat → Instr) : Prop :=
  ∀ n, ((μ n).wf (σ n).cfg.k = true ∨ ∃ t b, μ n = .rRx t b) ∧ exec (μ n) (σ n) = .next (σ (n + 1))

/-- Weak fairness: what stays enabled is eventually taken. -/
def WeaklyFair (σ : Nat → State) (μ : Nat → Instr) (enabled : State → Bool) (taken : Instr → Prop) : Prop :=
  ∀ n, (∀ m, n ≤ m → enabled (σ m) = true) → ∃ m, n ≤ m ∧ taken (μ m)

/-- The premises of liveness claims, (a) to (d) of 70_reset_and_hazards.md R191. -/
structure Fair (σ : Nat → State) (μ : Nat → Instr) : Prop where
  /-- (a) "an R.WSTART t that stays enabled is eventually taken". -/
  start : ∀ t, WeaklyFair σ μ (fun s => s.wstartEnabled t) fun i => i = .rWstart t
  /-- (b) "an N.WAKE that stays enabled is eventually taken". -/
  wake : WeaklyFair σ μ State.wakeEnabled fun i => i = .nWake
  /-- (c) "every `TxStart` is eventually answered": a worker does not stay BUSY without an answer. -/
  answer : ∀ t, WeaklyFair σ μ (fun s => s.answerEnabled t) fun i => i = .rWdone t ∨ i = .rWfail t
  /-- (d) "ticks keep arriving while the notifier is ON". -/
  tick : WeaklyFair σ μ State.led fun i => i = .nTick

end Sys2Proof.Machine
end

