-- ==== Sys2Proof/Certificates/Slice0/Obligations.lean ====
section
/-! DEFINITION. Sys2Proof/Certificates/Slice0/Obligations.lean: the statements about the machine, for the provers. Each says which rule of spec/
it formalises. -/

open Sys2Proof Sys2Proof.Machine

/-! ### Encodings and the step -/

/-- Decoding the encoding of a well-formed instruction gives the instruction back, with the later bytes of the trace untouched, for
every K, every instruction and every value of every operand (30_encoding.md R60, R69, R70; the identifiers and the byte order of a
record are the spec's own decisions D9 and D28). -/
def Obligations.DecodeEncodeAgree : Prop :=
  ∀ (k : Nat) (i : Instr) (later : List Byte), i.wf k = true → decodeArrival k later (encode i) = .ok (i, later)

/-- Words written out from the tables of 30_encoding.md and 95_test_vectors.md decode to what they stand for: one of each family
(the identifiers are the spec's own decision D9). -/
def Obligations.SpecWordsDecode : Prop :=
  decode 7 [0x51] = .ok (.qLen .can, [])
    ∧ decode 7 [0x30, 1, 1, 2, 1, 7, 0xA0, 0, 0, 0, 0, 0, 0, 0x40]
        = .ok (.qEnq .uart ⟨1, 1, 2, 1, 7, [0xA0, 0, 0, 0, 0, 0, 0]⟩, [0x40])
    ∧ decode 7 [0x70, 0] = .ok (.cDec [], [])
    ∧ decode 7 [0x81, 3, 3, 1, 2] = .ok (.rRx .can [3, 1, 2], [])
    ∧ decode 7 [0x91] = .ok (.rWstart .can, [])
    ∧ decode 7 [0xC0, 0xD0] = .ok (.nWake, [0xD0])
    ∧ decode 7 [0xF0] = .ok (.sysReset, [])
    ∧ decodeWire 7 .can [3, 1, 2, 5, 0xAA, 0xBB, 0, 0, 0, 0, 0] = .frame .can ⟨3, 1, 2, 5, [0xAA, 0xBB, 0, 0, 0, 0, 0]⟩

/-- 30_encoding.md R71: a reserved opid at the front of the trace is refused by name, and nothing is performed; the decoder calls no
other opid reserved (the identifiers are the spec's own decision D9; the trace and its turns are the model's, log 3). -/
def Obligations.ReservedOpidsRefused : Prop :=
  (∀ (s : State) (b : Byte) (rest : List Byte), s.cfg.wf = true → (s.turns = [] ∨ ∃ ts, s.turns = .record :: ts) →
      s.trace = b :: rest → reservedOpid b = true → step s = .refused (.reservedOpid b))
    ∧ ∀ (k : Nat) (b c : Byte) (rest : List Byte), reservedOpid b = false → decode k (b :: rest) ≠ .error (.reservedOpid c)

/-- A step performs the next record of the trace: exec of the instruction its bytes decode to, at the state with those bytes taken from
the trace, and with the turn taken where the schedule names one (log 3). -/
def Obligations.StepRunsDecodedRecord : Prop :=
  ∀ (s : State) (i : Instr) (rest : List Byte), s.cfg.wf = true → decode s.cfg.k s.trace = .ok (i, rest) →
    (s.turns = [] → step s = exec i { s with trace := rest })
      ∧ ∀ ts, s.turns = .record :: ts → step s = exec i { s with trace := rest, turns := ts }

/-- A step serves what arrives on a wire and performs a scheduled sub-step: W bytes on the wire of transport t are the frame with those
bytes, any other length is R.RX t with them (10_state.md R29; log 3, log 6). -/
def Obligations.StepRunsArrivalOrSubStep : Prop :=
  ∀ (s : State) (ts : List Turn), s.cfg.wf = true →
    (∀ t f, s.turns = .wire t (Frame.bytes f) :: ts → f.wf s.cfg.k = true →
        step s = exec (.frame t f) { s with turns := ts })
      ∧ (∀ t b, s.turns = .wire t b :: ts → b.length ≠ s.cfg.w → step s = exec (.rRx t b) { s with turns := ts })
      ∧ ∀ m, s.turns = .sub m :: ts → step s = execSub m { s with turns := ts }

/-- 00_scope.md R6: a configuration that violates a constraint is refused before anything is performed, and only such a one. -/
def Obligations.IllFormedConfigurationRefused : Prop :=
  ∀ s : State, (¬ Constraints s.cfg → step s = .refused .illFormedConfig)
    ∧ (Constraints s.cfg → step s ≠ .refused .illFormedConfig)

/-- 30_encoding.md R67: the status codes, the reserved codes 5, 6, 7 which name no status, and the statuses of the Boolean results (the
numbers are the spec's own decision D8). -/
def Obligations.StatusCodeTable : Prop :=
  Status.code .ok = 0 ∧ Status.code .malformedFrame = 1 ∧ Status.code .unknownCommand = 2
    ∧ Status.code .queueFull = 3 ∧ Status.code .queueEmpty = 4
    ∧ (∀ st, Status.ofCode (Status.code st) = some st)
    ∧ (∀ c : BitVec 3, Status.ofCode c = none ↔ 5 ≤ c.toNat)
    ∧ enqStatus true = .ok ∧ enqStatus false = .queueFull
    ∧ (∀ m, deqStatus (some m) = .ok) ∧ deqStatus none = .queueEmpty

/-! ### Reset -/

/-- 10_state.md R32: the state after SYS.RESET, for every configuration: both queues empty at index 0 with N[q] slots that hold no
value, the workers IDLE, the notifier OFF, `led` 0, the output streams empty, no operation in progress (the values are the spec's own
decision D16). That the model's note of a queue's owner then says nobody is its own choice (log 7). -/
def Obligations.ResetStateHoldsSpecValues : Prop :=
  ∀ c : Config,
    let s := State.resetWith c
    (∀ q, (s.queue q).head = 0 ∧ (s.queue q).tail = 0 ∧ (s.queue q).slots.length = c.slots q
        ∧ ∀ x ∈ (s.queue q).slots, x = none)
      ∧ (∀ t, (s.worker t).wstate = .idle ∧ (s.worker t).txbuf = none ∧ (s.worker t).retry = 0)
      ∧ s.ntf.state = .off ∧ s.ntf.sig = false ∧ s.ntf.cnt = 0 ∧ s.led = false
      ∧ (∀ q, s.empty q = true ∧ s.pipeState q = .idle)
      ∧ (∀ t, s.out.tx.get t = [] ∧ s.out.rearm.get t = [] ∧ s.out.stat.get t = []) ∧ s.out.ind = []
      ∧ (∀ q, s.settled q ∧ s.owner.get q = none)
      ∧ s.cfg = c

/-- 70_reset_and_hazards.md R170: SYS.RESET is always enabled and puts every element of 10_state.md R11 and every stream to its reset
value, whatever is in progress; the parameters keep their values (the values are the spec's own decision D16). It also frees the queues:
the note of their owners, which is the model's choice (log 7), is as after reset (log 14). -/
def Obligations.SysResetClearsEverything : Prop :=
  ∀ s : State, ∃ t : State, exec .sysReset s = .next t
    ∧ (∀ q, t.queue q = ⟨List.replicate (s.cfg.slots q) none, 0, 0⟩)
    ∧ (∀ u, t.worker u = ⟨.idle, none, 0⟩)
    ∧ t.ntf = ⟨.off, false, 0⟩ ∧ t.led = false
    ∧ t.out = ⟨⟨[], []⟩, ⟨[], []⟩, [], ⟨[], []⟩⟩
    ∧ (∀ q, t.settled q)
    ∧ t.owner = ⟨none, none⟩
    ∧ t.cfg = s.cfg

/-- The model's choice, log 14: SYS.RESET leaves the rest of the schedule, which is the environment's. -/
def Obligations.SysResetKeepsSchedule : Prop :=
  ∀ s : State, ∃ t : State, exec .sysReset s = .next t ∧ t.trace = s.trace ∧ t.turns = s.turns

/-- The invariant holds after reset, for every well-formed configuration and for the one State.reset carries. -/
def Obligations.ResetMeetsInvariant : Prop :=
  (∀ c : Config, c.wf = true → (State.resetWith c).Inv) ∧ State.reset.Inv

/-- Every step keeps the invariant, in every state that meets it, whatever the schedule holds: indices in range (10_state.md R18), live
slots written (R19), the slot arrays' form, the bounds of `retry` (R22) and `ntf_cnt` (R26), a BUSY worker's frame (R21), valid
Messages in router queues (R13), the alternation of indicator events (43_notifier.md R133 d), and the agreement of every transfer in
progress with its queue (70_reset_and_hazards.md R182). -/
def Obligations.StepKeepsInvariant : Prop :=
  ∀ s s' : State, s.Inv → step s = .next s' → s'.Inv

/-- 10_state.md R19 and 60_exceptions.md R146: in a state that meets the invariant no step faults, so no operation ever reads a slot or
transmit buffer that holds no value, or an index that no slot has. -/
def Obligations.InvariantStatesNeverFault : Prop :=
  ∀ (s : State) (f : Fault), s.Inv → step s ≠ .fault f

/-! ### Frame Codec -/

/-- 40_codec.md R80: C.ENC always completes; its result is the header fields in order and then all body bytes, W bytes for a Message of
K body bytes; `body_size` is not in it and nothing else changes. -/
def Obligations.EncodeLaysOutFrame : Prop :=
  ∀ (s : State) (p sd r c z : Byte) (body : List Byte),
    exec (.cEnc ⟨p, sd, r, c, z, body⟩) s = .next { s with result := .frame (p :: sd :: r :: c :: body) }
      ∧ (body.length = s.cfg.k → (p :: sd :: r :: c :: body).length = s.cfg.w)

/-- 40_codec.md R81, R85, 30_encoding.md R63: C.DEC always completes and changes nothing but its result. The length is tested first; then
a command with no table entry is UnknownCommand; else the fields are copied, `body_size` comes from the table, and `priority` does where
byte 0 is 255. That `body_size` always comes from the table, and an unknown command is therefore always rejected, is the spec's own
decision D2. -/
def Obligations.DecodeResolvesOrRejects : Prop :=
  ∀ s : State,
    (∀ b : List Byte, b.length ≠ s.cfg.w → exec (.cDec b) s = .next { s with result := .status .malformedFrame })
      ∧ ∀ (p sd r c : Byte) (body : List Byte), body.length = s.cfg.k →
        (inDomain s.cfg c = false →
            exec (.cDec (p :: sd :: r :: c :: body)) s = .next { s with result := .status .unknownCommand })
          ∧ ∀ e, tableRead s.cfg c = some e →
            exec (.cDec (p :: sd :: r :: c :: body)) s = .next { s with
              result := .message ⟨if p.toNat = 255 then e.defaultPriority else p, sd, r, c, e.defaultBodySize, body⟩ }

/-- 40_codec.md R86: a command at or above NCMD, and one whose entry is absent, has no entry and is rejected, whatever the table's
storage holds; no default is guessed. -/
def Obligations.TableLookupBounded : Prop :=
  ∀ (s : State) (p sd r c : Byte) (body : List Byte), body.length = s.cfg.k →
    s.cfg.ncmd ≤ c.toNat ∨ s.cfg.table[c.toNat]? = some none →
    tableRead s.cfg c = none
      ∧ exec (.cDec (p :: sd :: r :: c :: body)) s = .next { s with result := .status .unknownCommand }

/-- 10_state.md R13: every Message that C.DEC returns is valid, and it has K body bytes. -/
def Obligations.DecodedMessagesValid : Prop :=
  ∀ (s t : State) (b : List Byte) (m : Message), s.cfg.wf = true → exec (.cDec b) s = .next t → t.result = .message m →
    m.priority ≠ sentinel ∧ m.bodySize ≠ sentinel ∧ m.body.length = s.cfg.k

/-- 40_codec.md R83 (a) to (c): when decoding an encoded Message gives it back, and what it gives otherwise: with a known command the
Message with the table's `body_size`, and with the table's priority too where its own is 255; with an unknown command an error. -/
def Obligations.MessageRoundTrip : Prop :=
  ∀ (c : Config) (m : Message), c.wf = true → m.wf c.k = true →
    (decodeFrame c (frameOf m) = .ok m ↔
        m.priority ≠ sentinel ∧ ∃ e, tableRead c m.command = some e ∧ m.bodySize = e.defaultBodySize)
      ∧ (∀ e, tableRead c m.command = some e → m.priority ≠ sentinel →
          decodeFrame c (frameOf m) = .ok { m with bodySize := e.defaultBodySize })
      ∧ (∀ e, tableRead c m.command = some e → m.priority = sentinel →
          decodeFrame c (frameOf m) = .ok { m with priority := e.defaultPriority, bodySize := e.defaultBodySize })
      ∧ (inDomain c m.command = false → decodeFrame c (frameOf m) = .error .unknownCommand)

/-- 40_codec.md R83 (d) and (e): a frame with a known command decodes to a Message whose encoding is the frame, byte for byte, when its
priority is no sentinel, and the frame with byte 0 replaced by the table's priority when it is. -/
def Obligations.FrameRoundTrip : Prop :=
  ∀ (c : Config) (f : List Byte), f.length = c.w → ∀ e, (f[3]?).bind (tableRead c) = some e →
    (f[0]? ≠ some sentinel → ∃ m, decodeFrame c f = .ok m ∧ frameOf m = f)
      ∧ (f[0]? = some sentinel → ∃ m, decodeFrame c f = .ok m ∧ frameOf m = f.set 0 e.defaultPriority)

/-- 40_codec.md R84: a frame of W bytes with priority 255 whose command has the entry (p, s) decodes to a Message with priority p and
body_size s, every other field copied. -/
def Obligations.SentinelResolution : Prop :=
  ∀ (c : Config) (f : List Byte) (p z : Byte), f.length = c.w → f[0]? = some sentinel →
    (f[3]?).bind (tableRead c) = some ⟨p, z⟩ →
    ∃ m, decodeFrame c f = .ok m ∧ m.priority = p ∧ m.bodySize = z
      ∧ f[1]? = some m.sender ∧ f[2]? = some m.recipient ∧ f[3]? = some m.command
      ∧ m.body.length = c.k ∧ ∀ i, i < c.k → m.body[i]? = f[4 + i]?

/-! ### Bounded Message Queue -/

/-- 41_queue.md R90, R91: Q.ISEMPTY and Q.ISFULL always complete and change nothing but the result, which they compute from one snapshot
of `head` and `tail`. -/
def Obligations.EmptyAndFullTests : Prop :=
  ∀ (s : State) (q : Port), (s.queue q).head < s.cfg.slots q → (s.queue q).tail < s.cfg.slots q →
    exec (.qIsEmpty q) s = .next { s with result := .bool (decide ((s.queue q).head = (s.queue q).tail)) }
      ∧ exec (.qIsFull q) s
          = .next { s with result := .bool (decide (((s.queue q).tail + 1) % s.cfg.slots q = (s.queue q).head)) }

/-- 41_queue.md R95: Q.LEN always completes and changes nothing but the result, `(tail - head) mod N` from one snapshot (the formula is
the spec's own decision D21). -/
def Obligations.LengthFromOneSnapshot : Prop :=
  ∀ (s : State) (q : Port), (s.queue q).head < s.cfg.slots q → (s.queue q).tail < s.cfg.slots q →
    exec (.qLen q) s
      = .next { s with result := .len (((s.queue q).tail + s.cfg.slots q - (s.queue q).head) % s.cfg.slots q) }

/-- 41_queue.md R91, R92, R95: the length is 0 exactly when empty and N - 1 exactly when full, never N, and a queue is never both empty
and full. -/
def Obligations.LengthMatchesFlags : Prop :=
  ∀ (s : State) (q : Port), s.Inv →
    s.len q ≤ s.cfg.slots q - 1
      ∧ (s.empty q = true ↔ s.len q = 0)
      ∧ (s.full q = true ↔ s.len q = s.cfg.slots q - 1)
      ∧ ¬ (s.empty q = true ∧ s.full q = true)

/-- 41_queue.md R93: Q.ENQ on a stand-alone queue completes. If full it returns false and leaves everything as it is; else it puts the
item into `slots[tail]`, advances `tail` by one modulo N and returns true. Nothing else changes; in particular `head`, every other
slot and the other queue keep their values. The item is any Message, valid or not. What the model notes of the queue's owner (log 7) is
left open here. -/
def Obligations.EnqueueOutcome : Prop :=
  ∀ (s : State) (q : Port) (m : Message), s.Inv → s.standAlone q →
    (((s.queue q).tail + 1) % s.cfg.slots q = (s.queue q).head →
        exec (.qEnq q m) s = .next { s with result := .bool false })
      ∧ (((s.queue q).tail + 1) % s.cfg.slots q ≠ (s.queue q).head →
        ∃ o, exec (.qEnq q m) s = .next { s with
          queues := s.queues.set q
            { slots := (s.queue q).slots.set (s.queue q).tail (some m)
              head := (s.queue q).head
              tail := ((s.queue q).tail + 1) % s.cfg.slots q }
          owner := o
          result := .bool true })

/-- 41_queue.md R94: Q.DEQ on a stand-alone queue completes. If empty it returns no item and leaves everything as it is; else it returns
the Message in `slots[head]` and advances `head` by one modulo N. Nothing else changes; the slot keeps its content. What the model notes
of an empty queue's owner (log 7) is left open here. -/
def Obligations.DequeueOutcome : Prop :=
  ∀ (s : State) (q : Port), s.Inv → s.standAlone q →
    ((s.queue q).head = (s.queue q).tail →
        ∃ o, exec (.qDeq q) s = .next { s with owner := o, result := .item none })
      ∧ ((s.queue q).head ≠ (s.queue q).tail →
        ∃ m, (s.queue q).slots[(s.queue q).head]? = some (some m)
          ∧ exec (.qDeq q) s = .next { s with
              queues := s.queues.set q
                { slots := (s.queue q).slots
                  head := ((s.queue q).head + 1) % s.cfg.slots q
                  tail := (s.queue q).tail }
              result := .item (some m) })

/-- 41_queue.md R96: for any sequence of successful enqueues into an empty stand-alone queue with no dequeue between them, the dequeues
that follow return the same Messages in the same order. -/
def Obligations.FifoOrder : Prop :=
  ∀ (s : State) (q : Port) (ms : List Message), s.Inv → s.standAlone q → s.empty q = true →
    (∀ m ∈ ms, m.wf s.cfg.k = true) → ms.length ≤ s.cfg.slots q - 1 →
    ∃ t, execAll (ms.map (Instr.qEnq q)) s = .next t
      ∧ ∀ j, (hj : j < ms.length) → ∃ u, execAll (List.replicate (j + 1) (.qDeq q)) t = .next u ∧ u.result = .item (some ms[j])

/-- 41_queue.md R97: from any empty stand-alone queue, at any index, exactly N - 1 consecutive enqueues succeed; the N-th fails and
leaves the machine unchanged but for its result. -/
def Obligations.CapacityIsNMinusOne : Prop :=
  ∀ (s : State) (q : Port) (ms : List Message) (m : Message), s.Inv → s.standAlone q → s.empty q = true →
    (∀ x ∈ ms, x.wf s.cfg.k = true) → ms.length = s.cfg.slots q - 1 →
    (∀ j, j < ms.length → ∃ t, execAll ((ms.take (j + 1)).map (Instr.qEnq q)) s = .next t ∧ t.result = .bool true)
      ∧ ∃ t, execAll (ms.map (Instr.qEnq q)) s = .next t ∧ exec (.qEnq q m) t = .next { t with result := .bool false }

/-- 41_queue.md R96, the general form, for every step of the machine and every queue: the content stays, or a Message is added at its end,
or its first Message is taken, or SYS.RESET empties it. So the accepted Messages leave in the order in which they came, in every
interleaving, sub-steps included. -/
def Obligations.EveryStepKeepsFifo : Prop :=
  ∀ (s s' : State) (q : Port), s.Inv → step s = .next s' →
    s'.content q = s.content q
      ∨ (∃ m, s'.content q = s.content q ++ [some m])
      ∨ (∃ m, s.content q = some m :: s'.content q)
      ∨ ((∃ s₁, fetch s = .instr .sysReset s₁) ∧ s'.content q = [])

/-- 10_state.md R16: `head` is written only by the consumer's operations and `tail` and the slots only by the producer's: of all
instructions, Q.DEQ q and R.WSTART q change `head` of queue q, and Q.ENQ q and the receive handler of transport other(q) change its
`tail` or slots, beside SYS.RESET. -/
def Obligations.SingleWriterOfIndices : Prop :=
  ∀ (i : Instr) (s s' : State) (q : Port), exec i s = .next s' → i ≠ .sysReset →
    ((s'.queue q).head ≠ (s.queue q).head → i = .qDeq q ∨ i = .rWstart q)
      ∧ ((s'.queue q).tail ≠ (s.queue q).tail ∨ (s'.queue q).slots ≠ (s.queue q).slots →
          (∃ m, i = .qEnq q m) ∨ ∃ b, Receives q.other b i)

/-- 70_reset_and_hazards.md R185: what the model refuses, in any run. A queue belongs to the party, script or router, that first starts a
Q.ENQ or Q.DEQ on it, succeed or fail, until SYS.RESET frees it (SysResetClearsEverything); no other operation or sub-step, on the
other queue for one, makes it anybody's. The other party's Q.ENQ or Q.DEQ on it is refused, as an instruction and as
sub-steps, and so is a second one before the first is finished. The refusals follow the spec's own decision D22; how a queue's owner is
known is the model's choice (log 7). -/
def Obligations.SecondProducerOrConsumerRefused : Prop :=
  ∀ (s s' : State) (q : Port),
    (s.owner.get q = some .router ∨ (∃ p, s.enq.get q = some p) →
        ∀ m, exec (.qEnq q m) s = .refused (.secondProducer q) ∧ execSub (.enqBegin q m) s = .refused (.secondProducer q))
      ∧ (s.owner.get q = some .router ∨ (∃ p, s.deq.get q = some p) →
          exec (.qDeq q) s = .refused (.secondConsumer q) ∧ execSub (.deqBegin q) s = .refused (.secondConsumer q))
      ∧ (s.owner.get q = some .script ∨ (∃ p, s.enq.get q = some p) →
          ∀ b m i, Receives q.other b i → decodeFrame s.cfg b = .ok m → exec i s = .refused (.secondProducer q))
      ∧ (s.owner.get q = some .script ∨ (∃ p, s.deq.get q = some p) → s.wstartEnabled q = true →
          exec (.rWstart q) s = .refused (.secondConsumer q) ∧ execSub (.wstartBegin q) s = .refused (.secondConsumer q))
      ∧ (∀ i, i = .qDeq q ∨ (∃ m, i = .qEnq q m) → exec i s = .next s' → s'.owner.get q = some .script)
      ∧ (∀ m, m = .deqBegin q ∨ (∃ x, m = .enqBegin q x) → execSub m s = .next s' → s'.owner.get q = some .script)
      ∧ (∀ i, i = .rWstart q ∨ (∃ b m, Receives q.other b i ∧ decodeFrame s.cfg b = .ok m) → exec i s = .next s' →
          s'.owner.get q = some .router)
      ∧ (execSub (.wstartBegin q) s = .next s' → s'.owner.get q = some .router)
      ∧ (∀ p, s.owner.get q = some p → step s = .next s' →
          s'.owner.get q = some p ∨ ∃ s₁, fetch s = .instr .sysReset s₁)
      ∧ (∀ i, i ≠ .qDeq q → (∀ m, i ≠ .qEnq q m) → i ≠ .rWstart q → (∀ b, ¬ Receives q.other b i) → i ≠ .sysReset →
          exec i s = .next s' → s'.owner.get q = s.owner.get q)
      ∧ ∀ m, m ≠ .deqBegin q → (∀ x, m ≠ .enqBegin q x) → m ≠ .wstartBegin q → execSub m s = .next s' →
          s'.owner.get q = s.owner.get q

/-- 10_state.md R19, R21: reading a slot or a transmit buffer that holds no value is a fault: the slot at `head` by Q.DEQ and by R.WSTART,
the slot at the index read by D1 by the sub-step D4, and `txbuf` by a retry of R.WFAIL. No run reaches such a read
(InvariantStatesNeverFault); this says what happens in the states that no run reaches (the spec's own decision D23; log 10). -/
def Obligations.ReadingNoValueFaults : Prop :=
  ∀ s : State,
    (∀ q, s.standAlone q → (s.queue q).head ≠ (s.queue q).tail →
        (s.queue q).slots[(s.queue q).head]? = some none → exec (.qDeq q) s = .fault .readNoValue)
      ∧ (∀ t, s.settled t → s.routed t → (s.worker t).wstate = .idle → (s.queue t).head ≠ (s.queue t).tail →
        (s.queue t).slots[(s.queue t).head]? = some none → exec (.rWstart t) s = .fault .readNoValue)
      ∧ (∀ q p x, s.deq.get q = some p → p.phase = .tested → p.h0 = some x → (s.queue q).slots[x]? = some none →
        execSub (.d4 q) s = .fault .readNoValue)
      ∧ ∀ t, (s.worker t).wstate = .busy → (s.worker t).retry < s.cfg.txRetryMax → (s.worker t).txbuf = none →
        exec (.rWfail t) s = .fault .readNoValue

/-! ### Bridge Router -/

/-- 42_router.md R111, 60_exceptions.md R150: the receive handler, invoked by R.RX or by a frame on the wire (log 6), completes. It emits
Rearm(t) and RxStatus(t, status) on every path. The statuses are tried in order: MalformedFrame, UnknownCommand, QueueFull, OK. Only
with OK is a Message stored, at `tail` of the queue of the other transport, with its sentinels resolved (`body_size` always from the
table: 30_encoding.md R63, the spec's own decision D2); with any other status nothing but the streams and the result changes. What the
model notes of the queue's owner (log 7) is left open here. -/
def Obligations.ReceiveOutcome : Prop :=
  ∀ (s : State) (t : Port) (b : List Byte) (i : Instr), s.Inv → s.routed t.other → Receives t b i →
    (b.length ≠ s.cfg.w → exec i s = .next (s.afterReceive t .malformedFrame))
      ∧ ∀ (p sd r c : Byte) (body : List Byte), b = p :: sd :: r :: c :: body → body.length = s.cfg.k →
        (tableRead s.cfg c = none → exec i s = .next (s.afterReceive t .unknownCommand))
          ∧ ∀ e, tableRead s.cfg c = some e →
            (((s.queue t.other).tail + 1) % s.cfg.slots t.other = (s.queue t.other).head →
                exec i s = .next (s.afterReceive t .queueFull))
              ∧ (((s.queue t.other).tail + 1) % s.cfg.slots t.other ≠ (s.queue t.other).head →
                ∃ o, exec i s = .next ({ s with
                  queues := s.queues.set t.other
                    { slots := (s.queue t.other).slots.set (s.queue t.other).tail
                        (some ⟨if p.toNat = 255 then e.defaultPriority else p, sd, r, c, e.defaultBodySize, body⟩)
                      head := (s.queue t.other).head
                      tail := ((s.queue t.other).tail + 1) % s.cfg.slots t.other }
                  owner := o }.afterReceive t .ok))

/-- 42_router.md R112: on every path the receive handler emits Rearm(t) exactly once and one RxStatus(t, code), the code it returns, and
no other event. -/
def Obligations.ReceiveAlwaysRearms : Prop :=
  ∀ (s : State) (t : Port) (b : List Byte) (i : Instr), s.Inv → s.routed t.other → Receives t b i →
    ∃ (u : State) (st : Status), exec i s = .next u ∧ u.result = .status st
      ∧ u.out.rearm = s.out.rearm.set t (s.out.rearm.get t ++ [.rearm t])
      ∧ u.out.stat = s.out.stat.set t (s.out.stat.get t ++ [.rxStatus t st])
      ∧ u.out.tx = s.out.tx ∧ u.out.ind = s.out.ind

/-- 42_router.md R121: whatever bytes arrive, the state after the receive handler meets every invariant, and if the status is not OK the
block is unchanged. -/
def Obligations.BadInputCorruptsNothing : Prop :=
  ∀ (s u : State) (t : Port) (b : List Byte) (i : Instr), s.Inv → Receives t b i → exec i s = .next u →
    u.Inv ∧ (u.result ≠ .status .ok → u.block = s.block ∧ u.owner = s.owner)

/-- 60_exceptions.md R151: the two receive handlers commute. In either order they complete and leave the same block and the same output
streams. -/
def Obligations.ReceiveHandlersCommute : Prop :=
  ∀ (s : State) (b b' : List Byte), s.Inv → s.routed .uart → s.routed .can →
    ∃ u v : State, execAll [.rRx .uart b, .rRx .can b'] s = .next u ∧ execAll [.rRx .can b', .rRx .uart b] s = .next v
      ∧ u.block = v.block ∧ u.out = v.out ∧ u.owner = v.owner

/-- 42_router.md R114: R.WSTART t, where it is enabled and no transfer is in progress, takes exactly the Message at `head`, puts its
frame into `txbuf`, clears `retry`, turns BUSY and emits TxStart(t, f). Nothing else changes (the spec's own decision D11). -/
def Obligations.WorkerStartOutcome : Prop :=
  ∀ (s : State) (t : Port), s.Inv → s.settled t → (s.worker t).wstate = .idle → (s.queue t).head ≠ (s.queue t).tail →
    s.owner.get t ≠ some .script →
    ∃ m, (s.queue t).slots[(s.queue t).head]? = some (some m)
      ∧ exec (.rWstart t) s = .next { s with
          queues := s.queues.set t
            { slots := (s.queue t).slots, head := ((s.queue t).head + 1) % s.cfg.slots t, tail := (s.queue t).tail }
          workers := s.workers.set t { wstate := .busy, txbuf := some (frameOf m), retry := 0 }
          out := { s.out with tx := s.out.tx.set t (s.out.tx.get t ++ [.txStart t (frameOf m)]) }
          result := .nothing }

/-- 42_router.md R115, 43_notifier.md R130: R.WDONE t of a BUSY worker sets `ntf_sig` and turns the worker IDLE; `txbuf` and `retry` keep
their values, no event is emitted and nothing else changes (the spec's own decisions D11, D13). -/
def Obligations.WorkerDoneOutcome : Prop :=
  ∀ (s : State) (t : Port), (s.worker t).wstate = .busy →
    exec (.rWdone t) s = .next { s with
      ntf := { state := s.ntf.state, sig := true, cnt := s.ntf.cnt }
      workers := s.workers.set t { wstate := .idle, txbuf := (s.worker t).txbuf, retry := (s.worker t).retry }
      result := .nothing }

/-- 42_router.md R116: R.WFAIL t of a BUSY worker transmits the same frame again while fewer than TX_RETRY_MAX retries were made, and
else drops the Message and turns IDLE with no event and no signal. Nothing else changes (the spec's own decision D12). -/
def Obligations.WorkerFailOutcome : Prop :=
  ∀ (s : State) (t : Port) (f : List Byte), (s.worker t).wstate = .busy → (s.worker t).txbuf = some f →
    ((s.worker t).retry < s.cfg.txRetryMax →
        exec (.rWfail t) s = .next { s with
          workers := s.workers.set t { wstate := .busy, txbuf := some f, retry := (s.worker t).retry + 1 }
          out := { s.out with tx := s.out.tx.set t (s.out.tx.get t ++ [.txStart t f]) }
          result := .nothing })
      ∧ (s.cfg.txRetryMax ≤ (s.worker t).retry →
        exec (.rWfail t) s = .next { s with
          workers := s.workers.set t { wstate := .idle, txbuf := some f, retry := (s.worker t).retry }
          result := .nothing })

/-- 42_router.md R114, R118, R119, 43_notifier.md R131: an operation whose enabling condition does not hold has no move: the model refuses
it by name (the model's choice of a stop, log 8; the spec's own decisions D11, D29). -/
def Obligations.DisabledOperationsHaveNoMove : Prop :=
  ∀ (s : State) (t : Port),
    ((s.worker t).wstate = .busy ∨ (s.queue t).head = (s.queue t).tail →
        exec (.rWstart t) s = .refused (.notEnabled .rWstart))
      ∧ ((s.worker t).wstate = .idle →
        exec (.rWdone t) s = .refused (.notEnabled .rWdone) ∧ exec (.rWfail t) s = .refused (.notEnabled .rWfail))
      ∧ (s.ntf.state = .on ∨ s.ntf.sig = false → exec .nWake s = .refused (.notEnabled .nWake))

/-- 42_router.md R122: the worker's transition table is complete. Of all instructions only R.WSTART t turns worker t BUSY, on a non-empty
queue, and only R.WDONE t, and R.WFAIL t with no retry left, turn it IDLE, beside SYS.RESET. 10_state.md R23: the view `pipe_state[t]` is
IDLE exactly while the queue is empty and the worker IDLE, and else MESSAGE_AVAILABLE; it leaves IDLE only by a Message stored in Q[t],
and returns to IDLE only by R.WDONE t or a dropping R.WFAIL t with no Message queued, by a script that takes the last Message of a
stand-alone queue, or by SYS.RESET. -/
def Obligations.WorkerTransitionsComplete : Prop :=
  ∀ (i : Instr) (s s' : State) (t : Port), exec i s = .next s' →
    ((s.worker t).wstate = .idle → (s'.worker t).wstate = .busy → i = .rWstart t ∧ (s.queue t).head ≠ (s.queue t).tail)
      ∧ ((s.worker t).wstate = .busy → (s'.worker t).wstate = .idle →
          i = .rWdone t ∨ (i = .rWfail t ∧ s.cfg.txRetryMax ≤ (s.worker t).retry) ∨ i = .sysReset)
      ∧ (s.pipeState t = .idle ↔ (s.queue t).head = (s.queue t).tail ∧ (s.worker t).wstate = .idle)
      ∧ (s.pipeState t = .messageAvailable ↔ (s.queue t).head ≠ (s.queue t).tail ∨ (s.worker t).wstate = .busy)
      ∧ (s.pipeState t = .idle → s'.pipeState t = .messageAvailable →
          (∃ m, i = .qEnq t m) ∨ ∃ b, Receives t.other b i ∧ s'.result = .status .ok)
      ∧ (s.pipeState t = .messageAvailable → s'.pipeState t = .idle →
          (s.empty t = true ∧ (i = .rWdone t ∨ (i = .rWfail t ∧ s.cfg.txRetryMax ≤ (s.worker t).retry)))
            ∨ i = .qDeq t ∨ i = .sysReset)

/-- 42_router.md R117, 70_reset_and_hazards.md R186, for every step, sub-steps included: the frames still to be offered to transport t,
which are the one in the worker's hands between two sub-steps of R.WSTART and then those of the queue's Messages, form a queue that TX[t]
follows. TX[t] grows only by the first of them, which leaves the queue then (R.WSTART t whole, or its last sub-step), and by the frame in
`txbuf`, when R.WFAIL t retries. A step that leaves TX[t] alone leaves them alone too, or adds the frame of a stored Message at the end,
or, on a script's own queue, takes the first; SYS.RESET restarts both. -/
def Obligations.TransmitStreamFollowsQueue : Prop :=
  ∀ (s s' : State) (t : Port), s.Inv → step s = .next s' →
    (s'.out.tx.get t = s.out.tx.get t
        ∧ (s'.toSend t = s.toSend t ∨ (∃ m, s'.toSend t = s.toSend t ++ [some (frameOf m)])
          ∨ (s.owner.get t = some .script ∧ ∃ m, s.toSend t = some (frameOf m) :: s'.toSend t)))
      ∨ (∃ s₁ m, fetch s = .instr (.rWstart t) s₁ ∧ s.content t = some m :: s'.content t
          ∧ s.toSend t = some (frameOf m) :: s'.toSend t
          ∧ s'.out.tx.get t = s.out.tx.get t ++ [.txStart t (frameOf m)])
      ∨ (∃ s₁ f, fetch s = .sub (.wstartTransmit t) s₁ ∧ s.inHand t = [some f] ∧ s.toSend t = some f :: s'.toSend t
          ∧ s'.out.tx.get t = s.out.tx.get t ++ [.txStart t f])
      ∨ (∃ s₁ f, fetch s = .instr (.rWfail t) s₁ ∧ (s.worker t).txbuf = some f ∧ s'.toSend t = s.toSend t
          ∧ s'.out.tx.get t = s.out.tx.get t ++ [.txStart t f])
      ∨ ∃ s₁, fetch s = .instr .sysReset s₁ ∧ s'.out.tx.get t = [] ∧ s'.toSend t = []

/-- 42_router.md R120, the bridge scenario, for every frame, every well-formed configuration and every state it may start from: the
sequence R.RX t, R.WSTART other(t), R.WDONE other(t), N.WAKE completes, emits exactly Rearm(t), RxStatus(t, OK), TxStart(other(t), f)
with the frame byte for byte, and Activate, and ends with the queue empty, the worker IDLE and the notifier ON. -/
def Obligations.BridgeScenario : Prop :=
  ∀ (s : State) (t : Port) (f : List Byte) (c : Byte), s.Inv → s.settled t.other → s.owner.get t.other ≠ some .script →
    s.empty t.other = true → (s.worker t.other).wstate = .idle → s.ntf.state = .off → s.ntf.sig = false →
    f.length = s.cfg.w → f[0]? ≠ some sentinel → f[3]? = some c → inDomain s.cfg c = true →
    ∃ u, execAll [.rRx t f, .rWstart t.other, .rWdone t.other, .nWake] s = .next u
      ∧ u.out = { tx := s.out.tx.set t.other (s.out.tx.get t.other ++ [.txStart t.other f])
                  rearm := s.out.rearm.set t (s.out.rearm.get t ++ [.rearm t])
                  ind := s.out.ind ++ [.activate]
                  stat := s.out.stat.set t (s.out.stat.get t ++ [.rxStatus t .ok]) }
      ∧ u.empty t.other = true ∧ (u.worker t.other).wstate = .idle ∧ u.ntf.state = .on ∧ u.led = true

/-- 42_router.md R117: a worker whose transmits are all answered by TxDone empties its queue in as many rounds as there are Messages, and
transmits their frames in queue order. -/
def Obligations.WorkerDrainsQueueInOrder : Prop :=
  ∀ (s : State) (t : Port), s.Inv → s.settled t → (s.worker t).wstate = .idle → s.owner.get t ≠ some .script →
    ∃ (ms : List Message) (u : State), s.content t = ms.map some
      ∧ execAll ((List.replicate ms.length [Instr.rWstart t, .rWdone t]).flatten) s = .next u
      ∧ u.content t = [] ∧ (u.worker t).wstate = .idle
      ∧ u.out.tx.get t = s.out.tx.get t ++ ms.map fun m => .txStart t (frameOf m)

/-! ### Notifier -/

/-- 43_notifier.md R131: N.WAKE, while OFF with a signal pending, consumes the signal, turns ON, starts the hold at HOLD_TICKS and emits
Activate. Nothing else changes (the spec's own decision D13). -/
def Obligations.WakeOutcome : Prop :=
  ∀ s : State, s.ntf.state = .off → s.ntf.sig = true →
    exec .nWake s = .next { s with
      ntf := { state := .on, sig := false, cnt := s.cfg.holdTicks }
      out := { s.out with ind := s.out.ind ++ [.activate] }
      result := .nothing }

/-- 43_notifier.md R132: N.TICK always completes. OFF: nothing happens. ON with more than one tick left: the count goes down. ON at the
last tick: a pending signal is consumed and a full hold starts with no event; else the notifier turns OFF and emits Deactivate. Nothing
else changes (the spec's own decision D13). -/
def Obligations.TickOutcome : Prop :=
  ∀ s : State,
    (s.ntf.state = .off → exec .nTick s = .next { s with result := .nothing })
      ∧ (s.ntf.state = .on → 1 < s.ntf.cnt →
          exec .nTick s = .next { s with ntf := ⟨.on, s.ntf.sig, s.ntf.cnt - 1⟩, result := .nothing })
      ∧ (s.ntf.state = .on → s.ntf.cnt ≤ 1 → s.ntf.sig = true →
          exec .nTick s = .next { s with ntf := ⟨.on, false, s.cfg.holdTicks⟩, result := .nothing })
      ∧ (s.ntf.state = .on → s.ntf.cnt ≤ 1 → s.ntf.sig = false →
          exec .nTick s = .next { s with
            ntf := ⟨.off, false, 0⟩
            out := { s.out with ind := s.out.ind ++ [.deactivate] }
            result := .nothing })

/-- 43_notifier.md R132 (a), R133 (c): from a state ON the indicator stays on for the ticks left and the tick that ends the hold turns it
off, if no signal is pending; with a signal pending it stays on for one more full hold, so for at most 2 * HOLD_TICKS ticks in all (the spec's own
decision D13). -/
def Obligations.HoldLastsItsTicks : Prop :=
  ∀ s : State, s.Inv → s.ntf.state = .on →
    let last := if s.ntf.sig then s.ntf.cnt + s.cfg.holdTicks else s.ntf.cnt
    last ≤ 2 * s.cfg.holdTicks
      ∧ (∀ j, j < last → ∃ u, execAll (List.replicate j .nTick) s = .next u ∧ u.led = true ∧ u.out = s.out)
      ∧ ∃ u, execAll (List.replicate last .nTick) s = .next u ∧ u.led = false ∧ u.ntf.sig = false
          ∧ u.out = { s.out with ind := s.out.ind ++ [.deactivate] }

/-- 43_notifier.md R134: Activate is emitted exactly at each change of `led` from 0 to 1, Deactivate exactly at each change from 1 to 0, by
every instruction but SYS.RESET, which restarts the stream at level 0. -/
def Obligations.IndicatorEventsMarkLevelChanges : Prop :=
  ∀ (i : Instr) (s s' : State), exec i s = .next s' →
    (i ≠ .sysReset →
        (s'.out.ind = s.out.ind ++ [.activate] ↔ s.led = false ∧ s'.led = true)
          ∧ (s'.out.ind = s.out.ind ++ [.deactivate] ↔ s.led = true ∧ s'.led = false)
          ∧ (s'.out.ind = s.out.ind ↔ s'.led = s.led))
      ∧ (i = .sysReset → s'.out.ind = [] ∧ s'.led = false)

/-- 42_router.md R115 (a), 43_notifier.md R130, R135: the notifier is signalled only on transmit completion, by either worker: no
instruction but R.WDONE sets `ntf_sig`. -/
def Obligations.SignalOnlyOnCompletion : Prop :=
  ∀ (i : Instr) (s s' : State), exec i s = .next s' → s.ntf.sig = false → s'.ntf.sig = true → ∃ t, i = .rWdone t

/-! ### Frames and whole-machine rules -/

/-- 40_codec.md R82, 41_queue.md R90, R91, R95: the codec and the occupancy tests write no state and emit nothing: only the result
changes. -/
def Obligations.PureOperationsFrame : Prop :=
  ∀ (i : Instr) (s s' : State),
    (∃ m, i = .cEnc m) ∨ (∃ b, i = .cDec b) ∨ (∃ q, i = .qIsEmpty q ∨ i = .qIsFull q ∨ i = .qLen q) →
    exec i s = .next s' → s' = { s with result := s'.result }

/-- The frame of Q.ENQ and Q.DEQ (41_queue.md R93, R94): the other queue, the workers, the notifier, the streams, the configuration and
the transfers in progress are unchanged; Q.ENQ q keeps `head` and every slot but `slots[tail]`, Q.DEQ q keeps `tail` and every
slot. So are what the model notes of the other queue's owner (log 7) and the rest of the schedule (log 3). -/
def Obligations.QueueOperationsFrame : Prop :=
  ∀ (i : Instr) (q : Port) (s s' : State), (∃ m, i = .qEnq q m) ∨ i = .qDeq q → exec i s = .next s' →
    s'.queue q.other = s.queue q.other ∧ s'.workers = s.workers ∧ s'.ntf = s.ntf ∧ s'.out = s.out ∧ s'.cfg = s.cfg
      ∧ s'.enq = s.enq ∧ s'.deq = s.deq
      ∧ s'.owner.get q.other = s.owner.get q.other ∧ s'.trace = s.trace ∧ s'.turns = s.turns
      ∧ ((∃ m, i = .qEnq q m) → (s'.queue q).head = (s.queue q).head
          ∧ ∀ j, j ≠ (s.queue q).tail → (s'.queue q).slots[j]? = (s.queue q).slots[j]?)
      ∧ (i = .qDeq q → (s'.queue q).tail = (s.queue q).tail ∧ (s'.queue q).slots = (s.queue q).slots)

/-- The frame of the receive handler of transport t (42_router.md R111 a, b): Q[t], the workers, the notifier, `head` and every slot but
`slots[tail]` of Q[other(t)], the streams TX and IND and those of the other transport, the configuration and the transfers in
progress are unchanged. So are what the model notes of the owner of Q[t] (log 7) and the rest of the schedule (log 3). -/
def Obligations.ReceiveFrame : Prop :=
  ∀ (i : Instr) (t : Port) (b : List Byte) (s s' : State), Receives t b i → exec i s = .next s' →
    s'.queue t = s.queue t ∧ s'.workers = s.workers ∧ s'.ntf = s.ntf ∧ s'.cfg = s.cfg ∧ s'.enq = s.enq ∧ s'.deq = s.deq
      ∧ (s'.queue t.other).head = (s.queue t.other).head
      ∧ (∀ j, j ≠ (s.queue t.other).tail → (s'.queue t.other).slots[j]? = (s.queue t.other).slots[j]?)
      ∧ s'.out.tx = s.out.tx ∧ s'.out.ind = s.out.ind
      ∧ s'.out.rearm.get t.other = s.out.rearm.get t.other ∧ s'.out.stat.get t.other = s.out.stat.get t.other
      ∧ s'.owner.get t = s.owner.get t ∧ s'.trace = s.trace ∧ s'.turns = s.turns

/-- The frame of the worker operations of transport t (42_router.md R114 to R116): the queue and worker of the other transport, every slot
and `tail` of Q[t], the streams REARM, STAT, IND and TX[other(t)], the notifier's state and count, the configuration and the
transfers in progress are unchanged; R.WDONE and R.WFAIL keep `head` too, and R.WSTART and R.WFAIL the notifier whole. So are what the
model notes of the owner of the other queue, by R.WDONE and R.WFAIL of both (log 7), and the rest of the schedule (log 3). -/
def Obligations.WorkerOperationsFrame : Prop :=
  ∀ (i : Instr) (t : Port) (s s' : State), i = .rWstart t ∨ i = .rWdone t ∨ i = .rWfail t → exec i s = .next s' →
    s'.queue t.other = s.queue t.other ∧ s'.worker t.other = s.worker t.other
      ∧ (s'.queue t).slots = (s.queue t).slots ∧ (s'.queue t).tail = (s.queue t).tail
      ∧ (i ≠ .rWstart t → (s'.queue t).head = (s.queue t).head)
      ∧ s'.out.rearm = s.out.rearm ∧ s'.out.stat = s.out.stat ∧ s'.out.ind = s.out.ind
      ∧ s'.out.tx.get t.other = s.out.tx.get t.other
      ∧ s'.ntf.state = s.ntf.state ∧ s'.ntf.cnt = s.ntf.cnt ∧ (i ≠ .rWdone t → s'.ntf = s.ntf)
      ∧ s'.cfg = s.cfg ∧ s'.enq = s.enq ∧ s'.deq = s.deq
      ∧ s'.owner.get t.other = s.owner.get t.other ∧ (i ≠ .rWstart t → s'.owner = s.owner)
      ∧ s'.trace = s.trace ∧ s'.turns = s.turns

/-- 00_scope.md R6, 10_state.md R14, R17, 70_reset_and_hazards.md R171: no step changes a parameter or the table, and none resizes a slot
array. -/
def Obligations.ParametersNeverChange : Prop :=
  ∀ s s' : State, step s = .next s' →
    s'.cfg = s.cfg ∧ (s.Inv → ∀ q, (s'.queue q).slots.length = (s.queue q).slots.length)

/-- 70_reset_and_hazards.md R192: in a quiescent state no operation is enabled but N.TICK, which changes nothing of the block, and those
triggered by new input: R.RX, SYS.RESET, and what a script or DIAG asks of the queues and the codec. Of the sub-steps only the starts of a
script's Q.ENQ and Q.DEQ, which are such input, are not refused (the spec's own decision D17; the stops by name: logs 8 and 9). -/
def Obligations.QuiescentStatesAreStill : Prop :=
  ∀ s : State, s.quiescent = true →
    (∀ t, exec (.rWstart t) s = .refused (.notEnabled .rWstart)
        ∧ exec (.rWdone t) s = .refused (.notEnabled .rWdone)
        ∧ exec (.rWfail t) s = .refused (.notEnabled .rWfail))
      ∧ exec .nWake s = .refused (.notEnabled .nWake)
      ∧ (∀ t, execSub (.wstartBegin t) s = .refused (.notEnabled .rWstart))
      ∧ (∀ m, (∀ t, m ≠ .wstartBegin t) → (∀ q x, m ≠ .enqBegin q x) → (∀ q, m ≠ .deqBegin q) →
          execSub m s = .refused .subStepOutOfOrder)
      ∧ exec .nTick s = .next { s with result := .nothing }

/-! ### Liveness -/

/-- 70_reset_and_hazards.md R191, for endless runs of whole operations. That a run has only whole operations, and no sub-steps, is the
model's choice (log 20, Sys2Proof.Machine.IsRun), which R186 allows: "R.WSTART as a whole may be treated as atomic at its D5". On the
premises of weak fairness (a) to (d), in such a run that is not reset from n on, every Message in a router queue is eventually
transmitted, the (j+1)-th by the (j+1)-th R.WSTART from n on (so a received frame is eventually transmitted); a pending signal
eventually has the indicator on; and an indicator that is on eventually goes off, if no further transmit completes (the spec's own
decision D25). -/
def Obligations.FairRunsMakeProgress : Prop :=
  ∀ (σ : Nat → State) (μ : Nat → Instr) (n : Nat), IsRun σ μ → Fair σ μ → (σ n).Inv → (∀ i, n ≤ i → μ i ≠ .sysReset) →
    (∀ (t : Port) (j : Nat) (m : Message), (σ n).settled t → (σ n).owner.get t = some .router →
        ((σ n).content t)[j]? = some (some m) →
        ∃ i, n ≤ i ∧ μ i = .rWstart t
          ∧ ((List.range' n (i - n)).countP fun x => decide (μ x = .rWstart t)) = j
          ∧ (σ (i + 1)).out.tx.get t = (σ i).out.tx.get t ++ [.txStart t (frameOf m)])
      ∧ ((σ n).ntf.sig = true → ∃ i, n ≤ i ∧ (σ i).led = true)
      ∧ ((σ n).led = true → (∀ i t, n ≤ i → μ i ≠ .rWdone t) → ∃ i, n ≤ i ∧ (σ i).led = false)

/-! ### Sub-steps -/

/-- 70_reset_and_hazards.md R180 to R182: in any interleaving, E5 does to its queue exactly what the atomic Q.ENQ of the item does there
and then, and returns true; D5 what the atomic Q.DEQ does, and hands over the same item: a script's returns it, the worker's keeps it for
C.ENC. No other sub-step changes an index or the content of any queue. At E2 the index read tells exactly whether the queue is full at
that instant, at D2 whether it is empty, and E3 and D3 go by the values read: they end the operation with false, or with no item, or let
it go on. So the failed operations take effect at E2 and D2. -/
def Obligations.SubStepsRefineAtomicOperations : Prop :=
  ∀ (m : SubStep) (s s' : State), s.Inv → execSub m s = .next s' →
    (∀ q, m = .e5 q → ∃ p, s.enq.get q = some p ∧ (s.queue q).enqueue (s.cfg.slots q) p.item = .ok (true, s'.queue q)
        ∧ s'.content q = s.content q ++ [some p.item] ∧ s'.result = .bool true ∧ s'.enq.get q = none)
      ∧ (∀ q, m = .d5 q → ∃ p item, s.deq.get q = some p
        ∧ (s.queue q).dequeue (s.cfg.slots q) = .ok (some item, s'.queue q) ∧ s.content q = some item :: s'.content q
        ∧ (p.who = .script → s'.result = .item (some item) ∧ s'.deq.get q = none)
        ∧ (p.who = .router → s'.deq.get q = some { p with phase := .dequeued item }))
      ∧ (∀ q, m = .e2 q → ∃ p h, s'.enq.get q = some p ∧ p.h = some h
        ∧ (inc (s.queue q).tail (s.cfg.slots q) = h ↔ s.full q = true))
      ∧ (∀ q, m = .d2 q → ∃ p y, s'.deq.get q = some p ∧ p.t = some y ∧ ((s.queue q).head = y ↔ s.empty q = true))
      ∧ (∀ q, m = .e3 q → ∃ p t0 h, s.enq.get q = some p ∧ p.t0 = some t0 ∧ p.h = some h ∧ t0 = (s.queue q).tail
        ∧ (inc t0 (s.cfg.slots q) = h → s'.result = .bool false ∧ s'.enq.get q = none)
        ∧ (inc t0 (s.cfg.slots q) ≠ h → s'.enq.get q = some { p with phase := .tested }))
      ∧ (∀ q, m = .d3 q → ∃ p h0 y, s.deq.get q = some p ∧ p.h0 = some h0 ∧ p.t = some y ∧ h0 = (s.queue q).head
        ∧ (h0 = y → p.who = .script ∧ s'.result = .item none ∧ s'.deq.get q = none)
        ∧ (h0 ≠ y → s'.deq.get q = some { p with phase := .tested }))
      ∧ ∀ q, m ≠ .e5 q → m ≠ .d5 q →
        (s'.queue q).head = (s.queue q).head ∧ (s'.queue q).tail = (s.queue q).tail ∧ s'.content q = s.content q

/-- 70_reset_and_hazards.md R180, R181: undisturbed, the sub-steps of Q.ENQ and Q.DEQ, with E1 and E2 or D1 and D2 in either order, do
exactly what the atomic operations do, on a queue with room, a full one, one with a Message and an empty one. -/
def Obligations.UndisturbedSubStepsEqualAtomic : Prop :=
  ∀ (s : State) (q : Port) (m : Message), s.Inv → s.standAlone q → m.wf s.cfg.k = true →
    (s.full q = false →
        runSubs [.enqBegin q m, .e1 q, .e2 q, .e3 q, .e4 q, .e5 q] s = exec (.qEnq q m) s
          ∧ runSubs [.enqBegin q m, .e2 q, .e1 q, .e3 q, .e4 q, .e5 q] s = exec (.qEnq q m) s)
      ∧ (s.full q = true →
        runSubs [.enqBegin q m, .e1 q, .e2 q, .e3 q] s = exec (.qEnq q m) s
          ∧ runSubs [.enqBegin q m, .e2 q, .e1 q, .e3 q] s = exec (.qEnq q m) s)
      ∧ (s.empty q = false →
        runSubs [.deqBegin q, .d1 q, .d2 q, .d3 q, .d4 q, .d5 q] s = exec (.qDeq q) s
          ∧ runSubs [.deqBegin q, .d2 q, .d1 q, .d3 q, .d4 q, .d5 q] s = exec (.qDeq q) s)
      ∧ (s.empty q = true →
        runSubs [.deqBegin q, .d1 q, .d2 q, .d3 q] s = exec (.qDeq q) s
          ∧ runSubs [.deqBegin q, .d2 q, .d1 q, .d3 q] s = exec (.qDeq q) s)

/-- 70_reset_and_hazards.md R186: undisturbed, the sub-steps of R.WSTART t, with D1 and D2 in either order, do exactly what the atomic
operation does. -/
def Obligations.UndisturbedWorkerStartEqualsAtomic : Prop :=
  ∀ (s : State) (t : Port), s.Inv → s.settled t → s.owner.get t ≠ some .script → s.wstartEnabled t = true →
    runSubs (wstartSubs t) s = exec (.rWstart t) s
      ∧ runSubs (wstartSubsSwapped t) s = exec (.rWstart t) s

/-- 70_reset_and_hazards.md R186: a receive handler of either transport, invoked by R.RX or by a frame on the wire, that cuts into worker
t's R.WSTART between any two of its sub-steps, with D1 and D2 in either order, has the effect of running wholly before R.WSTART, if it
comes before D5, and wholly after it otherwise. Only what the last operation returned may differ. -/
def Obligations.InterruptInsideWorkerStart : Prop :=
  ∀ (s : State) (t r : Port) (b : List Byte) (i : Instr) (subs : List SubStep) (k : Nat), s.Inv → s.settled t → s.routed t →
    s.wstartEnabled t = true → s.routed r.other → Receives r b i →
    subs = wstartSubs t ∨ subs = wstartSubsSwapped t → k ≤ 8 →
    ∃ u v w : State, runSubs (subs.take k) s = .next u ∧ exec i u = .next v ∧ runSubs (subs.drop k) v = .next w
      ∧ ∃ x : State, execAll (if k ≤ 5 then [i, .rWstart t] else [.rWstart t, i]) s = .next x
          ∧ w.block = x.block ∧ w.out = x.out ∧ w.owner = x.owner

/-- 70_reset_and_hazards.md R183: a sub-step that is not the next one of its operation is refused: E1 to E5, D1 to D5, and the two that
follow D5 in R.WSTART. So the slot write comes before the write of `tail`, and the slot read before the write of `head`. That such a
sub-step is a stop with a name is the model's choice (log 9); the rule only says that the order is kept. -/
def Obligations.SubStepOrderKept : Prop :=
  ∀ (s : State) (q : Port),
    ((∀ p, s.enq.get q = some p → p.phase ≠ .reading ∨ p.t0 ≠ none) → execSub (.e1 q) s = .refused .subStepOutOfOrder)
      ∧ ((∀ p, s.enq.get q = some p → p.phase ≠ .reading ∨ p.h ≠ none) → execSub (.e2 q) s = .refused .subStepOutOfOrder)
      ∧ ((∀ p, s.enq.get q = some p → p.phase ≠ .reading ∨ p.t0 = none ∨ p.h = none) →
          execSub (.e3 q) s = .refused .subStepOutOfOrder)
      ∧ ((∀ p, s.enq.get q = some p → p.phase ≠ .tested) → execSub (.e4 q) s = .refused .subStepOutOfOrder)
      ∧ ((∀ p, s.enq.get q = some p → p.phase ≠ .written) → execSub (.e5 q) s = .refused .subStepOutOfOrder)
      ∧ ((∀ p, s.deq.get q = some p → p.phase ≠ .reading ∨ p.h0 ≠ none) → execSub (.d1 q) s = .refused .subStepOutOfOrder)
      ∧ ((∀ p, s.deq.get q = some p → p.phase ≠ .reading ∨ p.t ≠ none) → execSub (.d2 q) s = .refused .subStepOutOfOrder)
      ∧ ((∀ p, s.deq.get q = some p → p.phase ≠ .reading ∨ p.h0 = none ∨ p.t = none) →
          execSub (.d3 q) s = .refused .subStepOutOfOrder)
      ∧ ((∀ p, s.deq.get q = some p → p.phase ≠ .tested) → execSub (.d4 q) s = .refused .subStepOutOfOrder)
      ∧ ((∀ p, s.deq.get q = some p → ∀ m, p.phase ≠ .copied m) → execSub (.d5 q) s = .refused .subStepOutOfOrder)
      ∧ ((∀ p, s.deq.get q = some p → ∀ m, p.phase ≠ .dequeued m) →
          execSub (.wstartEncode q) s = .refused .subStepOutOfOrder)
      ∧ ((∀ p, s.deq.get q = some p → ∀ f, p.phase ≠ .encoded f) →
          execSub (.wstartTransmit q) s = .refused .subStepOutOfOrder)
end

