-- ==== Sys2Proof/Laws/State.lean ====
section
/-! SUPPORT. Sys2Proof/Laws/State.lean: one lemma for each field and each update of the state, and the laws of pairs, accessors and
streams. -/

namespace Sys2Proof

@[simp] theorem Port.other_other (t : Port) : t.other.other = t := by cases t <;> rfl

@[simp] theorem Port.other_ne (t : Port) : t.other ≠ t := by cases t <;> decide

@[simp] theorem Port.ne_other (t : Port) : t ≠ t.other := by cases t <;> decide

theorem Port.eq_or_eq_other (t u : Port) : u = t ∨ u = t.other := by cases t <;> cases u <;> decide

@[simp] theorem Pair.get_set_self {α : Type} (p : Pair α) (t : Port) (a : α) : (p.set t a).get t = a := by
  cases t <;> rfl

theorem Pair.get_set_of_ne {α : Type} (p : Pair α) {t u : Port} (a : α) (h : u ≠ t) : (p.set t a).get u = p.get u := by
  cases t <;> cases u <;> first | rfl | exact absurd rfl h

@[simp] theorem Pair.get_set_other {α : Type} (p : Pair α) (t : Port) (a : α) : (p.set t a).get t.other = p.get t.other :=
  p.get_set_of_ne a (Port.other_ne t)

@[simp] theorem Pair.get_other_set {α : Type} (p : Pair α) (t : Port) (a : α) : (p.set t.other a).get t = p.get t :=
  p.get_set_of_ne a (Port.ne_other t)

theorem Pair.get_set {α : Type} (p : Pair α) (t u : Port) (a : α) :
    (p.set t a).get u = if u = t then a else p.get u := by
  cases t <;> cases u <;> rfl

@[simp] theorem Pair.set_get {α : Type} (p : Pair α) (t : Port) : p.set t (p.get t) = p := by cases t <;> rfl

@[simp] theorem Pair.set_set {α : Type} (p : Pair α) (t : Port) (a b : α) : (p.set t a).set t b = p.set t b := by
  cases t <;> rfl

theorem Pair.set_comm {α : Type} (p : Pair α) (t : Port) (a b : α) :
    (p.set t a).set t.other b = (p.set t.other b).set t a := by
  cases t <;> rfl

theorem Pair.ext_get {α : Type} {p r : Pair α} (h : ∀ t, p.get t = r.get t) : p = r := by
  cases p
  cases r
  have hu := h .uart
  have hc := h .can
  simp only [Pair.get] at hu hc
  rw [hu, hc]

@[simp] theorem Pair.get_mk_same {α : Type} (a : α) (t : Port) : (Pair.mk a a).get t = a := by cases t <;> rfl

end Sys2Proof

namespace Sys2Proof.Machine

/-! ### setQueue -/

@[simp] theorem State.setQueue_cfg (s : State) (q : Port) (x : Queue) : (s.setQueue q x).cfg = s.cfg := rfl
@[simp] theorem State.setQueue_queues (s : State) (q : Port) (x : Queue) : (s.setQueue q x).queues = s.queues.set q x := rfl
@[simp] theorem State.setQueue_workers (s : State) (q : Port) (x : Queue) : (s.setQueue q x).workers = s.workers := rfl
@[simp] theorem State.setQueue_ntf (s : State) (q : Port) (x : Queue) : (s.setQueue q x).ntf = s.ntf := rfl
@[simp] theorem State.setQueue_out (s : State) (q : Port) (x : Queue) : (s.setQueue q x).out = s.out := rfl
@[simp] theorem State.setQueue_enq (s : State) (q : Port) (x : Queue) : (s.setQueue q x).enq = s.enq := rfl
@[simp] theorem State.setQueue_deq (s : State) (q : Port) (x : Queue) : (s.setQueue q x).deq = s.deq := rfl
@[simp] theorem State.setQueue_owner (s : State) (q : Port) (x : Queue) : (s.setQueue q x).owner = s.owner := rfl
@[simp] theorem State.setQueue_result (s : State) (q : Port) (x : Queue) : (s.setQueue q x).result = s.result := rfl
@[simp] theorem State.setQueue_trace (s : State) (q : Port) (x : Queue) : (s.setQueue q x).trace = s.trace := rfl
@[simp] theorem State.setQueue_turns (s : State) (q : Port) (x : Queue) : (s.setQueue q x).turns = s.turns := rfl
@[simp] theorem State.setQueue_worker (s : State) (q : Port) (x : Queue) (v : Port) : (s.setQueue q x).worker v = s.worker v := rfl

/-! ### setWorker -/

@[simp] theorem State.setWorker_cfg (s : State) (t : Port) (x : Worker) : (s.setWorker t x).cfg = s.cfg := rfl
@[simp] theorem State.setWorker_queues (s : State) (t : Port) (x : Worker) : (s.setWorker t x).queues = s.queues := rfl
@[simp] theorem State.setWorker_workers (s : State) (t : Port) (x : Worker) : (s.setWorker t x).workers = s.workers.set t x := rfl
@[simp] theorem State.setWorker_ntf (s : State) (t : Port) (x : Worker) : (s.setWorker t x).ntf = s.ntf := rfl
@[simp] theorem State.setWorker_out (s : State) (t : Port) (x : Worker) : (s.setWorker t x).out = s.out := rfl
@[simp] theorem State.setWorker_enq (s : State) (t : Port) (x : Worker) : (s.setWorker t x).enq = s.enq := rfl
@[simp] theorem State.setWorker_deq (s : State) (t : Port) (x : Worker) : (s.setWorker t x).deq = s.deq := rfl
@[simp] theorem State.setWorker_owner (s : State) (t : Port) (x : Worker) : (s.setWorker t x).owner = s.owner := rfl
@[simp] theorem State.setWorker_result (s : State) (t : Port) (x : Worker) : (s.setWorker t x).result = s.result := rfl
@[simp] theorem State.setWorker_trace (s : State) (t : Port) (x : Worker) : (s.setWorker t x).trace = s.trace := rfl
@[simp] theorem State.setWorker_turns (s : State) (t : Port) (x : Worker) : (s.setWorker t x).turns = s.turns := rfl
@[simp] theorem State.setWorker_queue (s : State) (t : Port) (x : Worker) (v : Port) : (s.setWorker t x).queue v = s.queue v := rfl

/-! ### setNtf -/

@[simp] theorem State.setNtf_cfg (s : State) (x : Notifier) : (s.setNtf x).cfg = s.cfg := rfl
@[simp] theorem State.setNtf_queues (s : State) (x : Notifier) : (s.setNtf x).queues = s.queues := rfl
@[simp] theorem State.setNtf_workers (s : State) (x : Notifier) : (s.setNtf x).workers = s.workers := rfl
@[simp] theorem State.setNtf_ntf (s : State) (x : Notifier) : (s.setNtf x).ntf = x := rfl
@[simp] theorem State.setNtf_out (s : State) (x : Notifier) : (s.setNtf x).out = s.out := rfl
@[simp] theorem State.setNtf_enq (s : State) (x : Notifier) : (s.setNtf x).enq = s.enq := rfl
@[simp] theorem State.setNtf_deq (s : State) (x : Notifier) : (s.setNtf x).deq = s.deq := rfl
@[simp] theorem State.setNtf_owner (s : State) (x : Notifier) : (s.setNtf x).owner = s.owner := rfl
@[simp] theorem State.setNtf_result (s : State) (x : Notifier) : (s.setNtf x).result = s.result := rfl
@[simp] theorem State.setNtf_trace (s : State) (x : Notifier) : (s.setNtf x).trace = s.trace := rfl
@[simp] theorem State.setNtf_turns (s : State) (x : Notifier) : (s.setNtf x).turns = s.turns := rfl
@[simp] theorem State.setNtf_queue (s : State) (x : Notifier) (v : Port) : (s.setNtf x).queue v = s.queue v := rfl
@[simp] theorem State.setNtf_worker (s : State) (x : Notifier) (v : Port) : (s.setNtf x).worker v = s.worker v := rfl

/-! ### setEnq -/

@[simp] theorem State.setEnq_cfg (s : State) (q : Port) (x : Option EnqProgress) : (s.setEnq q x).cfg = s.cfg := rfl
@[simp] theorem State.setEnq_queues (s : State) (q : Port) (x : Option EnqProgress) : (s.setEnq q x).queues = s.queues := rfl
@[simp] theorem State.setEnq_workers (s : State) (q : Port) (x : Option EnqProgress) : (s.setEnq q x).workers = s.workers := rfl
@[simp] theorem State.setEnq_ntf (s : State) (q : Port) (x : Option EnqProgress) : (s.setEnq q x).ntf = s.ntf := rfl
@[simp] theorem State.setEnq_out (s : State) (q : Port) (x : Option EnqProgress) : (s.setEnq q x).out = s.out := rfl
@[simp] theorem State.setEnq_enq (s : State) (q : Port) (x : Option EnqProgress) : (s.setEnq q x).enq = s.enq.set q x := rfl
@[simp] theorem State.setEnq_deq (s : State) (q : Port) (x : Option EnqProgress) : (s.setEnq q x).deq = s.deq := rfl
@[simp] theorem State.setEnq_owner (s : State) (q : Port) (x : Option EnqProgress) : (s.setEnq q x).owner = s.owner := rfl
@[simp] theorem State.setEnq_result (s : State) (q : Port) (x : Option EnqProgress) : (s.setEnq q x).result = s.result := rfl
@[simp] theorem State.setEnq_trace (s : State) (q : Port) (x : Option EnqProgress) : (s.setEnq q x).trace = s.trace := rfl
@[simp] theorem State.setEnq_turns (s : State) (q : Port) (x : Option EnqProgress) : (s.setEnq q x).turns = s.turns := rfl
@[simp] theorem State.setEnq_queue (s : State) (q : Port) (x : Option EnqProgress) (v : Port) : (s.setEnq q x).queue v = s.queue v := rfl
@[simp] theorem State.setEnq_worker (s : State) (q : Port) (x : Option EnqProgress) (v : Port) : (s.setEnq q x).worker v = s.worker v := rfl

/-! ### setDeq -/

@[simp] theorem State.setDeq_cfg (s : State) (q : Port) (x : Option DeqProgress) : (s.setDeq q x).cfg = s.cfg := rfl
@[simp] theorem State.setDeq_queues (s : State) (q : Port) (x : Option DeqProgress) : (s.setDeq q x).queues = s.queues := rfl
@[simp] theorem State.setDeq_workers (s : State) (q : Port) (x : Option DeqProgress) : (s.setDeq q x).workers = s.workers := rfl
@[simp] theorem State.setDeq_ntf (s : State) (q : Port) (x : Option DeqProgress) : (s.setDeq q x).ntf = s.ntf := rfl
@[simp] theorem State.setDeq_out (s : State) (q : Port) (x : Option DeqProgress) : (s.setDeq q x).out = s.out := rfl
@[simp] theorem State.setDeq_enq (s : State) (q : Port) (x : Option DeqProgress) : (s.setDeq q x).enq = s.enq := rfl
@[simp] theorem State.setDeq_deq (s : State) (q : Port) (x : Option DeqProgress) : (s.setDeq q x).deq = s.deq.set q x := rfl
@[simp] theorem State.setDeq_owner (s : State) (q : Port) (x : Option DeqProgress) : (s.setDeq q x).owner = s.owner := rfl
@[simp] theorem State.setDeq_result (s : State) (q : Port) (x : Option DeqProgress) : (s.setDeq q x).result = s.result := rfl
@[simp] theorem State.setDeq_trace (s : State) (q : Port) (x : Option DeqProgress) : (s.setDeq q x).trace = s.trace := rfl
@[simp] theorem State.setDeq_turns (s : State) (q : Port) (x : Option DeqProgress) : (s.setDeq q x).turns = s.turns := rfl
@[simp] theorem State.setDeq_queue (s : State) (q : Port) (x : Option DeqProgress) (v : Port) : (s.setDeq q x).queue v = s.queue v := rfl
@[simp] theorem State.setDeq_worker (s : State) (q : Port) (x : Option DeqProgress) (v : Port) : (s.setDeq q x).worker v = s.worker v := rfl

/-! ### claim -/

@[simp] theorem State.claim_cfg (s : State) (q : Port) (p : Party) : (s.claim q p).cfg = s.cfg := rfl
@[simp] theorem State.claim_queues (s : State) (q : Port) (p : Party) : (s.claim q p).queues = s.queues := rfl
@[simp] theorem State.claim_workers (s : State) (q : Port) (p : Party) : (s.claim q p).workers = s.workers := rfl
@[simp] theorem State.claim_ntf (s : State) (q : Port) (p : Party) : (s.claim q p).ntf = s.ntf := rfl
@[simp] theorem State.claim_out (s : State) (q : Port) (p : Party) : (s.claim q p).out = s.out := rfl
@[simp] theorem State.claim_enq (s : State) (q : Port) (p : Party) : (s.claim q p).enq = s.enq := rfl
@[simp] theorem State.claim_deq (s : State) (q : Port) (p : Party) : (s.claim q p).deq = s.deq := rfl
@[simp] theorem State.claim_owner (s : State) (q : Port) (p : Party) : (s.claim q p).owner = s.owner.set q (some p) := rfl
@[simp] theorem State.claim_result (s : State) (q : Port) (p : Party) : (s.claim q p).result = s.result := rfl
@[simp] theorem State.claim_trace (s : State) (q : Port) (p : Party) : (s.claim q p).trace = s.trace := rfl
@[simp] theorem State.claim_turns (s : State) (q : Port) (p : Party) : (s.claim q p).turns = s.turns := rfl
@[simp] theorem State.claim_queue (s : State) (q : Port) (p : Party) (v : Port) : (s.claim q p).queue v = s.queue v := rfl
@[simp] theorem State.claim_worker (s : State) (q : Port) (p : Party) (v : Port) : (s.claim q p).worker v = s.worker v := rfl

/-! ### ret -/

@[simp] theorem State.ret_cfg (s : State) (r : Result) : (s.ret r).cfg = s.cfg := rfl
@[simp] theorem State.ret_queues (s : State) (r : Result) : (s.ret r).queues = s.queues := rfl
@[simp] theorem State.ret_workers (s : State) (r : Result) : (s.ret r).workers = s.workers := rfl
@[simp] theorem State.ret_ntf (s : State) (r : Result) : (s.ret r).ntf = s.ntf := rfl
@[simp] theorem State.ret_out (s : State) (r : Result) : (s.ret r).out = s.out := rfl
@[simp] theorem State.ret_enq (s : State) (r : Result) : (s.ret r).enq = s.enq := rfl
@[simp] theorem State.ret_deq (s : State) (r : Result) : (s.ret r).deq = s.deq := rfl
@[simp] theorem State.ret_owner (s : State) (r : Result) : (s.ret r).owner = s.owner := rfl
@[simp] theorem State.ret_result (s : State) (r : Result) : (s.ret r).result = r := rfl
@[simp] theorem State.ret_trace (s : State) (r : Result) : (s.ret r).trace = s.trace := rfl
@[simp] theorem State.ret_turns (s : State) (r : Result) : (s.ret r).turns = s.turns := rfl
@[simp] theorem State.ret_queue (s : State) (r : Result) (v : Port) : (s.ret r).queue v = s.queue v := rfl
@[simp] theorem State.ret_worker (s : State) (r : Result) (v : Port) : (s.ret r).worker v = s.worker v := rfl

/-! ### emit -/

@[simp] theorem State.emit_cfg (s : State) (e : Event) : (s.emit e).cfg = s.cfg := rfl
@[simp] theorem State.emit_queues (s : State) (e : Event) : (s.emit e).queues = s.queues := rfl
@[simp] theorem State.emit_workers (s : State) (e : Event) : (s.emit e).workers = s.workers := rfl
@[simp] theorem State.emit_ntf (s : State) (e : Event) : (s.emit e).ntf = s.ntf := rfl
@[simp] theorem State.emit_out (s : State) (e : Event) : (s.emit e).out = s.out.emit e := rfl
@[simp] theorem State.emit_enq (s : State) (e : Event) : (s.emit e).enq = s.enq := rfl
@[simp] theorem State.emit_deq (s : State) (e : Event) : (s.emit e).deq = s.deq := rfl
@[simp] theorem State.emit_owner (s : State) (e : Event) : (s.emit e).owner = s.owner := rfl
@[simp] theorem State.emit_result (s : State) (e : Event) : (s.emit e).result = s.result := rfl
@[simp] theorem State.emit_trace (s : State) (e : Event) : (s.emit e).trace = s.trace := rfl
@[simp] theorem State.emit_turns (s : State) (e : Event) : (s.emit e).turns = s.turns := rfl
@[simp] theorem State.emit_queue (s : State) (e : Event) (v : Port) : (s.emit e).queue v = s.queue v := rfl
@[simp] theorem State.emit_worker (s : State) (e : Event) (v : Port) : (s.emit e).worker v = s.worker v := rfl

/-! ### queue and worker through their own updates -/

@[simp] theorem State.setQueue_queue_self (s : State) (q : Port) (x : Queue) : (s.setQueue q x).queue q = x :=
  Pair.get_set_self _ _ _

@[simp] theorem State.setQueue_queue_other (s : State) (q : Port) (x : Queue) :
    (s.setQueue q x).queue q.other = s.queue q.other :=
  Pair.get_set_other _ _ _

@[simp] theorem State.setQueue_queue (s : State) (q : Port) : s.setQueue q (s.queue q) = s := by
  cases q <;> rfl

/-- Claiming for the party that has the queue already changes nothing. -/
theorem State.claim_of_owner {s : State} {q : Port} {p : Party} (h : s.owner.get q = some p) : s.claim q p = s := by
  cases q <;> simp only [Pair.get] at h <;> simp [State.claim, Pair.set, ← h]

theorem State.setQueue_queue_of_ne (s : State) {q u : Port} (x : Queue) (h : u ≠ q) : (s.setQueue q x).queue u = s.queue u :=
  Pair.get_set_of_ne _ _ h

@[simp] theorem State.setWorker_worker_self (s : State) (t : Port) (x : Worker) : (s.setWorker t x).worker t = x :=
  Pair.get_set_self _ _ _

@[simp] theorem State.setWorker_worker_other (s : State) (t : Port) (x : Worker) :
    (s.setWorker t x).worker t.other = s.worker t.other :=
  Pair.get_set_other _ _ _

theorem State.setWorker_worker_of_ne (s : State) {t u : Port} (x : Worker) (h : u ≠ t) :
    (s.setWorker t x).worker u = s.worker u :=
  Pair.get_set_of_ne _ _ h

/-! ### streams: each event goes to its own stream and to no other (10_state.md R28) -/

@[simp] theorem Streams.emit_txStart_tx (o : Streams) (t : Port) (f : List Byte) :
    (o.emit (.txStart t f)).tx = o.tx.set t (o.tx.get t ++ [.txStart t f]) := rfl
@[simp] theorem Streams.emit_txStart_rearm (o : Streams) (t : Port) (f : List Byte) : (o.emit (.txStart t f)).rearm = o.rearm := rfl
@[simp] theorem Streams.emit_txStart_ind (o : Streams) (t : Port) (f : List Byte) : (o.emit (.txStart t f)).ind = o.ind := rfl
@[simp] theorem Streams.emit_txStart_stat (o : Streams) (t : Port) (f : List Byte) : (o.emit (.txStart t f)).stat = o.stat := rfl
@[simp] theorem Streams.emit_rearm_tx (o : Streams) (t : Port) : (o.emit (.rearm t)).tx = o.tx := rfl
@[simp] theorem Streams.emit_rearm_rearm (o : Streams) (t : Port) :
    (o.emit (.rearm t)).rearm = o.rearm.set t (o.rearm.get t ++ [.rearm t]) := rfl
@[simp] theorem Streams.emit_rearm_ind (o : Streams) (t : Port) : (o.emit (.rearm t)).ind = o.ind := rfl
@[simp] theorem Streams.emit_rearm_stat (o : Streams) (t : Port) : (o.emit (.rearm t)).stat = o.stat := rfl
@[simp] theorem Streams.emit_activate_tx (o : Streams) : (o.emit .activate).tx = o.tx := rfl
@[simp] theorem Streams.emit_activate_rearm (o : Streams) : (o.emit .activate).rearm = o.rearm := rfl
@[simp] theorem Streams.emit_activate_ind (o : Streams) : (o.emit .activate).ind = o.ind ++ [.activate] := rfl
@[simp] theorem Streams.emit_activate_stat (o : Streams) : (o.emit .activate).stat = o.stat := rfl
@[simp] theorem Streams.emit_deactivate_tx (o : Streams) : (o.emit .deactivate).tx = o.tx := rfl
@[simp] theorem Streams.emit_deactivate_rearm (o : Streams) : (o.emit .deactivate).rearm = o.rearm := rfl
@[simp] theorem Streams.emit_deactivate_ind (o : Streams) : (o.emit .deactivate).ind = o.ind ++ [.deactivate] := rfl
@[simp] theorem Streams.emit_deactivate_stat (o : Streams) : (o.emit .deactivate).stat = o.stat := rfl
@[simp] theorem Streams.emit_rxStatus_tx (o : Streams) (t : Port) (st : Status) : (o.emit (.rxStatus t st)).tx = o.tx := rfl
@[simp] theorem Streams.emit_rxStatus_rearm (o : Streams) (t : Port) (st : Status) :
    (o.emit (.rxStatus t st)).rearm = o.rearm := rfl
@[simp] theorem Streams.emit_rxStatus_ind (o : Streams) (t : Port) (st : Status) : (o.emit (.rxStatus t st)).ind = o.ind := rfl
@[simp] theorem Streams.emit_rxStatus_stat (o : Streams) (t : Port) (st : Status) :
    (o.emit (.rxStatus t st)).stat = o.stat.set t (o.stat.get t ++ [.rxStatus t st]) := rfl

/-! ### outcomes -/

@[simp] theorem andThen_next {α β : Type} (a : α) (f : α → Out β) : andThen (.next a) f = f a := rfl
@[simp] theorem andThen_fault {α β : Type} (r : Fault) (f : α → Out β) : andThen (.fault r : Out α) f = .fault r := rfl
@[simp] theorem andThen_refused {α β : Type} (r : Refusal) (f : α → Out β) :
    andThen (.refused r : Out α) f = .refused r := rfl

/-- A composed operation ends in a next state exactly through a next state of its first part. -/
theorem andThen_eq_next {α β : Type} {x : Out α} {f : α → Out β} {b : β} (h : andThen x f = .next b) :
    ∃ a, x = .next a ∧ f a = .next b := by
  cases x with
  | next a => exact ⟨a, rfl, h⟩
  | fault r => cases h
  | refused r => cases h

end Sys2Proof.Machine
end

