-- ==== Sys2Proof/Laws/Codec.lean ====
section
/-! SUPPORT. Sys2Proof/Laws/Codec.lean: what the table lookup and the two codec functions can answer (40_codec.md R80 to R86). -/

namespace Sys2Proof

theorem Entry.wf_iff {e : Entry} : e.wf = true ↔ e.defaultPriority ≠ sentinel ∧ e.defaultBodySize ≠ sentinel := by
  simp [Entry.wf]

/-- The constraints of 00_scope.md R6, one by one. -/
theorem Config.wf_iff {c : Config} : c.wf = true ↔
    1 ≤ c.k ∧ c.w ≤ 255 ∧ 2 ≤ c.n.uart ∧ 2 ≤ c.n.can ∧ 1 ≤ c.ncmd ∧ c.ncmd ≤ 256 ∧ c.table.length = c.ncmd
      ∧ (∀ e, some e ∈ c.table → e.wf = true) ∧ 1 ≤ c.holdTicks := by
  simp only [Config.wf, Bool.and_eq_true, decide_eq_true_eq, List.all_eq_true, and_assoc]
  have key : (∀ x ∈ c.table, Option.all Entry.wf x = true) ↔ ∀ e, some e ∈ c.table → e.wf = true := by
    constructor
    · intro h e he
      simpa using h _ he
    · intro h o ho
      cases o with
      | none => rfl
      | some e => simpa using h e ho
  rw [key]

theorem Config.wf.two_le_slots {c : Config} (h : c.wf = true) (q : Port) : 2 ≤ c.slots q := by
  obtain ⟨_, _, hu, hc, _⟩ := Config.wf_iff.mp h
  cases q
  · exact hu
  · exact hc

theorem Config.wf.one_le_holdTicks {c : Config} (h : c.wf = true) : 1 ≤ c.holdTicks :=
  (Config.wf_iff.mp h).2.2.2.2.2.2.2.2

end Sys2Proof

namespace Sys2Proof.Machine

theorem tableRead_of_ge {c : Config} {b : Byte} (h : c.ncmd ≤ b.toNat) : tableRead c b = none := by
  simp [tableRead, Nat.not_lt.mpr h]

theorem tableRead_mem {c : Config} {b : Byte} {e : Entry} (h : tableRead c b = some e) : some e ∈ c.table := by
  unfold tableRead at h
  split at h
  · rw [Option.join_eq_some_iff] at h
    exact List.mem_of_getElem? h
  · cases h

/-- A present entry never holds the sentinel (00_scope.md R6). -/
theorem tableRead_wf {c : Config} {b : Byte} {e : Entry} (hc : c.wf = true) (h : tableRead c b = some e) : e.wf = true :=
  (Config.wf_iff.mp hc).2.2.2.2.2.2.2.1 e (tableRead_mem h)

theorem inDomain_iff {c : Config} {b : Byte} : inDomain c b = true ↔ ∃ e, tableRead c b = some e := by
  simp [inDomain, Option.isSome_iff_exists]

@[simp] theorem frameOf_length (m : Message) : (frameOf m).length = m.body.length + 4 := rfl

@[simp] theorem Frame.bytes_length (f : Frame) : f.bytes.length = f.body.length + 4 := rfl

theorem frameOf_length_of_wf {k : Nat} {m : Message} (h : m.wf k = true) : (frameOf m).length = 4 + k := by
  have : m.body.length = k := by simpa [Message.wf] using h
  simp only [frameOf_length]
  omega

theorem decodeFrame_of_length {c : Config} {b : List Byte} (h : b.length ≠ c.w) :
    decodeFrame c b = .error .malformedFrame := by
  simp [decodeFrame, h]

/-- A sequence of W bytes, as its four header bytes and its body. -/
theorem bytes_of_length {c : Config} {b : List Byte} (h : b.length = c.w) :
    ∃ p s r cmd body, b = p :: s :: r :: cmd :: body ∧ body.length = c.k := by
  simp only [Config.w] at h
  match b, h with
  | p :: s :: r :: cmd :: body, h =>
    refine ⟨p, s, r, cmd, body, rfl, ?_⟩
    simp only [List.length_cons] at h
    omega
  | [_, _, _], h => simp at h; omega
  | [_, _], h => simp at h; omega
  | [_], h => simp at h; omega
  | [], h => simp at h; omega

/-- C.DEC of a frame whose command has an entry (40_codec.md R81, the simplified form). -/
theorem decodeFrame_of_entry {c : Config} {p s r cmd : Byte} {body : List Byte} {e : Entry} (hb : body.length = c.k)
    (he : tableRead c cmd = some e) :
    decodeFrame c (p :: s :: r :: cmd :: body)
      = .ok ⟨if p = sentinel then e.defaultPriority else p, s, r, cmd, e.defaultBodySize, body⟩ := by
  have hl : (p :: s :: r :: cmd :: body).length = c.w := by simp only [List.length_cons, Config.w]; omega
  simp only [decodeFrame, hl, if_true, rawCopy, resolve, he]

/-- C.DEC of a frame whose command has no entry (40_codec.md R81). -/
theorem decodeFrame_of_absent {c : Config} {p s r cmd : Byte} {body : List Byte} (hb : body.length = c.k)
    (he : tableRead c cmd = none) : decodeFrame c (p :: s :: r :: cmd :: body) = .error .unknownCommand := by
  have hl : (p :: s :: r :: cmd :: body).length = c.w := by simp only [List.length_cons, Config.w]; omega
  simp only [decodeFrame, hl, if_true, rawCopy, resolve, he]
  simp

/-- Everything C.DEC can answer with a Message. -/
theorem decodeFrame_eq_ok {c : Config} {b : List Byte} {m : Message} (h : decodeFrame c b = .ok m) :
    ∃ p s r cmd body e, b = p :: s :: r :: cmd :: body ∧ body.length = c.k ∧ tableRead c cmd = some e
      ∧ m = ⟨if p = sentinel then e.defaultPriority else p, s, r, cmd, e.defaultBodySize, body⟩ := by
  by_cases hl : b.length = c.w
  · obtain ⟨p, s, r, cmd, body, rfl, hb⟩ := bytes_of_length hl
    cases he : tableRead c cmd with
    | none => simp [decodeFrame_of_absent hb he] at h
    | some e =>
      rw [decodeFrame_of_entry hb he] at h
      cases h
      exact ⟨p, s, r, cmd, body, e, rfl, hb, he, rfl⟩
  · simp [decodeFrame_of_length hl] at h

/-- Everything C.DEC can answer with an error kind (40_codec.md R81). -/
theorem decodeFrame_eq_error {c : Config} {b : List Byte} {st : Status} (h : decodeFrame c b = .error st) :
    (st = .malformedFrame ∧ b.length ≠ c.w)
      ∨ (st = .unknownCommand ∧ ∃ p s r cmd body, b = p :: s :: r :: cmd :: body ∧ body.length = c.k ∧ tableRead c cmd = none) := by
  by_cases hl : b.length = c.w
  · obtain ⟨p, s, r, cmd, body, rfl, hb⟩ := bytes_of_length hl
    cases he : tableRead c cmd with
    | none =>
      rw [decodeFrame_of_absent hb he] at h
      cases h
      exact .inr ⟨rfl, p, s, r, cmd, body, rfl, hb, he⟩
    | some e => simp [decodeFrame_of_entry hb he] at h
  · rw [decodeFrame_of_length hl] at h
    cases h
    exact .inl ⟨rfl, hl⟩

theorem decodeFrame_wf {c : Config} {b : List Byte} {m : Message} (h : decodeFrame c b = .ok m) : m.wf c.k = true := by
  obtain ⟨_, _, _, _, _, _, rfl, hb, _, rfl⟩ := decodeFrame_eq_ok h
  simpa [Message.wf] using hb

/-- "Every Message returned as Ok by C.DEC is valid" (10_state.md R13). -/
theorem decodeFrame_valid {c : Config} {b : List Byte} {m : Message} (hc : c.wf = true) (h : decodeFrame c b = .ok m) :
    m.valid = true := by
  obtain ⟨p, _, _, _, _, e, rfl, _, he, rfl⟩ := decodeFrame_eq_ok h
  obtain ⟨hp, hz⟩ := Entry.wf_iff.mp (tableRead_wf hc he)
  simp only [Message.valid, Bool.and_eq_true, bne_iff_ne]
  refine ⟨?_, hz⟩
  split
  · exact hp
  · assumption

end Sys2Proof.Machine
end

