-- ==== Sys2Proof/Laws/Queue.lean ====
section
/-! SUPPORT. Sys2Proof/Laws/Queue.lean: the index arithmetic, the slot arrays, and what Q.ENQ and Q.DEQ do to one queue
(41_queue.md R90 to R101). -/

namespace Sys2Proof.Machine

/-! ### indices (41_queue.md R101) -/

theorem inc_lt {i n : Nat} (h : i < n) : inc i n < n := by
  unfold inc
  split <;> omega

theorem inc_eq_mod {i n : Nat} (h : i < n) : inc i n = (i + 1) % n := by
  unfold inc
  split
  · simp [*]
  · rw [Nat.mod_eq_of_lt (by omega)]

theorem occupancy_lt {n h t : Nat} (hh : h < n) (ht : t < n) : occupancy n h t < n := by
  unfold occupancy
  split <;> omega

theorem occupancy_eq_mod {n h t : Nat} (hh : h < n) (ht : t < n) : occupancy n h t = (t + n - h) % n := by
  unfold occupancy
  split
  · rw [show t + n - h = (t - h) + n by omega, Nat.add_mod_right, Nat.mod_eq_of_lt (by omega)]
  · rw [Nat.mod_eq_of_lt (by omega)]

theorem occupancy_eq_zero {n h t : Nat} (hh : h < n) : occupancy n h t = 0 ↔ h = t := by
  unfold occupancy
  split <;> omega

theorem occupancy_full {n h t : Nat} (hh : h < n) (ht : t < n) : occupancy n h t + 1 = n ↔ inc t n = h := by
  unfold occupancy inc
  split <;> split <;> omega

theorem occupancy_inc_tail {n h t : Nat} (hh : h < n) (_ht : t < n) (hne : inc t n ≠ h) :
    occupancy n h (inc t n) = occupancy n h t + 1 := by
  unfold inc at hne ⊢
  unfold occupancy
  by_cases hw : t + 1 = n
  · rw [if_pos hw] at hne ⊢
    rw [if_neg (by omega), if_pos (by omega)]
    omega
  · rw [if_neg hw] at hne ⊢
    by_cases hle : h ≤ t
    · rw [if_pos hle, if_pos (by omega)]
      omega
    · rw [if_neg hle, if_neg (by omega)]
      omega

theorem occupancy_inc_head {n h t : Nat} (hh : h < n) (ht : t < n) (hne : h ≠ t) :
    occupancy n h t = occupancy n (inc h n) t + 1 := by
  unfold inc occupancy
  by_cases hw : h + 1 = n
  · rw [if_pos hw, if_neg (by omega), if_pos (by omega)]
    omega
  · rw [if_neg hw]
    by_cases hle : h ≤ t
    · rw [if_pos hle, if_pos (by omega)]
      omega
    · rw [if_neg hle, if_neg (by omega)]
      omega

theorem add_occupancy_mod {n h t : Nat} (hh : h < n) (ht : t < n) : (h + occupancy n h t) % n = t := by
  unfold occupancy
  split
  · rw [show h + (t - h) = t by omega, Nat.mod_eq_of_lt ht]
  · rw [show h + (t + n - h) = t + n by omega, Nat.add_mod_right, Nat.mod_eq_of_lt ht]

theorem add_mod_ne_tail {n h t j : Nat} (hh : h < n) (ht : t < n) (hj : j < occupancy n h t) : (h + j) % n ≠ t := by
  intro he
  have hocc : occupancy n h t < n := occupancy_lt hh ht
  unfold occupancy at hj hocc
  by_cases hlt : h + j < n
  · rw [Nat.mod_eq_of_lt hlt] at he
    split at hj <;> omega
  · rw [show h + j = (h + j - n) + n by omega, Nat.add_mod_right, Nat.mod_eq_of_lt (by split at hj <;> omega)] at he
    split at hj <;> omega

theorem inc_add_mod {n h j : Nat} (hh : h < n) : (inc h n + j) % n = (h + (j + 1)) % n := by
  rw [inc_eq_mod hh, Nat.mod_add_mod]
  congr 1
  omega

/-! ### slot arrays -/

theorem slotWrite_ok {slots : Memory} {i : Nat} (m : Message) (h : i < slots.length) :
    slotWrite slots i m = .ok (slots.set i (some m)) := by
  simp [slotWrite, h]

theorem slotWrite_eq_ok {slots slots' : Memory} {i : Nat} {m : Message} (h : slotWrite slots i m = .ok slots') :
    i < slots.length ∧ slots' = slots.set i (some m) := by
  unfold slotWrite at h
  split at h
  · exact ⟨‹_›, by injection h with h; exact h.symm⟩
  · cases h

theorem slotRead_eq_ok {slots : Memory} {i : Nat} {m : Message} :
    slotRead slots i = .ok m ↔ slots[i]? = some (some m) := by
  unfold slotRead
  split <;> simp_all

theorem Memory.wf_iff {n k : Nat} {slots : Memory} :
    Memory.wf n k slots = true ↔ slots.length = n ∧ ∀ m, some m ∈ slots → m.wf k = true := by
  simp only [Memory.wf, Bool.and_eq_true, beq_iff_eq, List.all_eq_true]
  constructor
  · rintro ⟨hl, ha⟩
    exact ⟨hl, fun m hm => by simpa using ha (some m) hm⟩
  · rintro ⟨hl, ha⟩
    refine ⟨hl, fun o ho => ?_⟩
    cases o with
    | none => rfl
    | some m => simpa using ha m ho

/-- Writing a Message keeps the form of a slot array. -/
theorem Memory.wf_set {n k i : Nat} {slots : Memory} {m : Message} (h : Memory.wf n k slots = true) (hm : m.wf k = true) :
    Memory.wf n k (slots.set i (some m)) = true := by
  rw [Memory.wf_iff] at *
  refine ⟨by simpa using h.1, fun x hx => ?_⟩
  rcases List.mem_or_eq_of_mem_set hx with hx | hx
  · exact h.2 x hx
  · cases hx
    exact hm

theorem Memory.wf_replicate (n k : Nat) : Memory.wf n k (List.replicate n none) = true := by
  rw [Memory.wf_iff]
  exact ⟨by simp, fun m hm => by simp [List.mem_replicate] at hm⟩

/-! ### what Q.ENQ and Q.DEQ can do (41_queue.md R93, R94) -/

theorem Queue.isEmpty_iff {q : Queue} : q.isEmpty = true ↔ q.head = q.tail := by simp [Queue.isEmpty]

theorem Queue.isFull_iff {n : Nat} {q : Queue} : q.isFull n = true ↔ inc q.tail n = q.head := by simp [Queue.isFull]

theorem Queue.enqueue_of_full {n : Nat} {m : Message} {q : Queue} (h : inc q.tail n = q.head) :
    q.enqueue n m = .ok (false, q) := by
  simp [Queue.enqueue, Queue.isFull_iff.mpr h]

theorem Queue.enqueue_of_room {n : Nat} {m : Message} {q : Queue} (h : inc q.tail n ≠ q.head) (hs : q.tail < q.slots.length) :
    q.enqueue n m = .ok (true, { q with slots := q.slots.set q.tail (some m), tail := inc q.tail n }) := by
  have hf : ¬ q.isFull n = true := fun hf => h (Queue.isFull_iff.mp hf)
  simp [Queue.enqueue, hf, slotWrite_ok m hs]

/-- Everything Q.ENQ can do to a queue. -/
theorem Queue.enqueue_cases {n : Nat} {m : Message} {q q' : Queue} {b : Bool} (h : q.enqueue n m = .ok (b, q')) :
    (b = false ∧ q' = q ∧ inc q.tail n = q.head)
      ∨ (b = true ∧ inc q.tail n ≠ q.head ∧ q.tail < q.slots.length
          ∧ q' = { q with slots := q.slots.set q.tail (some m), tail := inc q.tail n }) := by
  unfold Queue.enqueue at h
  split at h
  · rename_i hf
    cases h
    exact .inl ⟨rfl, rfl, Queue.isFull_iff.mp hf⟩
  · rename_i hf
    split at h
    · rename_i slots hw
      cases h
      obtain ⟨hl, rfl⟩ := slotWrite_eq_ok hw
      exact .inr ⟨rfl, fun he => hf (Queue.isFull_iff.mpr he), hl, rfl⟩
    · cases h

theorem Queue.dequeue_of_empty {n : Nat} {q : Queue} (h : q.head = q.tail) : q.dequeue n = .ok (none, q) := by
  simp [Queue.dequeue, Queue.isEmpty_iff.mpr h]

theorem Queue.dequeue_of_item {n : Nat} {m : Message} {q : Queue} (h : q.head ≠ q.tail)
    (hs : q.slots[q.head]? = some (some m)) : q.dequeue n = .ok (some m, { q with head := inc q.head n }) := by
  have he : ¬ q.isEmpty = true := fun he => h (Queue.isEmpty_iff.mp he)
  simp [Queue.dequeue, he, slotRead_eq_ok.mpr hs]

/-- Everything Q.DEQ can do to a queue. -/
theorem Queue.dequeue_cases {n : Nat} {o : Option Message} {q q' : Queue} (h : q.dequeue n = .ok (o, q')) :
    (o = none ∧ q' = q ∧ q.head = q.tail)
      ∨ (∃ m, o = some m ∧ q.head ≠ q.tail ∧ q.slots[q.head]? = some (some m) ∧ q' = { q with head := inc q.head n }) := by
  unfold Queue.dequeue at h
  split at h
  · rename_i he
    cases h
    exact .inl ⟨rfl, rfl, Queue.isEmpty_iff.mp he⟩
  · rename_i he
    split at h
    · rename_i m hr
      cases h
      exact .inr ⟨m, rfl, fun hh => he (Queue.isEmpty_iff.mpr hh), slotRead_eq_ok.mp hr, rfl⟩
    · cases h

/-! ### the invariant and the content -/

/-- Every operation on a slot array keeps its form (10_state.md R12, R15): SlotWrite, Q.ENQ and Q.DEQ. -/
theorem slotWrite_keeps_wf {n k i : Nat} {slots slots' : Memory} {m : Message} (h : Memory.wf n k slots = true)
    (hm : m.wf k = true) (he : slotWrite slots i m = .ok slots') : Memory.wf n k slots' = true := by
  obtain ⟨_, rfl⟩ := slotWrite_eq_ok he
  exact Memory.wf_set h hm

theorem Queue.enqueue_keeps_wf {n k : Nat} {m : Message} {q q' : Queue} {b : Bool} (h : Memory.wf n k q.slots = true)
    (hm : m.wf k = true) (he : q.enqueue n m = .ok (b, q')) : Memory.wf n k q'.slots = true := by
  obtain ⟨_, rfl, _⟩ | ⟨_, _, _, rfl⟩ := Queue.enqueue_cases he
  · exact h
  · exact Memory.wf_set h hm

theorem Queue.dequeue_keeps_wf {n k : Nat} {o : Option Message} {q q' : Queue} (h : Memory.wf n k q.slots = true)
    (he : q.dequeue n = .ok (o, q')) : Memory.wf n k q'.slots = true := by
  obtain ⟨_, rfl, _⟩ | ⟨_, _, _, _, rfl⟩ := Queue.dequeue_cases he <;> exact h

/-- The slot arrays have their form after reset, for every configuration. -/
theorem resetWith_slots_wf (c : Config) (q : Port) :
    Memory.wf (c.slots q) c.k ((State.resetWith c).queue q).slots = true := by
  cases q <;> exact Memory.wf_replicate _ _

theorem Queue.Inv.len_lt {n k : Nat} {q : Queue} (h : q.Inv n k) : q.len n < n := occupancy_lt h.head_lt h.tail_lt

theorem Queue.Inv.slots_length {n k : Nat} {q : Queue} (h : q.Inv n k) : q.slots.length = n :=
  (Memory.wf_iff.mp h.slots_wf).1

theorem Queue.Inv.tail_lt_slots {n k : Nat} {q : Queue} (h : q.Inv n k) : q.tail < q.slots.length := by
  rw [h.slots_length]
  exact h.tail_lt

theorem Queue.Inv.head_written {n k : Nat} {q : Queue} (h : q.Inv n k) (hne : q.head ≠ q.tail) :
    ∃ m, q.slots[q.head]? = some (some m) := by
  have hpos : 0 < q.len n := Nat.pos_of_ne_zero fun h0 => hne ((occupancy_eq_zero h.head_lt).mp h0)
  simpa [Nat.mod_eq_of_lt h.head_lt] using h.live_written 0 hpos

theorem Queue.Inv.slot_wf {n k i : Nat} {q : Queue} {m : Message} (h : q.Inv n k) (hs : q.slots[i]? = some (some m)) :
    m.wf k = true :=
  (Memory.wf_iff.mp h.slots_wf).2 m (List.mem_of_getElem? hs)

theorem Queue.reset_inv {n : Nat} (k : Nat) (hn : 2 ≤ n) : (Queue.reset n).Inv n k where
  head_lt := by simp only [Queue.reset]; omega
  tail_lt := by simp only [Queue.reset]; omega
  slots_wf := Memory.wf_replicate n k
  live_written := by
    intro j hj
    simp [Queue.reset, Queue.len, occupancy] at hj

/-- A slot outside the live region may be written without harm (70_reset_and_hazards.md R182 i). -/
theorem Queue.Inv.write_tail {n k : Nat} {q : Queue} {m : Message} (h : q.Inv n k) (hm : m.wf k = true) :
    ({ q with slots := q.slots.set q.tail (some m) } : Queue).Inv n k where
  head_lt := h.head_lt
  tail_lt := h.tail_lt
  slots_wf := Memory.wf_set h.slots_wf hm
  live_written := by
    intro j hj
    have hne := add_mod_ne_tail h.head_lt h.tail_lt hj
    obtain ⟨x, hx⟩ := h.live_written j hj
    exact ⟨x, by simpa [List.getElem?_set_ne (Ne.symm hne)] using hx⟩

/-- Advancing `tail` over a written slot. -/
theorem Queue.Inv.advance_tail {n k : Nat} {q : Queue} {m : Message} (h : q.Inv n k) (hne : inc q.tail n ≠ q.head)
    (hs : q.slots[q.tail]? = some (some m)) : ({ q with tail := inc q.tail n } : Queue).Inv n k where
  head_lt := h.head_lt
  tail_lt := inc_lt h.tail_lt
  slots_wf := h.slots_wf
  live_written := by
    intro j hj
    have hl : ({ q with tail := inc q.tail n } : Queue).len n = q.len n + 1 := occupancy_inc_tail h.head_lt h.tail_lt hne
    by_cases hj' : j < q.len n
    · exact h.live_written j hj'
    · have : j = q.len n := by omega
      subst this
      exact ⟨m, by simpa [Queue.len, add_occupancy_mod h.head_lt h.tail_lt] using hs⟩

/-- Advancing `head` over a live slot. -/
theorem Queue.Inv.advance_head {n k : Nat} {q : Queue} (h : q.Inv n k) (hne : q.head ≠ q.tail) :
    ({ q with head := inc q.head n } : Queue).Inv n k where
  head_lt := inc_lt h.head_lt
  tail_lt := h.tail_lt
  slots_wf := h.slots_wf
  live_written := by
    intro j hj
    have hl : q.len n = ({ q with head := inc q.head n } : Queue).len n + 1 := occupancy_inc_head h.head_lt h.tail_lt hne
    obtain ⟨m, hm⟩ := h.live_written (j + 1) (by omega)
    exact ⟨m, by simpa [inc_add_mod h.head_lt] using hm⟩

@[simp] theorem Queue.content_length (n : Nat) (q : Queue) : (q.content n).length = q.len n := by simp [Queue.content]

theorem Queue.content_reset (n : Nat) : (Queue.reset n).content n = [] := by
  simp [Queue.content, Queue.len, occupancy, Queue.reset]

theorem Queue.content_of_empty {n : Nat} {q : Queue} (h : q.head = q.tail) : q.content n = [] := by
  simp [Queue.content, Queue.len, occupancy, h]

/-- A slot outside the live region does not show in the content. -/
theorem Queue.content_write_tail {n k : Nat} {q : Queue} (h : q.Inv n k) (o : Option Message) :
    ({ q with slots := q.slots.set q.tail o } : Queue).content n = q.content n := by
  simp only [Queue.content, Queue.len]
  refine List.map_congr_left fun j hj => ?_
  have hne := add_mod_ne_tail h.head_lt h.tail_lt (List.mem_range.mp hj)
  rw [List.getElem?_set_ne (Ne.symm hne)]

/-- Advancing `tail` over a written slot adds its Message at the end (41_queue.md R96). -/
theorem Queue.content_advance_tail {n k : Nat} {q : Queue} {m : Message} (h : q.Inv n k) (hne : inc q.tail n ≠ q.head)
    (hs : q.slots[q.tail]? = some (some m)) :
    ({ q with tail := inc q.tail n } : Queue).content n = q.content n ++ [some m] := by
  simp only [Queue.content, Queue.len]
  rw [occupancy_inc_tail h.head_lt h.tail_lt hne, List.range_succ, List.map_append]
  simp [add_occupancy_mod h.head_lt h.tail_lt, hs]

/-- Advancing `head` over a live slot takes its Message from the front (41_queue.md R96). -/
theorem Queue.content_advance_head {n k : Nat} {q : Queue} {m : Message} (h : q.Inv n k) (hne : q.head ≠ q.tail)
    (hs : q.slots[q.head]? = some (some m)) :
    q.content n = some m :: ({ q with head := inc q.head n } : Queue).content n := by
  simp only [Queue.content, Queue.len]
  rw [occupancy_inc_head h.head_lt h.tail_lt hne, List.range_succ_eq_map, List.map_cons, List.map_map]
  simp [Nat.mod_eq_of_lt h.head_lt, hs, Function.comp_def, inc_add_mod h.head_lt]

end Sys2Proof.Machine
end

