-- ==== Sys2Proof/Laws/Ops.lean ====
section
/-! SUPPORT. Sys2Proof/Laws/Ops.lean: one lemma for each shared operation of the agents, which says everything it can do. -/

namespace Sys2Proof.Machine

/-- Everything a Q.ENQ by a party can do, if it answers next. -/
theorem enqueueAs_cases {who : Party} {q : Port} {m : Message} {s s' : State} {b : Bool}
    (h : enqueueAs who q m s = .next (b, s')) :
    s.producerBarred who q = false ∧
      ((b = false ∧ s' = s.claim q who ∧ inc (s.queue q).tail (s.cfg.slots q) = (s.queue q).head)
        ∨ (b = true ∧ inc (s.queue q).tail (s.cfg.slots q) ≠ (s.queue q).head ∧ (s.queue q).tail < (s.queue q).slots.length
            ∧ s' = (s.setQueue q { s.queue q with
                  slots := (s.queue q).slots.set (s.queue q).tail (some m)
                  tail := inc (s.queue q).tail (s.cfg.slots q) }).claim q who)) := by
  unfold enqueueAs at h
  split at h
  · cases h
  · rename_i hb
    refine ⟨by simpa using hb, ?_⟩
    split at h
    · rename_i ok x he
      cases h
      obtain ⟨rfl, rfl, hf⟩ | ⟨rfl, hne, hlt, rfl⟩ := Queue.enqueue_cases he
      · exact .inl ⟨rfl, by simp, hf⟩
      · exact .inr ⟨rfl, hne, hlt, rfl⟩
    · cases h

theorem enqueueAs_of_barred {who : Party} {q : Port} {m : Message} {s : State} (h : s.producerBarred who q = true) :
    enqueueAs who q m s = .refused (.secondProducer q) := by
  simp [enqueueAs, h]

theorem enqueueAs_of_full {who : Party} {q : Port} {m : Message} {s : State} (hb : s.producerBarred who q = false)
    (h : inc (s.queue q).tail (s.cfg.slots q) = (s.queue q).head) : enqueueAs who q m s = .next (false, s.claim q who) := by
  simp [enqueueAs, hb, Queue.enqueue_of_full h]

theorem enqueueAs_of_room {who : Party} {q : Port} {m : Message} {s : State} (hb : s.producerBarred who q = false)
    (h : inc (s.queue q).tail (s.cfg.slots q) ≠ (s.queue q).head) (hs : (s.queue q).tail < (s.queue q).slots.length) :
    enqueueAs who q m s = .next (true, (s.setQueue q { s.queue q with
      slots := (s.queue q).slots.set (s.queue q).tail (some m)
      tail := inc (s.queue q).tail (s.cfg.slots q) }).claim q who) := by
  simp [enqueueAs, hb, Queue.enqueue_of_room h hs]

/-- Everything a Q.DEQ by a party can do, if it answers next. -/
theorem dequeueAs_cases {who : Party} {q : Port} {s s' : State} {o : Option Message}
    (h : dequeueAs who q s = .next (o, s')) :
    s.consumerBarred who q = false ∧
      ((o = none ∧ s' = s.claim q who ∧ (s.queue q).head = (s.queue q).tail)
        ∨ ∃ m, o = some m ∧ (s.queue q).head ≠ (s.queue q).tail ∧ (s.queue q).slots[(s.queue q).head]? = some (some m)
            ∧ s' = (s.setQueue q { s.queue q with head := inc (s.queue q).head (s.cfg.slots q) }).claim q who) := by
  unfold dequeueAs at h
  split at h
  · cases h
  · rename_i hb
    refine ⟨by simpa using hb, ?_⟩
    split at h
    · rename_i item x he
      cases h
      obtain ⟨rfl, rfl, hf⟩ | ⟨m, rfl, hne, hs, rfl⟩ := Queue.dequeue_cases he
      · exact .inl ⟨rfl, by simp, hf⟩
      · exact .inr ⟨m, rfl, hne, hs, rfl⟩
    · cases h

theorem dequeueAs_of_barred {who : Party} {q : Port} {s : State} (h : s.consumerBarred who q = true) :
    dequeueAs who q s = .refused (.secondConsumer q) := by
  simp [dequeueAs, h]

theorem dequeueAs_of_empty {who : Party} {q : Port} {s : State} (hb : s.consumerBarred who q = false)
    (h : (s.queue q).head = (s.queue q).tail) : dequeueAs who q s = .next (none, s.claim q who) := by
  simp [dequeueAs, hb, Queue.dequeue_of_empty h]

theorem dequeueAs_of_item {who : Party} {q : Port} {m : Message} {s : State} (hb : s.consumerBarred who q = false)
    (h : (s.queue q).head ≠ (s.queue q).tail) (hs : (s.queue q).slots[(s.queue q).head]? = some (some m)) :
    dequeueAs who q s
      = .next (some m, (s.setQueue q { s.queue q with head := inc (s.queue q).head (s.cfg.slots q) }).claim q who) := by
  simp [dequeueAs, hb, Queue.dequeue_of_item h hs]

/-! ### who may use a queue -/

theorem State.foreign_eq_false {who : Party} {q : Port} {s : State} : s.foreign who q = false ↔
    ∀ p, s.owner.get q = some p → p = who := by
  unfold State.foreign
  cases s.owner.get q <;> simp

theorem State.producerBarred_eq_false {who : Party} {q : Port} {s : State} : s.producerBarred who q = false ↔
    s.enq.get q = none ∧ ∀ p, s.owner.get q = some p → p = who := by
  simp [State.producerBarred, State.foreign_eq_false]

theorem State.consumerBarred_eq_false {who : Party} {q : Port} {s : State} : s.consumerBarred who q = false ↔
    s.deq.get q = none ∧ ∀ p, s.owner.get q = some p → p = who := by
  simp [State.consumerBarred, State.foreign_eq_false]

/-- Everything the receive handler can do, if it answers next (42_router.md R111). -/
theorem serveReceive_cases {t : Port} {b : List Byte} {s s' : State} (h : serveReceive t b s = .next s') :
    (∃ st, decodeFrame s.cfg b = .error st ∧ s' = s.finishReceive t st)
      ∨ ∃ m ok s₁, decodeFrame s.cfg b = .ok m ∧ enqueueAs .router t.other m s = .next (ok, s₁)
          ∧ s' = s₁.finishReceive t (enqStatus ok) := by
  unfold serveReceive at h
  split at h
  · rename_i st hd
    cases h
    exact .inl ⟨st, hd, rfl⟩
  · rename_i m hd
    obtain ⟨⟨ok, s₁⟩, he, h⟩ := andThen_eq_next h
    cases h
    exact .inr ⟨m, ok, s₁, hd, he, rfl⟩

end Sys2Proof.Machine
end

