-- ==== Sys2Proof/Laws/Inv.lean ====
section
/-! SUPPORT. Sys2Proof/Laws/Inv.lean: each shared operation and each update of the state keeps the invariant State.Inv. -/

namespace Sys2Proof.Machine

/-- The invariant does not look at the result. -/
theorem State.Inv.ret {s : State} (h : s.Inv) (r : Result) : (s.ret r).Inv :=
  ⟨h.cfg_wf, h.queue, h.owned, h.worker, h.ntf, h.streams, h.ind, h.enq, h.deq⟩

/-- The invariant does not look at the schedule. -/
theorem State.Inv.schedule {s : State} (h : s.Inv) (tr : List Byte) (tu : List Turn) : ({ s with trace := tr, turns := tu } : State).Inv :=
  ⟨h.cfg_wf, h.queue, h.owned, h.worker, h.ntf, h.streams, h.ind, h.enq, h.deq⟩

/-- The owner's write keeps what the queue's owner says of its slots. -/
theorem Queue.OwnedBy.write {o : Option Party} {q : Queue} {m : Message} {i : Nat} {x : Queue} {who : Party}
    (h : q.OwnedBy o) (hx : x.slots = q.slots.set i (some m)) (hv : who = .router → m.valid = true)
    (ho : ∀ p, o = some p → p = who) : x.OwnedBy (some who) := by
  refine ⟨by simp, fun hr y hy => ?_⟩
  cases hr
  rw [hx] at hy
  rcases List.mem_or_eq_of_mem_set hy with hy | hy
  · cases o with
    | none => have := (h.1 rfl).2.2 _ hy; simp at this
    | some p => exact h.2 (by rw [ho p rfl]) y hy
  · cases hy; exact hv rfl

/-- Claiming a queue that is nobody's or one's own keeps the invariant (log 7). -/
theorem State.Inv.claim {s : State} (h : s.Inv) {q : Port} {who : Party} (ho : ∀ p, s.owner.get q = some p → p = who) :
    (s.claim q who).Inv := by
  refine ⟨h.cfg_wf, h.queue, fun u => ?_, h.worker, h.ntf, h.streams, h.ind, fun u p hp => ⟨(h.enq u p hp).1, ?_⟩,
    fun u p hp => ⟨(h.deq u p hp).1, ?_⟩⟩
  · by_cases hu : u = q
    · subst hu
      simp only [State.claim_queue, State.claim_owner, Pair.get_set_self]
      cases hg : s.owner.get u with
      | none =>
        have := h.owned u
        rw [hg] at this
        exact ⟨by simp, fun _ m hm => by have := (this.1 rfl).2.2 _ hm; simp at this⟩
      | some p => rw [← ho p hg, ← hg]; exact h.owned u
    · simpa [Pair.get_set_of_ne _ _ hu] using h.owned u
  all_goals
    by_cases hu : u = q
    · subst hu
      first
        | (have := ho _ (h.enq u p hp).2; simp [this])
        | (have := ho _ (h.deq u p hp).2; simp [this])
    · simp only [State.claim_owner, Pair.get_set_of_ne _ _ hu]
      first
        | exact (h.enq u p hp).2
        | exact (h.deq u p hp).2

/-- A queue that is not empty has an owner already, so its owner's operations leave that as it is (log 7). -/
theorem State.Inv.claim_of_nonempty {s : State} (h : s.Inv) {q : Port} {who : Party} (hne : (s.queue q).head ≠ (s.queue q).tail)
    (ho : ∀ p, s.owner.get q = some p → p = who) : s.claim q who = s := by
  apply State.claim_of_owner
  cases hg : s.owner.get q with
  | none => have := (h.owned q).1 hg; exact absurd (this.1.trans this.2.1.symm) hne
  | some p => rw [ho p hg]

/-- A full queue is not empty, since N[q] >= 2 (41_queue.md R91). -/
theorem State.Inv.nonempty_of_full {s : State} (h : s.Inv) {q : Port} (hf : inc (s.queue q).tail (s.cfg.slots q) = (s.queue q).head) :
    (s.queue q).head ≠ (s.queue q).tail := by
  have hq := h.queue q
  have hn := Config.wf.two_le_slots h.cfg_wf q
  have := (occupancy_full hq.head_lt hq.tail_lt).mpr hf
  intro he
  have := (occupancy_eq_zero (t := (s.queue q).tail) hq.head_lt).mpr he
  omega

/-- Between D4 and D5 the queue is not empty. -/
theorem DeqProgress.Inv.head_ne_tail {n k : Nat} {q : Queue} {w : Worker} {p : DeqProgress} {m : Message} (hi : p.Inv n k q w)
    (hq : q.Inv n k) (hp : p.phase = .copied m) : q.head ≠ q.tail := by
  obtain ⟨_, b, _, d⟩ := hi.before_d5 (by simp [hp]) (by simp [hp])
  obtain ⟨_, y, hy, hyn⟩ := d (by simp [hp])
  have := (b y hy).2
  intro hh
  have h0 : q.len n = 0 := (occupancy_eq_zero hq.head_lt).mpr hh
  have h1 : occupancy n q.head y = 0 := by omega
  exact hyn ((occupancy_eq_zero hq.head_lt).mp h1).symm

/-- Q.ENQ by a party keeps the invariant (41_queue.md R93). -/
theorem enqueueAs_keeps_inv {who : Party} {q : Port} {m : Message} {s s' : State} {b : Bool} (h : s.Inv)
    (hm : m.wf s.cfg.k = true) (hv : who = .router → m.valid = true)
    (he : enqueueAs who q m s = .next (b, s')) : s'.Inv := by
  obtain ⟨hbar, hcases⟩ := enqueueAs_cases he
  obtain ⟨henq, hown⟩ := State.producerBarred_eq_false.mp hbar
  obtain ⟨_, rfl, _⟩ | ⟨_, hne, hlt, rfl⟩ := hcases
  · exact h.claim hown
  have hq := h.queue q
  have hset : ((s.queue q).slots.set (s.queue q).tail (some m))[(s.queue q).tail]? = some (some m) := by
    simp [hlt]
  constructor
  · exact h.cfg_wf
  · intro u
    by_cases hu : u = q
    · subst hu
      simpa using (hq.write_tail hm).advance_tail (m := m) hne hset
    · simpa [State.setQueue_queue_of_ne _ _ hu] using h.queue u
  · intro u
    by_cases hu : u = q
    · subst hu
      simp only [State.claim_queue, State.setQueue_queue_self, State.claim_owner, State.setQueue_owner, Pair.get_set_self]
      exact Queue.OwnedBy.write (h.owned u) rfl hv hown
    · simpa [State.setQueue_queue_of_ne _ _ hu, Pair.get_set_of_ne _ _ hu] using h.owned u
  · exact h.worker
  · exact h.ntf
  · exact h.streams
  · exact h.ind
  · intro u p hp
    simp only [State.claim_enq, State.setQueue_enq] at hp
    have hu : u ≠ q := by rintro rfl; rw [henq] at hp; cases hp
    simpa [State.setQueue_queue_of_ne _ _ hu, Pair.get_set_of_ne _ _ hu] using h.enq u p hp
  · intro u p hp
    simp only [State.claim_deq, State.setQueue_deq] at hp
    by_cases hu : u = q
    · subst hu
      obtain ⟨hi, hw⟩ := h.deq u p hp
      simp only [State.claim_queue, State.setQueue_queue_self, State.claim_owner, State.setQueue_owner, Pair.get_set_self]
      refine ⟨?_, by rw [hown _ hw]⟩
      have hlen : occupancy (s.cfg.slots u) (s.queue u).head (inc (s.queue u).tail (s.cfg.slots u)) = _ :=
        occupancy_inc_tail hq.head_lt hq.tail_lt hne
      constructor
      · exact hi.worker_idle
      · exact hi.script_phase
      · intro h1 h2
        obtain ⟨a, b, c, d⟩ := hi.before_d5 h1 h2
        refine ⟨a, fun y hy => ⟨(b y hy).1, ?_⟩, fun hr => ⟨fun hh => hne hh.symm, (c hr).2⟩, d⟩
        have := (b y hy).2
        simp only [Queue.len, State.claim_cfg, State.setQueue_cfg] at this ⊢
        omega
      · intro x hx
        simpa [List.getElem?_set_ne (hi.head_ne_tail hq hx).symm] using hi.copied x hx
      · exact hi.dequeued
      · exact hi.encoded
    · simpa [State.setQueue_queue_of_ne _ _ hu, Pair.get_set_of_ne _ _ hu] using h.deq u p hp

/-- The end of a receive handler keeps the invariant (42_router.md R112). -/
theorem finishReceive_keeps_inv {s : State} (h : s.Inv) (t : Port) (st : Status) : (s.finishReceive t st).Inv := by
  obtain ⟨h1, h2, h3⟩ := h.streams
  refine ⟨h.cfg_wf, h.queue, h.owned, h.worker, h.ntf, ⟨h1, fun u e he => ?_, fun u e he => ?_⟩, h.ind, h.enq, h.deq⟩
  · simp only [State.finishReceive, State.ret_out, State.emit_out, Streams.emit_rxStatus_rearm, Streams.emit_rearm_rearm, Pair.get_set] at he
    split at he
    · subst u; simp at he; rcases he with he | he
      · exact h2 _ e he
      · exact he
    · exact h2 _ e he
  · simp only [State.finishReceive, State.ret_out, State.emit_out, Streams.emit_rxStatus_stat, Streams.emit_rearm_stat, Pair.get_set] at he
    split at he
    · subst u; simp at he; rcases he with he | he
      · exact h3 _ e he
      · exact ⟨_, he⟩
    · exact h3 _ e he

/-- The receive handler keeps the invariant (42_router.md R121). -/
theorem serveReceive_keeps_inv {s s' : State} {t b} (h : s.Inv) (he : serveReceive t b s = .next s') : s'.Inv := by
  obtain ⟨st, _, rfl⟩ | ⟨m, ok, s1, hd, hq, rfl⟩ := serveReceive_cases he
  · exact finishReceive_keeps_inv h _ _
  · exact finishReceive_keeps_inv (enqueueAs_keeps_inv h (decodeFrame_wf hd) (fun _ => decodeFrame_valid h.cfg_wf hd) hq) _ _

/-- Q.DEQ by a party keeps the invariant (41_queue.md R94). -/
theorem dequeueAs_keeps_inv {who : Party} {q : Port} {s s' : State} {o : Option Message} (h : s.Inv)
    (he : dequeueAs who q s = .next (o, s')) : s'.Inv := by
  obtain ⟨hbar, hcases⟩ := dequeueAs_cases he
  obtain ⟨hdeq, hown⟩ := State.consumerBarred_eq_false.mp hbar
  obtain ⟨_, rfl, _⟩ | ⟨m, _, hne, hs, rfl⟩ := hcases
  · exact h.claim hown
  have hq := h.queue q
  refine State.Inv.claim (s := s.setQueue q _) ?_ hown
  refine ⟨h.cfg_wf, fun u => ?_, fun u => ?_, h.worker, h.ntf, h.streams, h.ind, fun u p hp => ?_, fun u p hp => ?_⟩
  · by_cases hu : u = q
    · subst hu; simpa using hq.advance_head hne
    · simpa [State.setQueue_queue_of_ne _ _ hu] using h.queue u
  · by_cases hu : u = q
    · subst hu
      obtain ⟨h1, h2⟩ := h.owned u
      refine ⟨fun hn => ?_, ?_⟩
      · have := h1 hn; exact absurd (this.1.trans this.2.1.symm) hne
      · simpa using h2
    · simpa [State.setQueue_queue_of_ne _ _ hu] using h.owned u
  · by_cases hu : u = q
    · subst hu
      obtain ⟨hi, ho⟩ := h.enq u p hp
      refine ⟨?_, ho⟩
      simp only [State.setQueue_queue_self]
      have hlen := occupancy_inc_head hq.head_lt hq.tail_lt hne
      refine ⟨hi.item_wf, hi.t0_eq, fun y hy => ⟨(hi.h_older y hy).1, ?_⟩, hi.room, hi.slot⟩
      have := (hi.h_older y hy).2
      simp only [Queue.len, State.setQueue_cfg] at this ⊢
      omega
    · simpa [State.setQueue_queue_of_ne _ _ hu] using h.enq u p hp
  · simp only [State.setQueue_deq] at hp
    have hu : u ≠ q := by rintro rfl; rw [hdeq] at hp; cases hp
    simpa [State.setQueue_queue_of_ne _ _ hu] using h.deq u p hp

/-- The end of R.WSTART keeps the invariant (42_router.md R114). -/
theorem startTransmit_keeps_inv {s : State} {t : Port} {f} (h : s.Inv) (hf : f.length = s.cfg.w) (hd : s.deq.get t = none) :
    (s.startTransmit t f).Inv := by
  obtain ⟨h1, h2, h3⟩ := h.streams
  refine ⟨h.cfg_wf, h.queue, h.owned, fun u => ?_, h.ntf, ⟨fun u e he => ?_, h2, h3⟩, h.ind, h.enq, fun u p hp => ?_⟩
  · by_cases hu : u = t
    · subst hu
      simp only [State.startTransmit, State.ret_worker, State.emit_worker, State.setWorker_worker_self]
      exact ⟨Nat.zero_le _, fun _ => ⟨f, rfl⟩, fun g hg => by cases hg; exact hf⟩
    · simpa [State.startTransmit, State.setWorker_worker_of_ne _ _ hu] using h.worker u
  · simp only [State.startTransmit, State.ret_out, State.emit_out, Streams.emit_txStart_tx, Pair.get_set, State.setWorker_out] at he
    split at he
    · subst u; simp at he; rcases he with he | he
      · exact h1 _ e he
      · exact ⟨f, he, hf⟩
    · exact h1 _ e he
  · have hp' : s.deq.get u = some p := hp
    have hu : u ≠ t := by rintro rfl; rw [hd] at hp'; cases hp'
    simpa [State.startTransmit, State.setWorker_worker_of_ne _ _ hu] using h.deq u p hp'

/-- A BUSY worker's new state keeps the invariant where it meets the worker's own. -/
theorem setWorker_keeps_inv {s : State} {t : Port} {w : Worker} (h : s.Inv) (hw : w.Inv s.cfg) (hb : (s.worker t).wstate = .busy) :
    (s.setWorker t w).Inv := by
  refine ⟨h.cfg_wf, h.queue, h.owned, fun u => ?_, h.ntf, h.streams, h.ind, h.enq, fun u p hp => ?_⟩
  · by_cases hu : u = t
    · subst hu; simpa using hw
    · simpa [State.setWorker_worker_of_ne _ _ hu] using h.worker u
  · by_cases hu : u = t
    · subst hu
      obtain ⟨hi, h1⟩ := h.deq u p hp
      have hs : p.who = .script := by
        cases hp' : p.who
        · rfl
        · have := hi.worker_idle hp'; rw [hb] at this; cases this
      refine ⟨⟨fun hr => (by rw [hs] at hr; cases hr), hi.script_phase, hi.before_d5, hi.copied, hi.dequeued, hi.encoded⟩, h1⟩
    · simpa [State.setWorker_worker_of_ne _ _ hu] using h.deq u p hp

/-- The level after one more indicator event. -/
theorem indLevel_append (l : Bool) (es : List Event) (e : Event) : indLevel l (es ++ [e]) = (indLevel l es).bind (fun l' => indLevel l' [e]) := by
  induction es generalizing l with
  | nil => simp [indLevel]
  | cons a as ih =>
    cases l <;> cases a <;> simp [indLevel, ih]

/-- SYS.RESET keeps the invariant (70_reset_and_hazards.md R170). -/
theorem clear_keeps_inv {s : State} (h : s.Inv) : s.clear.Inv := by
  have hw := h.cfg_wf
  refine ⟨h.cfg_wf, fun q => ?_, fun q => ?_, fun t => ?_, ?_, ⟨?_, ?_, ?_⟩, ?_, ?_, ?_⟩
  · cases q
    · exact Queue.reset_inv _ (Config.wf.two_le_slots hw .uart)
    · exact Queue.reset_inv _ (Config.wf.two_le_slots hw .can)
  · cases q <;> simp [State.clear, State.resetWith, State.queue, Pair.get, Queue.OwnedBy, Queue.reset, List.mem_replicate]
  · cases t <;> exact ⟨by simp [State.clear, State.resetWith, State.worker, Pair.get, Worker.reset], by simp [State.clear, State.resetWith, State.worker, Pair.get, Worker.reset], by simp [State.clear, State.resetWith, State.worker, Pair.get, Worker.reset]⟩
  · simp [State.clear, State.resetWith, Notifier.Inv, Notifier.reset]
  · intro t; cases t <;> simp [State.clear, State.resetWith, Streams.reset, Pair.get]
  · intro t; cases t <;> simp [State.clear, State.resetWith, Streams.reset, Pair.get]
  · intro t; cases t <;> simp [State.clear, State.resetWith, Streams.reset, Pair.get]
  · simp [State.clear, State.resetWith, Streams.reset, indLevel, State.led, Notifier.reset]
  · intro q; cases q <;> simp [State.clear, State.resetWith, Pair.get]
  · intro q; cases q <;> simp [State.clear, State.resetWith, Pair.get]

/-- A notifier step keeps the invariant where level and events agree (43_notifier.md R134). -/
theorem setNtf_keeps_inv {s : State} {x : Notifier} {o : Streams} (h : s.Inv) (hx : x.Inv s.cfg) (h1 : o.tx = s.out.tx) (h2 : o.rearm = s.out.rearm)
   (h3 : o.stat = s.out.stat) (hi : indLevel false o.ind = some (x.state == .on)) : ({ s with ntf := x, out := o } : State).Inv := by
  obtain ⟨a, b, c⟩ := h.streams
  exact ⟨h.cfg_wf, h.queue, h.owned, h.worker, hx, ⟨by simpa [h1] using a, by simpa [h2] using b, by simpa [h3] using c⟩, hi, h.enq, h.deq⟩

/-- A new Q.ENQ in progress keeps the invariant where it meets its own. -/
theorem setEnq_keeps_inv {s : State} {q : Port} {x : Option EnqProgress} (h : s.Inv)
    (hx : ∀ p, x = some p → p.Inv (s.cfg.slots q) s.cfg.k (s.queue q) ∧ s.owner.get q = some .script) :
    (s.setEnq q x).Inv := by
  refine ⟨h.cfg_wf, h.queue, h.owned, h.worker, h.ntf, h.streams, h.ind, fun u p hp => ?_, h.deq⟩
  simp only [State.setEnq_enq, Pair.get_set] at hp
  split at hp
  · subst u; exact hx p hp
  · exact h.enq u p hp

/-- A new Q.DEQ in progress keeps the invariant where it meets its own. -/
theorem setDeq_keeps_inv {s : State} {q : Port} {x : Option DeqProgress} (h : s.Inv)
    (hx : ∀ p, x = some p → p.Inv (s.cfg.slots q) s.cfg.k (s.queue q) (s.worker q) ∧ s.owner.get q = some p.who) :
    (s.setDeq q x).Inv := by
  refine ⟨h.cfg_wf, h.queue, h.owned, h.worker, h.ntf, h.streams, h.ind, h.enq, fun u p hp => ?_⟩
  simp only [State.setDeq_deq, Pair.get_set] at hp
  split at hp
  · subst u; exact hx p hp
  · exact h.deq u p hp

/-- E4 of the script keeps the invariant (70_reset_and_hazards.md R180). -/
theorem slotWrite_keeps_inv {s : State} {q : Port} {m : Message} (h : s.Inv) (hm : m.wf s.cfg.k = true)
    (ho : s.owner.get q = some .script) (he : ∀ p, s.enq.get q = some p → p.phase ≠ .written) :
    (s.setQueue q { s.queue q with slots := (s.queue q).slots.set (s.queue q).tail (some m) }).Inv := by
  have hq := h.queue q
  refine ⟨h.cfg_wf, fun u => ?_, fun u => ?_, h.worker, h.ntf, h.streams, h.ind, fun u p hp => ?_, fun u p hp => ?_⟩
  · by_cases hu : u = q
    · subst hu; simpa using hq.write_tail hm
    · simpa [State.setQueue_queue_of_ne _ _ hu] using h.queue u
  · by_cases hu : u = q
    · subst hu
      simp only [State.setQueue_queue_self, State.setQueue_owner, ho]
      exact ⟨by simp, by simp⟩
    · simpa [State.setQueue_queue_of_ne _ _ hu] using h.owned u
  · simp only [State.setQueue_enq] at hp
    by_cases hu : u = q
    · subst hu
      obtain ⟨hi, _⟩ := h.enq u p hp
      simp only [State.setQueue_queue_self, State.setQueue_owner]
      exact ⟨⟨hi.item_wf, hi.t0_eq, hi.h_older, hi.room, fun hph => absurd hph (he p hp)⟩, ho⟩
    · simpa [State.setQueue_queue_of_ne _ _ hu] using h.enq u p hp
  · simp only [State.setQueue_deq] at hp
    by_cases hu : u = q
    · subst hu
      obtain ⟨hi, h1⟩ := h.deq u p hp
      simp only [State.setQueue_queue_self, State.setQueue_owner]
      refine ⟨⟨hi.worker_idle, hi.script_phase, hi.before_d5, fun x hx => ?_, hi.dequeued, hi.encoded⟩, h1⟩
      simpa [List.getElem?_set_ne (hi.head_ne_tail hq hx).symm] using hi.copied x hx
    · simpa [State.setQueue_queue_of_ne _ _ hu] using h.deq u p hp

end Sys2Proof.Machine
end

