-- ==== Sys2Proof/Laws/InvCheck.lean ====
section
/-! SUPPORT. Sys2Proof/Laws/InvCheck.lean: a Boolean check of the invariant, sound for it, so that a concrete state is shown to meet the
invariant by evaluation. -/

namespace Sys2Proof.Machine

/-- Both indices hold. -/
def bothPorts (p : Port → Bool) : Bool := p .uart && p .can

theorem bothPorts_eq_true {p : Port → Bool} (h : bothPorts p = true) (t : Port) : p t = true := by
  simp only [bothPorts, Bool.and_eq_true] at h
  cases t
  · exact h.1
  · exact h.2

def Queue.invB (n k : Nat) (q : Queue) : Bool :=
  decide (q.head < n) && decide (q.tail < n) && Memory.wf n k q.slots
    && (List.range (q.len n)).all fun j =>
      match q.slots[(q.head + j) % n]? with
      | some (some _) => true
      | _ => false

theorem Queue.inv_of_invB {n k : Nat} {q : Queue} (h : q.invB n k = true) : q.Inv n k := by
  simp only [Queue.invB, Bool.and_eq_true, decide_eq_true_eq, List.all_eq_true, List.mem_range] at h
  obtain ⟨⟨⟨hh, ht⟩, hm⟩, hl⟩ := h
  refine ⟨hh, ht, hm, fun j hj => ?_⟩
  have := hl j hj
  split at this
  · exact ⟨_, ‹_›⟩
  · cases this

def Queue.ownedB (o : Option Party) (q : Queue) : Bool :=
  match o with
  | none => decide (q.head = 0) && decide (q.tail = 0) && q.slots.all Option.isNone
  | some .script => true
  | some .router => q.slots.all (Option.all Message.valid)

theorem Queue.ownedBy_of_ownedB {o : Option Party} {q : Queue} (h : q.ownedB o = true) : q.OwnedBy o := by
  match o with
  | none =>
    simp only [Queue.ownedB, Bool.and_eq_true, decide_eq_true_eq, List.all_eq_true, Option.isNone_iff_eq_none] at h
    exact ⟨fun _ => ⟨h.1.1, h.1.2, h.2⟩, by simp⟩
  | some .script => exact ⟨by simp, by simp⟩
  | some .router =>
    simp only [Queue.ownedB, List.all_eq_true] at h
    exact ⟨by simp, fun _ m hm => by simpa using h _ hm⟩

def EnqProgress.invB (n k : Nat) (q : Queue) (p : EnqProgress) : Bool :=
  p.item.wf k && p.t0.all (fun x => decide (x = q.tail))
    && p.h.all (fun y => decide (y < n) && decide (q.len n ≤ occupancy n y q.tail))
    && (decide (p.phase = .reading) || (decide (p.t0 = some q.tail) && p.h.any fun y => decide (inc q.tail n ≠ y)))
    && (decide (p.phase ≠ .written) || decide (q.slots[q.tail]? = some (some p.item)))

theorem EnqProgress.inv_of_invB {n k : Nat} {q : Queue} {p : EnqProgress} (h : p.invB n k q = true) : p.Inv n k q := by
  simp only [EnqProgress.invB, Bool.and_eq_true, Bool.or_eq_true, decide_eq_true_eq, Option.any_eq_true] at h
  obtain ⟨⟨⟨⟨hm, ht⟩, hh⟩, hr⟩, hs⟩ := h
  refine ⟨hm, fun x hx => by simpa [hx] using ht, fun y hy => by simpa [hy] using hh, fun hp => ?_, fun hp => ?_⟩
  · rcases hr with hr | hr
    · exact absurd hr hp
    · exact hr
  · rcases hs with hs | hs
    · exact absurd hp hs
    · exact hs

/-- The part of a Q.DEQ in progress before D5. -/
def DeqProgress.beforeB (n : Nat) (q : Queue) (p : DeqProgress) : Bool :=
  p.h0.all (fun x => decide (x = q.head))
    && p.t.all (fun y => decide (y < n) && decide (occupancy n q.head y ≤ q.len n))
    && (decide (p.who ≠ .router) || (decide (q.head ≠ q.tail) && p.t.all fun y => decide (y ≠ q.head)))
    && (decide (p.phase = .reading) || (decide (p.h0 = some q.head) && p.t.any fun y => decide (y ≠ q.head)))

/-- The bytes are the frame of a Message of k body bytes. -/
def frameB (k : Nat) : List Byte → Bool
  | _ :: _ :: _ :: _ :: body => decide (body.length = k)
  | _ => false

theorem frame_of_frameB {k : Nat} {f : List Byte} (h : frameB k f = true) : ∃ m : Message, m.wf k = true ∧ f = frameOf m := by
  unfold frameB at h
  split at h
  · rename_i p s r c body
    exact ⟨⟨p, s, r, c, 0, body⟩, by simpa [Message.wf] using h, rfl⟩
  · cases h

def DeqProgress.invB (n k : Nat) (q : Queue) (w : Worker) (p : DeqProgress) : Bool :=
  (decide (p.who ≠ .router) || decide (w.wstate = .idle)) &&
    match p.phase with
    | .reading => p.beforeB n q
    | .tested => p.beforeB n q
    | .copied m => p.beforeB n q && decide (q.slots[q.head]? = some (some m))
    | .dequeued m => decide (p.who = .router) && m.wf k
    | .encoded f => decide (p.who = .router) && frameB k f

theorem DeqProgress.before_of_beforeB {n : Nat} {q : Queue} {p : DeqProgress} (h : p.beforeB n q = true) :
    (∀ x, p.h0 = some x → x = q.head)
      ∧ (∀ y, p.t = some y → y < n ∧ occupancy n q.head y ≤ q.len n)
      ∧ (p.who = .router → q.head ≠ q.tail ∧ ∀ y, p.t = some y → y ≠ q.head)
      ∧ (p.phase ≠ .reading → p.h0 = some q.head ∧ ∃ y, p.t = some y ∧ y ≠ q.head) := by
  simp only [DeqProgress.beforeB, Bool.and_eq_true, Bool.or_eq_true, decide_eq_true_eq, Option.any_eq_true] at h
  obtain ⟨⟨⟨ha, hb⟩, hc⟩, hd⟩ := h
  refine ⟨fun x hx => by simpa [hx] using ha, fun y hy => by simpa [hy] using hb, fun hw => ?_, fun hp => ?_⟩
  · rcases hc with hc | hc
    · exact absurd hw hc
    · exact ⟨hc.1, fun y hy => by simpa [hy] using hc.2⟩
  · rcases hd with hd | hd
    · exact absurd hd hp
    · exact hd

theorem DeqProgress.inv_of_invB {n k : Nat} {q : Queue} {w : Worker} {p : DeqProgress} (h : p.invB n k q w = true) :
    p.Inv n k q w := by
  simp only [DeqProgress.invB, Bool.and_eq_true, Bool.or_eq_true, decide_eq_true_eq] at h
  obtain ⟨hw, hp⟩ := h
  have hi : p.who = .router → w.wstate = .idle := fun hr => by
    rcases hw with hw | hw
    · exact absurd hr hw
    · exact hw
  cases hph : p.phase with
  | reading =>
    rw [hph] at hp
    exact ⟨hi, by simp [hph], fun _ _ => before_of_beforeB hp, by simp [hph], by simp [hph], by simp [hph]⟩
  | tested =>
    rw [hph] at hp
    exact ⟨hi, by simp [hph], fun _ _ => before_of_beforeB hp, by simp [hph], by simp [hph], by simp [hph]⟩
  | copied m =>
    rw [hph] at hp
    simp only [Bool.and_eq_true, decide_eq_true_eq] at hp
    exact ⟨hi, by simp [hph], fun _ _ => before_of_beforeB hp.1, by simp [hph, hp.2], by simp [hph], by simp [hph]⟩
  | dequeued m =>
    rw [hph] at hp
    simp only [Bool.and_eq_true, decide_eq_true_eq] at hp
    exact ⟨hi, by simp [hp.1], fun h1 => absurd hph (h1 m), by simp [hph], by simp [hph, hp.2], by simp [hph]⟩
  | encoded f =>
    rw [hph] at hp
    simp only [Bool.and_eq_true, decide_eq_true_eq] at hp
    exact ⟨hi, by simp [hp.1], fun _ h2 => absurd hph (h2 f), by simp [hph], by simp [hph],
      fun g hg => by rw [hph] at hg; cases hg; exact frame_of_frameB hp.2⟩

def Worker.invB (c : Config) (w : Worker) : Bool :=
  decide (w.retry ≤ c.txRetryMax) && (decide (w.wstate = .idle) || w.txbuf.isSome)
    && w.txbuf.all fun f => decide (f.length = c.w)

theorem Worker.inv_of_invB {c : Config} {w : Worker} (h : w.invB c = true) : w.Inv c := by
  simp only [Worker.invB, Bool.and_eq_true, Bool.or_eq_true, decide_eq_true_eq] at h
  obtain ⟨⟨hr, hb⟩, hl⟩ := h
  refine ⟨hr, fun hbusy => ?_, fun f hf => by simpa [hf] using hl⟩
  rcases hb with hb | hb
  · rw [hb] at hbusy
    cases hbusy
  · exact Option.isSome_iff_exists.mp hb

def Notifier.invB (c : Config) (x : Notifier) : Bool :=
  match x.state with
  | .off => decide (x.cnt = 0)
  | .on => decide (1 ≤ x.cnt) && decide (x.cnt ≤ c.holdTicks)

theorem Notifier.inv_of_invB {c : Config} {x : Notifier} (h : x.invB c = true) : x.Inv c := by
  unfold Notifier.invB at h
  unfold Notifier.Inv
  split at h <;> simp_all

/-- The event is a TxStart of transport t with a frame of w bytes. -/
def Event.isTx (w : Nat) (t : Port) : Event → Bool
  | .txStart u f => decide (u = t) && decide (f.length = w)
  | _ => false

/-- The event is an RxStatus of transport t. -/
def Event.isStat (t : Port) : Event → Bool
  | .rxStatus u _ => decide (u = t)
  | _ => false

def Streams.invB (c : Config) (o : Streams) : Bool :=
  bothPorts fun t => (o.tx.get t).all (Event.isTx c.w t) && (o.rearm.get t).all (fun e => decide (e = .rearm t))
    && (o.stat.get t).all (Event.isStat t)

theorem Streams.inv_of_invB {c : Config} {o : Streams} (h : o.invB c = true) : o.Inv c := by
  have key := bothPorts_eq_true h
  simp only [Bool.and_eq_true, List.all_eq_true, decide_eq_true_eq] at key
  refine ⟨fun t e he => ?_, fun t e he => (key t).1.2 e he, fun t e he => ?_⟩
  · have := (key t).1.1 e he
    cases e <;> simp [Event.isTx] at this
    exact ⟨_, by rw [this.1], this.2⟩
  · have := (key t).2 e he
    cases e <;> simp [Event.isStat] at this
    exact ⟨_, by rw [this]⟩

/-- The whole invariant. -/
def State.invB (s : State) : Bool :=
  s.cfg.wf
    && bothPorts (fun q => (s.queue q).invB (s.cfg.slots q) s.cfg.k)
    && bothPorts (fun q => (s.queue q).ownedB (s.owner.get q))
    && bothPorts (fun t => (s.worker t).invB s.cfg)
    && s.ntf.invB s.cfg && s.out.invB s.cfg && decide (indLevel false s.out.ind = some s.led)
    && bothPorts (fun q => (s.enq.get q).all fun p => p.invB (s.cfg.slots q) s.cfg.k (s.queue q)
        && decide (s.owner.get q = some .script))
    && bothPorts (fun q => (s.deq.get q).all fun p => p.invB (s.cfg.slots q) s.cfg.k (s.queue q) (s.worker q)
        && decide (s.owner.get q = some p.who))

theorem State.inv_of_invB {s : State} (h : s.invB = true) : s.Inv := by
  simp only [State.invB, Bool.and_eq_true, decide_eq_true_eq] at h
  obtain ⟨⟨⟨⟨⟨⟨⟨⟨hc, hq⟩, ho⟩, hw⟩, hn⟩, hs⟩, hi⟩, he⟩, hd⟩ := h
  exact {
    cfg_wf := hc
    queue := fun q => Queue.inv_of_invB (bothPorts_eq_true hq q)
    owned := fun q => Queue.ownedBy_of_ownedB (bothPorts_eq_true ho q)
    worker := fun t => Worker.inv_of_invB (bothPorts_eq_true hw t)
    ntf := Notifier.inv_of_invB hn
    streams := Streams.inv_of_invB hs
    ind := hi
    enq := fun q p hp => by
      have := bothPorts_eq_true he q
      simp only [hp, Option.all_some, Bool.and_eq_true, decide_eq_true_eq] at this
      exact ⟨EnqProgress.inv_of_invB this.1, this.2⟩
    deq := fun q p hp => by
      have := bothPorts_eq_true hd q
      simp only [hp, Option.all_some, Bool.and_eq_true, decide_eq_true_eq] at this
      exact ⟨DeqProgress.inv_of_invB this.1, this.2⟩ }

end Sys2Proof.Machine
end

