-- ==== Sys2Proof/Laws/PerInstr.lean ====
section
/-! SUPPORT. Sys2Proof/Laws/PerInstr.lean: what holds of every instruction, one lemma for each constructor. -/

namespace Sys2Proof.Laws.OpidUnreserved

open Sys2Proof.Machine

/-- No record of a trace that stands for an instruction starts with a reserved opid (30_encoding.md R70, R71). A wire frame has
no opid. -/
def Statement (i : Instr) : Prop :=
  ∀ bytes, encode i = .record bytes → ∃ b rest, bytes = b :: rest ∧ reservedOpid b = false

theorem qIsEmpty (q : Port) : Statement (.qIsEmpty q) := by
  rintro _ ⟨⟩
  cases q <;> exact ⟨_, _, rfl, by decide⟩

theorem qIsFull (q : Port) : Statement (.qIsFull q) := by
  rintro _ ⟨⟩
  cases q <;> exact ⟨_, _, rfl, by decide⟩

theorem qEnq (q : Port) (m : Message) : Statement (.qEnq q m) := by
  rintro _ ⟨⟩
  cases q <;> exact ⟨_, _, rfl, by decide⟩

theorem qDeq (q : Port) : Statement (.qDeq q) := by
  rintro _ ⟨⟩
  cases q <;> exact ⟨_, _, rfl, by decide⟩

theorem qLen (q : Port) : Statement (.qLen q) := by
  rintro _ ⟨⟩
  cases q <;> exact ⟨_, _, rfl, by decide⟩

theorem cEnc (m : Message) : Statement (.cEnc m) := by
  rintro _ ⟨⟩
  exact ⟨_, _, rfl, by decide⟩

theorem cDec (b : List Byte) : Statement (.cDec b) := by
  rintro _ ⟨⟩
  exact ⟨_, _, rfl, by decide⟩

theorem rRx (t : Port) (b : List Byte) : Statement (.rRx t b) := by
  rintro _ ⟨⟩
  cases t <;> exact ⟨_, _, rfl, by decide⟩

theorem rWstart (t : Port) : Statement (.rWstart t) := by
  rintro _ ⟨⟩
  cases t <;> exact ⟨_, _, rfl, by decide⟩

theorem rWdone (t : Port) : Statement (.rWdone t) := by
  rintro _ ⟨⟩
  cases t <;> exact ⟨_, _, rfl, by decide⟩

theorem rWfail (t : Port) : Statement (.rWfail t) := by
  rintro _ ⟨⟩
  cases t <;> exact ⟨_, _, rfl, by decide⟩

theorem nWake : Statement .nWake := by
  rintro _ ⟨⟩
  exact ⟨_, _, rfl, by decide⟩

theorem nTick : Statement .nTick := by
  rintro _ ⟨⟩
  exact ⟨_, _, rfl, by decide⟩

theorem sysReset : Statement .sysReset := by
  rintro _ ⟨⟩
  exact ⟨_, _, rfl, by decide⟩

theorem frame (t : Port) (f : Frame) : Statement (.frame t f) := by
  rintro _ ⟨⟩

end Sys2Proof.Laws.OpidUnreserved
end

