-- ==== Sys2Proof/Laws/Step.lean ====
section
/-! SUPPORT. Sys2Proof/Laws/Step.lean: what fetching, an instruction, a sub-step and a step can do. -/

namespace Sys2Proof.Machine

theorem takeExact_length {n : Nat} {l : List Byte} {r : List Byte × List Byte} (h : takeExact n l = some r) : r.1.length = n := by
  induction n generalizing l r with
  | zero => cases h; rfl
  | succ n ih =>
    cases l with
    | nil => cases h
    | cons b l =>
      obtain ⟨x, hx, rfl⟩ := Option.map_eq_some_iff.mp h
      simp [ih hx]

/-- Bytes followed by others: exactly the bytes are taken. -/
theorem takeExact_append (b later : List Byte) : takeExact b.length (b ++ later) = some (b, later) := by
  induction b with
  | nil => rfl
  | cons a b ih => simp [takeExact, ih]

/-- A decoded record is well-formed. -/
theorem decode_wf {k : Nat} {bs : List Byte} {i : Instr} {rest} (h : decode k bs = .ok (i, rest)) : i.wf k = true := by
  have ht : ∀ {n l r}, takeExact n l = some r → r.1.length = n := takeExact_length
  have hm : ∀ {l r}, parseMessage k l = some r → r.1.wf k = true := by
    intro l r h
    unfold parseMessage at h
    split at h
    · split at h
      · rename_i h2; cases h; simpa [Message.wf] using ht h2
      · cases h
    · cases h
  have hb : ∀ {l r}, parseBytes l = some r → bytesWf r.1 = true := by
    intro l r h
    unfold parseBytes at h
    split at h
    · have := ht h; simp [bytesWf, this]; omega
    · cases h
  unfold decode at h
  split at h
  · cases h
  · split at h
    · cases h
    · rename_i op hop
      split at h
      · rename_i r hr
        cases h
        cases op <;> simp only [parseOperands, Option.map_eq_some_iff, Option.some.injEq] at hr
        case qEnq => obtain ⟨a, h1, h2⟩ := hr; cases h2; exact hm h1
        case cEnc => obtain ⟨a, h1, h2⟩ := hr; cases h2; exact hm h1
        case cDec => obtain ⟨a, h1, h2⟩ := hr; cases h2; exact hb h1
        case rRx => obtain ⟨a, h1, h2⟩ := hr; cases h2; exact hb h1
        all_goals cases hr; rfl
      · cases h

/-- What arrives on a wire is a frame of K body bytes, or R.RX. -/
theorem decodeWire_wf (k t b) : (decodeWire k t b).wf k = true ∨ ∃ t' b', decodeWire k t b = .rRx t' b' := by
  unfold decodeWire
  split
  · rename_i f h
    left
    unfold parseFrame at h
    split at h
    · split at h <;> cases h
      simpa [Instr.wf, Frame.wf]
    · cases h
  · right; exact ⟨_, _, rfl⟩

/-- R.WSTART takes exactly the Message at `head` (42_router.md R114). -/
theorem execRWstart_cases {s s' : State} {t} (he : execRWstart t s = .next s') :
    s.wstartEnabled t = true ∧ ∃ m, (s.queue t).head ≠ (s.queue t).tail ∧ (s.queue t).slots[(s.queue t).head]? = some (some m) ∧ s.consumerBarred .router t = false
      ∧ s' = ((s.setQueue t { s.queue t with head := inc (s.queue t).head (s.cfg.slots t) }).claim t .router).startTransmit t (frameOf m) := by
  unfold execRWstart at he
  split at he
  case isFalse => cases he
  rename_i hen
  obtain ⟨⟨o, s1⟩, hd, hx⟩ := andThen_eq_next he
  obtain ⟨hb, ⟨rfl, rfl, _⟩ | ⟨m, rfl, hne, hm, rfl⟩⟩ := dequeueAs_cases hd
  · cases hx
  · exact ⟨hen, m, hne, hm, hb, by injection hx with hx; exact hx.symm⟩

/-- What an instruction can do to queue q: nothing, one Message stored, one taken, or reset (41_queue.md R93, R94). -/
theorem exec_queue_cases {i : Instr} {s s' : State} (q : Port) (he : exec i s = .next s') :
    (s'.queue q = s.queue q)
    ∨ (∃ m, ((i = .qEnq q m) ∨ ∃ b, Receives q.other b i ∧ decodeFrame s.cfg b = .ok m) ∧ inc (s.queue q).tail (s.cfg.slots q) ≠ (s.queue q).head ∧ (s.queue q).tail < (s.queue q).slots.length ∧
        s'.queue q = { s.queue q with slots := (s.queue q).slots.set (s.queue q).tail (some m), tail := inc (s.queue q).tail (s.cfg.slots q) })
    ∨ (∃ m, (i = .qDeq q ∨ i = .rWstart q) ∧ (s.queue q).head ≠ (s.queue q).tail ∧ (s.queue q).slots[(s.queue q).head]? = some (some m)
        ∧ s'.queue q = { s.queue q with head := inc (s.queue q).head (s.cfg.slots q) })
    ∨ (i = .sysReset ∧ s' = s.clear) := by
  have rx : ∀ t b, Receives t b i → serveReceive t b s = .next s' → (s'.queue q = s.queue q) ∨ (∃ m, ((i = .qEnq q m) ∨ ∃ b, Receives q.other b i ∧ decodeFrame s.cfg b = .ok m) ∧ inc (s.queue q).tail (s.cfg.slots q) ≠ (s.queue q).head ∧ (s.queue q).tail < (s.queue q).slots.length ∧ s'.queue q = { s.queue q with slots := (s.queue q).slots.set (s.queue q).tail (some m), tail := inc (s.queue q).tail (s.cfg.slots q) }) ∨ (∃ m, (i = .qDeq q ∨ i = .rWstart q) ∧ (s.queue q).head ≠ (s.queue q).tail ∧ (s.queue q).slots[(s.queue q).head]? = some (some m) ∧ s'.queue q = { s.queue q with head := inc (s.queue q).head (s.cfg.slots q) }) ∨ (i = .sysReset ∧ s' = s.clear) := by
    intro t b hi he
    obtain ⟨st, hd, rfl⟩ | ⟨m, ok, s1, hd, hen, rfl⟩ := serveReceive_cases he
    · exact Or.inl (rfl : _ = s.queue q)
    · obtain ⟨_, ⟨rfl, rfl, _⟩ | ⟨rfl, hne, hl, rfl⟩⟩ := enqueueAs_cases hen
      · exact Or.inl rfl
      · rcases Port.eq_or_eq_other t q with rfl | rfl
        · left; simp [State.finishReceive]; exact State.setQueue_queue_of_ne _ _ (by simp)
        · right; left; exact ⟨m, .inr ⟨b, by simpa using hi, hd⟩, hne, hl, by simp [State.finishReceive]⟩
  cases i with
  | qIsEmpty | qIsFull | qLen | cEnc => cases he; exact .inl rfl
  | cDec b => simp only [exec, execCDec] at he; split at he <;> cases he <;> exact .inl rfl
  | qEnq u m =>
    obtain ⟨⟨ok, s1⟩, hen, hx⟩ := andThen_eq_next he
    cases hx
    obtain ⟨_, ⟨rfl, rfl, _⟩ | ⟨rfl, hne, hl, rfl⟩⟩ := enqueueAs_cases hen
    · exact .inl rfl
    · rcases Port.eq_or_eq_other u q with rfl | rfl
      · right; left; exact ⟨m, .inl rfl, hne, hl, by simp⟩
      · left; simp
  | qDeq u =>
    obtain ⟨⟨ok, s1⟩, hen, hx⟩ := andThen_eq_next he
    cases hx
    obtain ⟨_, ⟨rfl, rfl, _⟩ | ⟨m, rfl, hne, hm, rfl⟩⟩ := dequeueAs_cases hen
    · exact .inl rfl
    · rcases Port.eq_or_eq_other u q with rfl | rfl
      · right; right; left; exact ⟨m, .inl rfl, hne, hm, by simp⟩
      · left; simp
  | rRx t b => exact rx t b (.inl rfl) he
  | frame t f => exact rx t _ (.inr ⟨f, rfl, rfl⟩) he
  | rWstart t =>
    obtain ⟨_, m, hne, hm, _, rfl⟩ := execRWstart_cases he
    rcases Port.eq_or_eq_other t q with rfl | rfl
    · right; right; left; exact ⟨m, .inr rfl, hne, hm, by simp [State.startTransmit]⟩
    · left; simp [State.startTransmit]
  | rWdone t => simp only [exec, execRWdone] at he; split at he <;> cases he; exact .inl rfl
  | rWfail t =>
    simp only [exec, execRWfail] at he
    repeat' split at he
    all_goals first | cases he; done | (cases he; exact .inl rfl)
  | nWake => simp only [exec, execNWake] at he; split at he <;> cases he; exact .inl rfl
  | nTick =>
    simp only [exec, execNTick] at he
    repeat' split at he
    all_goals (cases he; exact .inl rfl)
  | sysReset => cases he; exact .inr (.inr (.inr ⟨rfl, rfl⟩))

/-- No instruction changes the parameters (00_scope.md R6). -/
theorem exec_cfg {i : Instr} {s s' : State} (he : exec i s = .next s') : s'.cfg = s.cfg := by
  have rx : ∀ t b, serveReceive t b s = .next s' → s'.cfg = s.cfg := by
    intro t b he
    obtain ⟨st, hd, rfl⟩ | ⟨m, ok, s1, hd, hen, rfl⟩ := serveReceive_cases he
    · rfl
    · obtain ⟨_, ⟨rfl, rfl, _⟩ | ⟨rfl, hne, hl, rfl⟩⟩ := enqueueAs_cases hen <;> rfl
  cases i with
  | qIsEmpty | qIsFull | qLen | cEnc => cases he; rfl
  | cDec b => simp only [exec, execCDec] at he; split at he <;> cases he <;> rfl
  | qEnq u m =>
    obtain ⟨⟨ok, s1⟩, hen, hx⟩ := andThen_eq_next he
    cases hx
    obtain ⟨_, ⟨rfl, rfl, _⟩ | ⟨rfl, hne, hl, rfl⟩⟩ := enqueueAs_cases hen <;> rfl
  | qDeq u =>
    obtain ⟨⟨ok, s1⟩, hen, hx⟩ := andThen_eq_next he
    cases hx
    obtain ⟨_, ⟨rfl, rfl, _⟩ | ⟨m, rfl, hne, hm, rfl⟩⟩ := dequeueAs_cases hen <;> rfl
  | rRx t b => exact rx t b he
  | frame t f => exact rx t _ he
  | rWstart t => obtain ⟨_, m, hne, hm, _, rfl⟩ := execRWstart_cases he; rfl
  | rWdone t => simp only [exec, execRWdone] at he; split at he <;> cases he; rfl
  | rWfail t =>
    simp only [exec, execRWfail] at he
    repeat' split at he
    all_goals first | cases he; done | (cases he; rfl)
  | nWake => simp only [exec, execNWake] at he; split at he <;> cases he; rfl
  | nTick =>
    simp only [exec, execNTick] at he
    repeat' split at he
    all_goals (cases he; rfl)
  | sysReset => cases he; rfl

/-- What the receive handler leaves alone (42_router.md R111). -/
theorem serveReceive_frame {t : Port} {b : List Byte} {s s' : State} (he : serveReceive t b s = .next s') :
    s'.workers = s.workers ∧ s'.ntf = s.ntf ∧ s'.enq = s.enq ∧ s'.deq = s.deq ∧ s'.out.tx = s.out.tx ∧ s'.out.ind = s.out.ind := by
  obtain ⟨st, _, rfl⟩ | ⟨m, ok, s₁, _, hen, rfl⟩ := serveReceive_cases he
  · exact ⟨rfl, rfl, rfl, rfl, rfl, rfl⟩
  · obtain ⟨_, ⟨_, rfl, _⟩ | ⟨_, _, _, rfl⟩⟩ := enqueueAs_cases hen <;> exact ⟨rfl, rfl, rfl, rfl, rfl, rfl⟩

/-- What an instruction can do to worker t (42_router.md R122). -/
theorem exec_worker_cases {i : Instr} {s s' : State} (t : Port) (he : exec i s = .next s') :
    s'.worker t = s.worker t
      ∨ (∃ f, i = .rWstart t ∧ s'.worker t = ⟨.busy, some f, 0⟩)
      ∨ (i = .rWdone t ∧ s'.worker t = { s.worker t with wstate := .idle })
      ∨ (i = .rWfail t ∧ (s.worker t).wstate = .busy
          ∧ (((s.worker t).retry < s.cfg.txRetryMax ∧ s'.worker t = { s.worker t with retry := (s.worker t).retry + 1 })
            ∨ (s.cfg.txRetryMax ≤ (s.worker t).retry ∧ s'.worker t = { s.worker t with wstate := .idle })))
      ∨ (i = .sysReset ∧ s' = s.clear) := by
  have same : s'.workers = s.workers → s'.worker t = s.worker t := fun h => by unfold State.worker; rw [h]
  cases i with
  | qIsEmpty | qIsFull | qLen | cEnc => cases he; exact .inl rfl
  | cDec b => simp only [exec, execCDec] at he; split at he <;> cases he <;> exact .inl rfl
  | qEnq u m =>
    obtain ⟨⟨ok, s₁⟩, hen, hx⟩ := andThen_eq_next he
    cases hx
    obtain ⟨_, ⟨_, rfl, _⟩ | ⟨_, _, _, rfl⟩⟩ := enqueueAs_cases hen <;> exact .inl rfl
  | qDeq u =>
    obtain ⟨⟨o, s₁⟩, hen, hx⟩ := andThen_eq_next he
    cases hx
    obtain ⟨_, ⟨_, rfl, _⟩ | ⟨_, _, _, _, rfl⟩⟩ := dequeueAs_cases hen <;> exact .inl rfl
  | rRx u b => exact .inl (same (serveReceive_frame he).1)
  | frame u f => exact .inl (same (serveReceive_frame he).1)
  | rWstart u =>
    obtain ⟨_, m, _, _, _, rfl⟩ := execRWstart_cases he
    rcases Port.eq_or_eq_other u t with rfl | rfl
    · exact .inr (.inl ⟨frameOf m, rfl, by simp [State.startTransmit]⟩)
    · exact .inl (by simp [State.startTransmit])
  | rWdone u =>
    simp only [exec, execRWdone] at he
    split at he <;> cases he
    rcases Port.eq_or_eq_other u t with rfl | rfl
    · exact .inr (.inr (.inl ⟨rfl, by simp [State.signal]⟩))
    · exact .inl (by simp [State.signal])
  | rWfail u =>
    simp only [exec, execRWfail] at he
    split at he
    case isFalse => cases he
    rename_i hb
    have hb' : (s.worker u).wstate = .busy := by simpa [State.answerEnabled] using hb
    split at he
    · rename_i hl
      split at he <;> cases he
      rcases Port.eq_or_eq_other u t with rfl | rfl
      · exact .inr (.inr (.inr (.inl ⟨rfl, hb', .inl ⟨hl, by simp⟩⟩)))
      · exact .inl (by simp)
    · rename_i hl
      cases he
      rcases Port.eq_or_eq_other u t with rfl | rfl
      · exact .inr (.inr (.inr (.inl ⟨rfl, hb', .inr ⟨Nat.le_of_not_lt hl, by simp⟩⟩)))
      · exact .inl (by simp)
  | nWake => simp only [exec, execNWake] at he; split at he <;> cases he; exact .inl rfl
  | nTick =>
    simp only [exec, execNTick] at he
    repeat' split at he
    all_goals (cases he; exact .inl rfl)
  | sysReset => cases he; exact .inr (.inr (.inr (.inr ⟨rfl, rfl⟩)))

/-- What an instruction can do to the notifier (43_notifier.md R130 to R132). -/
theorem exec_ntf_cases {i : Instr} {s s' : State} (he : exec i s = .next s') :
    s'.ntf = s.ntf
      ∨ (∃ t, i = .rWdone t ∧ s'.ntf = { s.ntf with sig := true })
      ∨ (i = .nWake ∧ s.wakeEnabled = true ∧ s'.ntf = ⟨.on, false, s.cfg.holdTicks⟩)
      ∨ (i = .nTick ∧ s.ntf.state = .on
          ∧ ((1 < s.ntf.cnt ∧ s'.ntf = { s.ntf with cnt := s.ntf.cnt - 1 })
            ∨ (s.ntf.cnt ≤ 1 ∧ s.ntf.sig = true ∧ s'.ntf = ⟨.on, false, s.cfg.holdTicks⟩)
            ∨ (s.ntf.cnt ≤ 1 ∧ s.ntf.sig = false ∧ s'.ntf = ⟨.off, false, 0⟩)))
      ∨ (i = .sysReset ∧ s' = s.clear) := by
  cases i with
  | qIsEmpty | qIsFull | qLen | cEnc => cases he; exact .inl rfl
  | cDec b => simp only [exec, execCDec] at he; split at he <;> cases he <;> exact .inl rfl
  | qEnq u m =>
    obtain ⟨⟨ok, s₁⟩, hen, hx⟩ := andThen_eq_next he
    cases hx
    obtain ⟨_, ⟨_, rfl, _⟩ | ⟨_, _, _, rfl⟩⟩ := enqueueAs_cases hen <;> exact .inl rfl
  | qDeq u =>
    obtain ⟨⟨o, s₁⟩, hen, hx⟩ := andThen_eq_next he
    cases hx
    obtain ⟨_, ⟨_, rfl, _⟩ | ⟨_, _, _, _, rfl⟩⟩ := dequeueAs_cases hen <;> exact .inl rfl
  | rRx u b => exact .inl (serveReceive_frame he).2.1
  | frame u f => exact .inl (serveReceive_frame he).2.1
  | rWstart u => obtain ⟨_, m, _, _, _, rfl⟩ := execRWstart_cases he; exact .inl rfl
  | rWdone u => simp only [exec, execRWdone] at he; split at he <;> cases he; exact .inr (.inl ⟨u, rfl, rfl⟩)
  | rWfail u =>
    simp only [exec, execRWfail] at he
    repeat' split at he
    all_goals first | cases he; done | (cases he; exact .inl rfl)
  | nWake => simp only [exec, execNWake] at he; split at he <;> cases he; exact .inr (.inr (.inl ⟨rfl, ‹_›, rfl⟩))
  | nTick =>
    simp only [exec, execNTick] at he
    split at he
    · cases he; exact .inl rfl
    · rename_i hon
      split at he
      · cases he; exact .inr (.inr (.inr (.inl ⟨rfl, hon, .inl ⟨‹_›, rfl⟩⟩)))
      · rename_i hc
        split at he <;> cases he
        · exact .inr (.inr (.inr (.inl ⟨rfl, hon, .inr (.inl ⟨Nat.le_of_not_lt hc, ‹_›, by simp [hon]⟩)⟩)))
        · rename_i hs
          exact .inr (.inr (.inr (.inl ⟨rfl, hon, .inr (.inr ⟨Nat.le_of_not_lt hc, by simpa using hs, by simpa using hs⟩)⟩)))
  | sysReset => cases he; exact .inr (.inr (.inr (.inr ⟨rfl, rfl⟩)))

/-- No instruction but SYS.RESET touches a transfer in progress. -/
theorem exec_progress {i : Instr} {s s' : State} (he : exec i s = .next s') (hr : i ≠ .sysReset) : s'.enq = s.enq ∧ s'.deq = s.deq := by
  cases i with
  | qIsEmpty | qIsFull | qLen | cEnc => cases he; exact ⟨rfl, rfl⟩
  | cDec b => simp only [exec, execCDec] at he; split at he <;> cases he <;> exact ⟨rfl, rfl⟩
  | qEnq u m =>
    obtain ⟨⟨ok, s₁⟩, hen, hx⟩ := andThen_eq_next he
    cases hx
    obtain ⟨_, ⟨_, rfl, _⟩ | ⟨_, _, _, rfl⟩⟩ := enqueueAs_cases hen <;> exact ⟨rfl, rfl⟩
  | qDeq u =>
    obtain ⟨⟨o, s₁⟩, hen, hx⟩ := andThen_eq_next he
    cases hx
    obtain ⟨_, ⟨_, rfl, _⟩ | ⟨_, _, _, _, rfl⟩⟩ := dequeueAs_cases hen <;> exact ⟨rfl, rfl⟩
  | rRx u b => exact ⟨(serveReceive_frame he).2.2.1, (serveReceive_frame he).2.2.2.1⟩
  | frame u f => exact ⟨(serveReceive_frame he).2.2.1, (serveReceive_frame he).2.2.2.1⟩
  | rWstart u => obtain ⟨_, m, _, _, _, rfl⟩ := execRWstart_cases he; exact ⟨rfl, rfl⟩
  | rWdone u => simp only [exec, execRWdone] at he; split at he <;> cases he; exact ⟨rfl, rfl⟩
  | rWfail u =>
    simp only [exec, execRWfail] at he
    repeat' split at he
    all_goals first | cases he; done | (cases he; exact ⟨rfl, rfl⟩)
  | nWake => simp only [exec, execNWake] at he; split at he <;> cases he; exact ⟨rfl, rfl⟩
  | nTick =>
    simp only [exec, execNTick] at he
    repeat' split at he
    all_goals (cases he; exact ⟨rfl, rfl⟩)
  | sysReset => exact absurd rfl hr

/-- A claim that no owner bars gives an owner to a free queue and leaves any other as it is (log 7). -/
theorem State.claim_owner_cases {s : State} {u : Port} {who : Party} (q : Port) (ho : ∀ p, s.owner.get u = some p → p = who) :
    (s.claim u who).owner.get q = s.owner.get q ∨ (s.owner.get q = none ∧ u = q) := by
  rw [State.claim_owner, Pair.get_set]
  split
  · subst q
    cases h : s.owner.get u with
    | none => exact .inr ⟨rfl, rfl⟩
    | some p => exact .inl (by rw [ho p h])
  · exact .inl rfl

theorem enqueueAs_owner_cases {who u m s b s₁} (q : Port) (he : enqueueAs who u m s = .next (b, s₁)) :
    s₁.owner.get q = s.owner.get q ∨ (s.owner.get q = none ∧ u = q) := by
  obtain ⟨hb, hx⟩ := enqueueAs_cases he
  have := State.claim_owner_cases q (State.producerBarred_eq_false.mp hb).2
  obtain ⟨_, rfl, _⟩ | ⟨_, _, _, rfl⟩ := hx <;> exact this

theorem dequeueAs_owner_cases {who u s o s₁} (q : Port) (he : dequeueAs who u s = .next (o, s₁)) :
    s₁.owner.get q = s.owner.get q ∨ (s.owner.get q = none ∧ u = q) := by
  obtain ⟨hb, hx⟩ := dequeueAs_cases he
  have := State.claim_owner_cases q (State.consumerBarred_eq_false.mp hb).2
  obtain ⟨_, rfl, _⟩ | ⟨_, _, _, _, rfl⟩ := hx <;> exact this

/-- What an instruction can do to the owner of queue q: only one that starts a Q.ENQ or Q.DEQ on q gives a free queue an owner, and only
SYS.RESET takes one away (70_reset_and_hazards.md R185; log 7). -/
theorem exec_owner_cases {i : Instr} {s s' : State} (q : Port) (he : exec i s = .next s') :
    s'.owner.get q = s.owner.get q
      ∨ (s.owner.get q = none ∧ (i = .qDeq q ∨ (∃ m, i = .qEnq q m) ∨ i = .rWstart q ∨ ∃ b, Receives q.other b i))
      ∨ i = .sysReset := by
  have rx : ∀ t b, serveReceive t b s = .next s' →
      s'.owner.get q = s.owner.get q ∨ (s.owner.get q = none ∧ t = q.other) := by
    intro t b he
    obtain ⟨st, _, rfl⟩ | ⟨m, ok, s₁, _, hen, rfl⟩ := serveReceive_cases he
    · exact .inl rfl
    · exact (enqueueAs_owner_cases q hen).imp id fun h => ⟨h.1, by rw [← h.2, Port.other_other]⟩
  cases i with
  | qIsEmpty | qIsFull | qLen | cEnc => cases he; exact .inl rfl
  | cDec b => simp only [exec, execCDec] at he; split at he <;> cases he <;> exact .inl rfl
  | qEnq u m =>
    obtain ⟨r, hen, hx⟩ := andThen_eq_next he; cases hx
    obtain h | ⟨h, rfl⟩ := enqueueAs_owner_cases q hen
    · exact .inl h
    · exact .inr (.inl ⟨h, .inr (.inl ⟨m, rfl⟩)⟩)
  | qDeq u =>
    obtain ⟨r, hen, hx⟩ := andThen_eq_next he; cases hx
    obtain h | ⟨h, rfl⟩ := dequeueAs_owner_cases q hen
    · exact .inl h
    · exact .inr (.inl ⟨h, .inl rfl⟩)
  | rRx u b =>
    obtain h | ⟨h, rfl⟩ := rx u b he
    · exact .inl h
    · exact .inr (.inl ⟨h, .inr (.inr (.inr ⟨b, .inl rfl⟩))⟩)
  | frame u f =>
    obtain h | ⟨h, rfl⟩ := rx u _ he
    · exact .inl h
    · exact .inr (.inl ⟨h, .inr (.inr (.inr ⟨_, .inr ⟨f, rfl, rfl⟩⟩))⟩)
  | rWstart u =>
    obtain ⟨_, m, _, _, hb, rfl⟩ := execRWstart_cases he
    obtain h | ⟨h, rfl⟩ := State.claim_owner_cases q (State.consumerBarred_eq_false.mp hb).2
    · exact .inl h
    · exact .inr (.inl ⟨h, .inr (.inr (.inl rfl))⟩)
  | rWdone u => simp only [exec, execRWdone] at he; split at he <;> cases he; exact .inl rfl
  | rWfail u =>
    simp only [exec, execRWfail] at he
    repeat' split at he
    all_goals first | cases he; done | (cases he; exact .inl rfl)
  | nWake => simp only [exec, execNWake] at he; split at he <;> cases he; exact .inl rfl
  | nTick =>
    simp only [exec, execNTick] at he
    repeat' split at he
    all_goals (cases he; exact .inl rfl)
  | sysReset => exact .inr (.inr rfl)

/-- The same for sub-steps. -/
theorem execSub_owner_cases {m : SubStep} {s s' : State} (q : Port) (he : execSub m s = .next s') :
    s'.owner.get q = s.owner.get q
      ∨ (s.owner.get q = none ∧ (m = .deqBegin q ∨ (∃ x, m = .enqBegin q x) ∨ m = .wstartBegin q)) := by
  cases m with
  | enqBegin u x =>
    simp only [execSub, subEnqBegin] at he
    repeat' split at he
    all_goals first | cases he; done | skip
    rename_i hb _
    cases he
    obtain h | ⟨h, rfl⟩ := State.claim_owner_cases q (State.producerBarred_eq_false.mp (by simpa using hb)).2
    · exact .inl h
    · exact .inr ⟨h, .inr (.inl ⟨x, rfl⟩)⟩
  | deqBegin u =>
    simp only [execSub, subDeqBegin] at he
    split at he <;> cases he
    rename_i hb
    obtain h | ⟨h, rfl⟩ := State.claim_owner_cases q (State.consumerBarred_eq_false.mp (by simpa using hb)).2
    · exact .inl h
    · exact .inr ⟨h, .inl rfl⟩
  | wstartBegin u =>
    simp only [execSub, subWstartBegin] at he
    repeat' split at he
    all_goals first | cases he; done | skip
    rename_i hb
    cases he
    obtain h | ⟨h, rfl⟩ := State.claim_owner_cases q (State.consumerBarred_eq_false.mp (by simpa using hb)).2
    · exact .inl h
    · exact .inr ⟨h, .inr (.inr rfl)⟩
  | e1 | e2 | e3 | e4 | e5 | d1 | d2 | d3 | d4 | d5 | wstartEncode | wstartTransmit =>
    simp only [execSub, subE1, subE2, subE3, subE4, subE5, subD1, subD2, subD3, subD4, subD5, subWstartEncode, subWstartTransmit] at he
    repeat' split at he
    all_goals first | cases he; done | (cases he; exact .inl rfl)

/-- A queue keeps its owner until SYS.RESET (70_reset_and_hazards.md R185; log 7). -/
theorem exec_keeps_owner {i : Instr} {s s' : State} {q : Port} {p : Party} (h : s.owner.get q = some p) (he : exec i s = .next s')
    (hr : i ≠ .sysReset) : s'.owner.get q = some p := by
  obtain h' | ⟨h', _⟩ | h' := exec_owner_cases q he
  · exact h'.trans h
  · simp [h] at h'
  · exact absurd h' hr

/-- The same for sub-steps. -/
theorem execSub_keeps_owner {m : SubStep} {s s' : State} {q : Port} {p : Party} (h : s.owner.get q = some p)
    (he : execSub m s = .next s') : s'.owner.get q = some p := by
  obtain h' | ⟨h', _⟩ := execSub_owner_cases q he
  · exact h'.trans h
  · simp [h] at h'

/-- What a sub-step can do to queue q in a state that meets the invariant: only E4 writes a slot, only E5 `tail`, only D5 `head`
(70_reset_and_hazards.md R180 to R182). -/
theorem execSub_queue_cases {m : SubStep} {s s' : State} (h : s.Inv) (q : Port) (he : execSub m s = .next s') :
    s'.cfg = s.cfg ∧ ((s'.queue q = s.queue q ∧ m ≠ .e5 q ∧ m ≠ .d5 q)
    ∨ (∃ it, m = .e4 q ∧ s'.queue q = { s.queue q with slots := (s.queue q).slots.set (s.queue q).tail (some it) })
    ∨ (∃ it, m = .e5 q ∧ inc (s.queue q).tail (s.cfg.slots q) ≠ (s.queue q).head ∧ (s.queue q).slots[(s.queue q).tail]? = some (some it)
        ∧ s'.queue q = { s.queue q with tail := inc (s.queue q).tail (s.cfg.slots q) } ∧ s'.result = .bool true)
    ∨ (∃ it, m = .d5 q ∧ (s.queue q).head ≠ (s.queue q).tail ∧ (s.queue q).slots[(s.queue q).head]? = some (some it)
        ∧ s'.queue q = { s.queue q with head := inc (s.queue q).head (s.cfg.slots q) })) := by
  cases m with
  | enqBegin u m =>
    simp only [execSub, subEnqBegin] at he
    repeat' split at he
    all_goals first | cases he; done | (cases he; exact ⟨rfl, .inl ⟨rfl, by simp, by simp⟩⟩)
  | e1 u => simp only [execSub, subE1] at he; split at he <;> cases he; exact ⟨rfl, .inl ⟨rfl, by simp, by simp⟩⟩
  | e2 u => simp only [execSub, subE2] at he; split at he <;> cases he; exact ⟨rfl, .inl ⟨rfl, by simp, by simp⟩⟩
  | e3 u =>
    simp only [execSub, subE3] at he
    repeat' split at he
    all_goals first | cases he; done | (cases he; exact ⟨rfl, .inl ⟨rfl, by simp, by simp⟩⟩)
  | deqBegin u => simp only [execSub, subDeqBegin] at he; split at he <;> cases he; exact ⟨rfl, .inl ⟨rfl, by simp, by simp⟩⟩
  | wstartBegin u =>
    simp only [execSub, subWstartBegin] at he
    repeat' split at he
    all_goals first | cases he; done | (cases he; exact ⟨rfl, .inl ⟨rfl, by simp, by simp⟩⟩)
  | d1 u => simp only [execSub, subD1] at he; split at he <;> cases he; exact ⟨rfl, .inl ⟨rfl, by simp, by simp⟩⟩
  | d2 u => simp only [execSub, subD2] at he; split at he <;> cases he; exact ⟨rfl, .inl ⟨rfl, by simp, by simp⟩⟩
  | d3 u =>
    simp only [execSub, subD3] at he
    repeat' split at he
    all_goals first | cases he; done | (cases he; exact ⟨rfl, .inl ⟨rfl, by simp, by simp⟩⟩)
  | d4 u =>
    simp only [execSub, subD4] at he
    repeat' split at he
    all_goals first | cases he; done | (cases he; exact ⟨rfl, .inl ⟨rfl, by simp, by simp⟩⟩)
  | wstartEncode u => simp only [execSub, subWstartEncode] at he; split at he <;> cases he; exact ⟨rfl, .inl ⟨rfl, by simp, by simp⟩⟩
  | wstartTransmit u => simp only [execSub, subWstartTransmit] at he; split at he <;> cases he; exact ⟨rfl, .inl ⟨rfl, by simp, by simp⟩⟩
  | e4 u =>
    simp only [execSub, subE4] at he
    split at he
    case h_2 => cases he
    rename_i it t0 hh hg
    split at he
    case h_2 => cases he
    rename_i slots hw
    cases he
    obtain ⟨_, rfl⟩ := slotWrite_eq_ok hw
    refine ⟨rfl, ?_⟩
    rcases Port.eq_or_eq_other u q with rfl | rfl
    · right; left
      have := (h.enq _ _ hg).1.t0_eq _ rfl
      exact ⟨it, rfl, by simp [← this]⟩
    · left; simp
  | e5 u =>
    simp only [execSub, subE5] at he
    split at he
    case h_2 => cases he
    rename_i it t0 hh hg
    cases he
    refine ⟨rfl, ?_⟩
    rcases Port.eq_or_eq_other u q with rfl | rfl
    · right; right; left
      have hI := (h.enq _ _ hg).1
      have h0 := hI.t0_eq _ rfl
      obtain ⟨_, y, hy, hne⟩ := hI.room (by simp)
      obtain ⟨hyn, hle⟩ := hI.h_older y hy
      have hq := h.queue q
      refine ⟨it, rfl, ?_, hI.slot rfl, by simp [h0], rfl⟩
      intro hf
      have h1 := (occupancy_full hq.head_lt hq.tail_lt).mpr hf
      have h2 := occupancy_lt hyn hq.tail_lt
      simp only [Queue.len] at hle
      exact hne ((occupancy_full hyn hq.tail_lt).mp (by omega))
    · left; refine ⟨by simp, ?_, by simp⟩; cases u <;> simp [Port.other]
  | d5 u =>
    simp only [execSub, subD5] at he
    have key : ∀ p h0 t it, s.deq.get u = some ⟨p, some h0, t, .copied it⟩ → h0 = (s.queue u).head ∧ (s.queue u).head ≠ (s.queue u).tail ∧ (s.queue u).slots[(s.queue u).head]? = some (some it) := by
      intro p h0 t it hg
      have hI := (h.deq _ _ hg).1
      obtain ⟨a, b, c, d⟩ := hI.before_d5 (by simp) (by simp)
      obtain ⟨_, y, hy, hne⟩ := d (by simp)
      obtain ⟨hyn, hle⟩ := b y hy
      refine ⟨a _ rfl, ?_, hI.copied _ rfl⟩
      intro hq
      have hq' := h.queue u
      simp only [Queue.len] at hle
      rw [(occupancy_eq_zero hq'.head_lt).mpr hq] at hle
      exact hne ((occupancy_eq_zero hq'.head_lt).mp (by omega)).symm
    split at he
    case h_3 => cases he
    all_goals
      rename_i hg
      cases he
      refine ⟨rfl, ?_⟩
      rcases Port.eq_or_eq_other u q with rfl | rfl
      · right; right; right
        obtain ⟨h1, h2, h3⟩ := key _ _ _ _ hg
        exact ⟨_, rfl, h2, h3, by simp [h1]⟩
      · left; refine ⟨by simp, by simp, ?_⟩; cases u <;> simp [Port.other]

/-- The next record of the trace. -/
theorem fetchRecord_cases {s s1 : State} {i} (hf : fetchRecord s = .instr i s1) : ∃ rest, decode s.cfg.k s.trace = .ok (i, rest) ∧ s1 = { s with trace := rest } := by
  unfold fetchRecord at hf
  split at hf
  · rename_i j rest hd; cases hf; exact ⟨rest, hd, rfl⟩
  · cases hf
/-- A record is no sub-step. -/
theorem fetchRecord_not_sub {s s1 : State} {m} (hf : fetchRecord s = .sub m s1) : False := by
  unfold fetchRecord at hf; split at hf <;> cases hf

/-- Where a fetched instruction comes from (log 3). -/
theorem fetch_instr_cases {s s1 : State} {i} (hf : fetch s = .instr i s1) : s.cfg.wf = true ∧ (∃ tr tu, s1 = { s with trace := tr, turns := tu })
   ∧ ((∃ rest, decode s.cfg.k s.trace = .ok (i, rest)) ∨ ∃ t b, i = decodeWire s.cfg.k t b) := by
  unfold fetch at hf
  split at hf
  case isFalse => cases hf
  rename_i hwf
  refine ⟨hwf, ?_⟩
  split at hf
  · obtain ⟨rest, hd, rfl⟩ := fetchRecord_cases hf; exact ⟨⟨_, _, rfl⟩, .inl ⟨_, hd⟩⟩
  · obtain ⟨rest, hd, rfl⟩ := fetchRecord_cases hf; exact ⟨⟨_, _, rfl⟩, .inl ⟨_, hd⟩⟩
  · cases hf; exact ⟨⟨_, _, rfl⟩, .inr ⟨_, _, rfl⟩⟩
  · cases hf

/-- Where a fetched sub-step comes from (log 3). -/
theorem fetch_sub_cases {s s1 : State} {m} (hf : fetch s = .sub m s1) : s.cfg.wf = true ∧ ∃ tu, s1 = { s with turns := tu } := by
  unfold fetch at hf
  split at hf
  case isFalse => cases hf
  rename_i hwf
  refine ⟨hwf, ?_⟩
  split at hf
  · exact (fetchRecord_not_sub hf).elim
  · exact (fetchRecord_not_sub hf).elim
  · cases hf
  · cases hf; exact ⟨_, rfl⟩

/-- A step is an instruction or a sub-step. -/
theorem step_cases {s s' : State} (he : step s = .next s') : (∃ i s1, fetch s = .instr i s1 ∧ exec i s1 = .next s') ∨ ∃ m s1, fetch s = .sub m s1 ∧ execSub m s1 = .next s' := by
  unfold step at he
  split at he
  · exact .inl ⟨_, _, ‹_›, he⟩
  · exact .inr ⟨_, _, ‹_›, he⟩
  · cases he

/-- A fetched instruction is well-formed, or it is R.RX with the bytes of a wire. -/
theorem fetch_instr_wf {s s1 : State} {i} (hf : fetch s = .instr i s1) : i.wf s.cfg.k = true ∨ ∃ t b, i = .rRx t b := by
  obtain ⟨_, _, ⟨rest, hd⟩ | ⟨t, b, rfl⟩⟩ := fetch_instr_cases hf
  · exact .inl (decode_wf hd)
  · exact decodeWire_wf _ t b

/-- A script in two parts. -/
theorem execAll_append (xs ys : List Instr) (s : State) : execAll (xs ++ ys) s = andThen (execAll xs s) (execAll ys) := by
  induction xs generalizing s with
  | nil => rfl
  | cons x xs ih =>
    simp only [List.cons_append, execAll]
    cases exec x s <;> simp [ih]

end Sys2Proof.Machine
end

