-- ==== Sys2Proof/Tests/Slice0.lean ====
section
/-! SUPPORT. Sys2Proof/Tests/Slice0.lean: ill-formed terms, words of the spec decoded, single steps with the results of 95_test_vectors.md,
and for each obligation states and operands that meet its hypotheses. -/

namespace Sys2Proof.Tests

open Sys2Proof.Machine

/-! ### The test configuration, frames and Messages of 95_test_vectors.md section 1 -/

/-- CFG_T. -/
def cfgT : Config := { k := 7, n := ⟨4, 4⟩, ncmd := 8, table := Config.tableT, holdTicks := 3, txRetryMax := 0 }

/-- CFG_T1, "CFG_T with TX_RETRY_MAX = 1". -/
def cfgT1 : Config := { cfgT with txRetryMax := 1 }

def f1 : List Byte := [0x03, 0x01, 0x02, 0x05, 0xAA, 0xBB, 0, 0, 0, 0, 0]
def f2 : List Byte := [0xFF, 0x01, 0x02, 0x01, 0x11, 0x22, 0x33, 0x44, 0x55, 0x66, 0x77]
def f2' : List Byte := [0x03, 0x01, 0x02, 0x01, 0x11, 0x22, 0x33, 0x44, 0x55, 0x66, 0x77]
def f4 : List Byte := [0xFE, 0x02, 0x01, 0x03, 0x01, 0x02, 0x03, 0x04, 0, 0, 0]
def fu : List Byte := [0x03, 0x01, 0x02, 0x04, 0, 0, 0, 0, 0, 0, 0]
def fs : List Byte := [0x03, 0x01, 0x02]

def m1 : Message := ⟨3, 1, 2, 5, 2, [0xAA, 0xBB, 0, 0, 0, 0, 0]⟩
def m2 : Message := ⟨3, 1, 2, 1, 7, [0x11, 0x22, 0x33, 0x44, 0x55, 0x66, 0x77]⟩
def m3 : Message := ⟨0, 9, 8, 2, 0, [0xDE, 0xAD, 0xBE, 0xEF, 0, 0, 1]⟩
def m4 : Message := ⟨254, 2, 1, 3, 4, [1, 2, 3, 4, 0, 0, 0]⟩

def ma : Message := ⟨1, 1, 2, 1, 7, [0xA0, 0, 0, 0, 0, 0, 0]⟩
def mb : Message := ⟨2, 1, 2, 1, 7, [0xB0, 0, 0, 0, 0, 0, 0]⟩
def mc : Message := ⟨3, 1, 2, 1, 7, [0xC0, 0, 0, 0, 0, 0, 0]⟩
def md : Message := ⟨4, 1, 2, 1, 7, [0xD0, 0, 0, 0, 0, 0, 0]⟩

/-! ### Small states -/

/-- CFG_T right after reset. -/
def s0 : State := State.resetWith cfgT

/-- Q[0] driven by the script, with the given indices and slots. -/
def scripted (head tail : Nat) (slots : Memory) : State :=
  { s0 with queues := ⟨⟨slots, head, tail⟩, Queue.reset 4⟩, owner := ⟨some .script, none⟩ }

/-- Q[1] filled by the receive handler of UART, with the given indices and slots. -/
def routedCan (c : Config) (head tail : Nat) (slots : Memory) : State :=
  { State.resetWith c with queues := ⟨Queue.reset 4, ⟨slots, head, tail⟩⟩, owner := ⟨none, some .router⟩ }

/-- S6 after its line 4: head = 1, tail = 3. -/
def sixFour : State := scripted 1 3 [some ma, some mb, some mc, none]

/-- S6 after its line 5: head = 1, tail = 0, full. -/
def sixFive : State := scripted 1 0 [some ma, some mb, some mc, some md]

/-- S6 after its line 8: head = 3, tail = 0. -/
def sixEight : State := scripted 3 0 [some ma, some mb, some mc, some md]

/-- RV1, P5: Q[1] full with head = 0, tail = 3. -/
def fullCan : State := routedCan cfgT 0 3 [some m1, some m2, some m3, none]

/-- P5's start: Q[1] holds M1. -/
def oneCan : State := routedCan cfgT 0 1 [some m1, none, none, none]

/-- RV1's last line: Q[1] with head = 1, tail = 3. -/
def wrapCan : State := routedCan cfgT 1 3 [some m1, some m2, some m3, none]

/-- P1 after its line 3, at a given TX_RETRY_MAX and retry: worker 1 transmits F1. -/
def busyCan (c : Config) (retry : Nat) : State :=
  { routedCan c 1 1 [some m1, none, none, none] with
    workers := ⟨Worker.reset, ⟨.busy, some f1, retry⟩⟩
    out := { Streams.reset with tx := ⟨[], [.txStart .can f1]⟩ } }

/-- P1 after its line 4: a signal is pending. -/
def signalled : State := { s0 with ntf := ⟨.off, true, 0⟩ }

/-- The notifier ON with the given signal and ticks left. -/
def lit (sig : Bool) (cnt : Nat) : State :=
  { s0 with ntf := ⟨.on, sig, cnt⟩, out := { Streams.reset with ind := [.activate] } }

/-- Worker 1 between two sub-steps of its R.WSTART, on the queue of oneCan. -/
def insideWstart (p : DeqProgress) : State := { oneCan with deq := ⟨none, some p⟩ }

/-- The script between two sub-steps of its Q.ENQ of D, on the queue of sixFour. -/
def insideEnq (p : EnqProgress) (x : State) : State := { x with enq := ⟨some p, none⟩ }

/-- The next state, if there is one. -/
def nextOf (o : Out State) : Option State :=
  match o with
  | .next s => some s
  | .fault _ => none
  | .refused _ => none

/-- The refusal, if there is one. -/
def refusalOfOut (o : Out State) : Option Refusal :=
  match o with
  | .next _ => none
  | .fault _ => none
  | .refused r => some r

/-! ### WellFormed and Config.wf refuse what is ill-formed -/

theorem test_wf_qEnq_refuses_short_body : Instr.wf 7 (.qEnq .uart { m1 with body := [1, 2] }) = false := by decide
theorem test_wf_cEnc_refuses_long_body : Instr.wf 6 (.cEnc m1) = false := by decide
theorem test_wf_cDec_refuses_256_bytes (b : List Byte) (h : b.length = 256) : Instr.wf 7 (.cDec b) = false := by
  simp [Instr.wf, bytesWf, h]
theorem test_wf_rRx_refuses_256_bytes (b : List Byte) (h : b.length = 256) : Instr.wf 7 (.rRx .can b) = false := by
  simp [Instr.wf, bytesWf, h]
theorem test_wf_frame_refuses_other_width : Instr.wf 9 (.frame .uart ⟨3, 1, 2, 5, m1.body⟩) = false := by decide

/-- CV4: `TABLE[1] = Some(255, 7)`. -/
theorem test_config_refuses_sentinel_priority : Config.wf { cfgT with table := Config.tableT.set 1 (some ⟨255, 7⟩) } = false := by
  decide
theorem test_config_refuses_sentinel_body_size : Config.wf { cfgT with table := Config.tableT.set 1 (some ⟨3, 255⟩) } = false := by
  decide
theorem test_config_refuses_one_slot : Config.wf { cfgT with n := ⟨4, 1⟩ } = false := by decide
theorem test_config_refuses_one_slot_uart : Config.wf { cfgT with n := ⟨1, 4⟩ } = false := by decide
theorem test_config_refuses_no_commands : Config.wf { cfgT with ncmd := 0, table := [] } = false := by decide
theorem test_config_refuses_257_commands : Config.wf { cfgT with ncmd := 257, table := List.replicate 257 none } = false := by decide
theorem test_config_refuses_table_of_other_size : Config.wf { cfgT with ncmd := 9 } = false := by decide
theorem test_config_refuses_no_body : Config.wf { cfgT with k := 0 } = false := by decide
theorem test_config_refuses_wide_frame : Config.wf { cfgT with k := 252 } = false := by decide
theorem test_config_refuses_no_hold : Config.wf { cfgT with holdTicks := 0 } = false := by decide
theorem test_config_accepts_cfgT : cfgT.wf = true ∧ cfgT1.wf = true ∧ Config.atReset.wf = true := by decide

/-- 00_scope.md R6: W = 11 at K = 7; IDXW = 2 at N = 4 and at N = 3, 1 at N = 2, 5 at N = 32. -/
theorem test_derived_parameters :
    cfgT.w = 11 ∧ cfgT.idxw .uart = 2 ∧ Config.idxw { cfgT with n := ⟨3, 2⟩ } .uart = 2
      ∧ Config.idxw { cfgT with n := ⟨3, 2⟩ } .can = 1 ∧ Config.atReset.idxw .can = 5 := by
  decide

/-! ### Words of the spec decode to what they stand for (30_encoding.md R70; 95_test_vectors.md sections 2, 4, 7, 8) -/

theorem test_decode_qIsEmpty : decode 7 [0x11] = .ok (.qIsEmpty .can, []) := by rfl
theorem test_decode_qIsFull : decode 7 [0x20] = .ok (.qIsFull .uart, []) := by rfl
/-- S6 line 1. -/
theorem test_decode_qEnq : decode 7 [0x30, 0x01, 0x01, 0x02, 0x01, 0x07, 0xA0, 0, 0, 0, 0, 0, 0] = .ok (.qEnq .uart ma, []) := by rfl
theorem test_decode_qDeq : decode 7 [0x41, 0x40] = .ok (.qDeq .can, [0x40]) := by rfl
theorem test_decode_qLen : decode 7 [0x51] = .ok (.qLen .can, []) := by rfl
/-- CE1's record. -/
theorem test_decode_cEnc : decode 7 [0x60, 0x03, 0x01, 0x02, 0x05, 0x02, 0xAA, 0xBB, 0, 0, 0, 0, 0] = .ok (.cEnc m1, []) := by rfl
/-- CD1's record. -/
theorem test_decode_cDec :
    decode 7 [0x70, 0x0B, 0xFF, 0x01, 0x02, 0x01, 0x11, 0x22, 0x33, 0x44, 0x55, 0x66, 0x77] = .ok (.cDec f2, []) := by rfl
/-- CD11's record. -/
theorem test_decode_cDec_empty : decode 7 [0x70, 0x00] = .ok (.cDec [], []) := by rfl
/-- P3 lines 1 and 3. -/
theorem test_decode_rRx : decode 7 [0x80, 0x03, 0x03, 0x01, 0x02, 0x80, 0x00] = .ok (.rRx .uart fs, [0x80, 0x00]) := by rfl
theorem test_decode_rWstart : decode 7 [0x91] = .ok (.rWstart .can, []) := by rfl
theorem test_decode_rWdone : decode 7 [0xA0] = .ok (.rWdone .uart, []) := by rfl
theorem test_decode_rWfail : decode 7 [0xB1] = .ok (.rWfail .can, []) := by rfl
theorem test_decode_nWake : decode 7 [0xC0] = .ok (.nWake, []) := by rfl
theorem test_decode_nTick : decode 7 [0xD0] = .ok (.nTick, []) := by rfl
theorem test_decode_sysReset : decode 7 [0xF0] = .ok (.sysReset, []) := by rfl
/-- The frame pattern's example (95_test_vectors.md section 8): F1, p = 3, s = 1, r = 2, c = 5. -/
theorem test_decode_frame : decodeWire 7 .uart f1 = .frame .uart ⟨3, 1, 2, 5, [0xAA, 0xBB, 0, 0, 0, 0, 0]⟩ := by rfl
theorem test_decode_wire_of_other_length : decodeWire 7 .can fs = .rRx .can fs := by rfl

/-- The list of refused first bytes of 95_test_vectors.md section 8. -/
theorem test_reserved_opids_refused :
    ([0x00, 0xE0, 0x12, 0x9E, 0x61, 0x71, 0xC1, 0xD1, 0xF1, 0xFF] : List Byte).all (fun b => (findOp opTable b).isNone) = true := by
  decide
theorem test_decode_truncated : decode 7 [0x70, 0x02, 0x03] = .error (.truncated 0x70) := by rfl
theorem test_decode_end : decode 7 [] = .error .endOfTrace := by rfl

/-- No opid belongs to two rows. -/
theorem test_no_two_rows_overlap :
    opTable.Pairwise fun a b => (a.value ^^^ b.value) &&& a.mask &&& b.mask ≠ 0 := by
  decide

/-- The trace bytes of S6 lines 0, 1 and 4, and P4b's R.RX. -/
theorem test_trace_bytes :
    traceBytes [.op .sysReset, .op (.qEnq .uart ma), .op (.qDeq .uart)]
        = [0xF0, 0x30, 0x01, 0x01, 0x02, 0x01, 0x07, 0xA0, 0, 0, 0, 0, 0, 0, 0x40]
      ∧ traceBytes [.op (.rRx .uart f1)] = [0x80, 0x0B, 0x03, 0x01, 0x02, 0x05, 0xAA, 0xBB, 0, 0, 0, 0, 0] := by
  decide

/-- RV4: the pseudo-operation's real operations; `N.TICK*3`. -/
theorem test_pseudo_operations :
    (ScriptLine.relay .uart f1).expand = [.rRx .uart f1, .rWstart .can, .rWdone .can]
      ∧ (ScriptLine.ticks 3).expand = [.nTick, .nTick, .nTick] := by
  decide

/-! ### The opcode table's words -/

theorem test_table_words_without_operands :
    decodeTableWord 8 0x10 = some (.qIsEmpty .uart) ∧ decodeTableWord 8 0x21 = some (.qIsFull .can)
      ∧ decodeTableWord 8 0x40 = some (.qDeq .uart) ∧ decodeTableWord 8 0x51 = some (.qLen .can) := by
  decide

theorem test_table_words_of_router_and_notifier :
    decodeTableWord 8 0x90 = some (.rWstart .uart) ∧ decodeTableWord 8 0xA1 = some (.rWdone .can)
      ∧ decodeTableWord 8 0xB0 = some (.rWfail .uart) ∧ decodeTableWord 8 0xC0 = some .nWake
      ∧ decodeTableWord 8 0xD0 = some .nTick ∧ decodeTableWord 8 0xF0 = some .sysReset := by
  decide

theorem test_table_words_with_operands :
    decodeTableWord 8 0x31 = some (.qEnq .can ⟨0, 0, 0, 0, 0, [0, 0, 0, 0, 0, 0, 0]⟩)
      ∧ decodeTableWord 8 0x60 = some (.cEnc ⟨0, 0, 0, 0, 0, [0, 0, 0, 0, 0, 0, 0]⟩)
      ∧ decodeTableWord 8 0x70 = some (.cDec []) ∧ decodeTableWord 8 0x80 = some (.rRx .uart []) :=
  ⟨by decide, by decide, by decide, by decide⟩

/-- F1 as `F[87:0]`, byte i in bits 8i+7..8i (30_encoding.md R61). -/
theorem test_table_word_frame :
    decodeTableWord 88 0x0000000000BBAA05020103 = some (.frame .uart ⟨3, 1, 2, 5, [0xAA, 0xBB, 0, 0, 0, 0, 0]⟩) := by
  decide

theorem test_table_word_reserved : decodeTableWord 8 0x12 = none := by decide

/-- The two halves of a table word: byte order, and packing is its inverse. -/
theorem test_pack_bytes : unpackBytes 3 0x020103 = [0x03, 0x01, 0x02] ∧ packBytes [0x03, 0x01, 0x02] = 0x020103 := by decide

theorem test_fetch_word_qLen :
    (nextOf (step (State.reset.withFetchWord 8 0x51))).map (·.result) = some (.len 0) := by decide
theorem test_fetch_word_frame :
    (nextOf (step (State.reset.withFetchWord 88 0x0000000000BBAA05020103))).map (·.result) = some (.status .ok) := by decide

theorem test_fetch_word_qEnq :
    (nextOf (step (State.reset.withFetchWord 8 0x30))).map (·.result) = some (.bool true) := by decide
theorem test_fetch_word_rRx :
    (nextOf (step (State.reset.withFetchWord 8 0x81))).map (·.result) = some (.status .malformedFrame) := by decide

/-- RV3: from reset R.WSTART is not enabled, "no move". -/
theorem test_fetch_word_rWstart_not_enabled :
    refusalOfOut (step (State.reset.withFetchWord 8 0x90)) = some (.notEnabled .rWstart) := by decide

/-! ### One step each, with the results of 95_test_vectors.md -/

/-- Q1, and 41_queue.md R90's second example. -/
theorem test_qIsEmpty : (nextOf (exec (.qIsEmpty .uart) s0)).map (·.result) = some (.bool true)
    ∧ (nextOf (exec (.qIsEmpty .uart) sixFour)).map (·.result) = some (.bool false) := by decide

/-- S6 line 5's state is full by the wrap: head = 1, tail = 0. -/
theorem test_qIsFull : (nextOf (exec (.qIsFull .uart) sixFive)).map (·.result) = some (.bool true)
    ∧ (nextOf (exec (.qIsFull .uart) sixFour)).map (·.result) = some (.bool false) := by decide

/-- "At step 6 Q.LEN 0 would give 0 + 4 - 1 = 3". -/
theorem test_qLen : (nextOf (exec (.qLen .uart) sixFive)).map (·.result) = some (.len 3) := by decide

/-- S6 line 5: `Q.ENQ 0, D` at head = 1, tail = 3. -/
theorem test_qEnq_wraps : (nextOf (exec (.qEnq .uart md) sixFour)).map (fun s => (s.result, s.queue .uart))
    = some (.bool true, ⟨[some ma, some mb, some mc, some md], 1, 0⟩) := by decide

/-- S6 line 6: the full queue refuses E and stays. -/
theorem test_qEnq_full : (nextOf (exec (.qEnq .uart m4) sixFive)).map (fun s => (s.result, s.queue .uart))
    = some (.bool false, ⟨[some ma, some mb, some mc, some md], 1, 0⟩) := by decide

/-- S6 line 9: `Q.DEQ 0` at head = 3. -/
theorem test_qDeq_wraps : (nextOf (exec (.qDeq .uart) sixEight)).map (fun s => (s.result, s.queue .uart))
    = some (.item (some md), ⟨[some ma, some mb, some mc, some md], 0, 0⟩) := by decide

/-- Q1: `Q.DEQ 0 => (_, false)`. The queue is the script's from then on, so that after a script's Q.DEQ 1 that found nothing R.RX 0 is a
second party's Q.ENQ (70_reset_and_hazards.md R185; log 7). -/
theorem test_qDeq_empty : (nextOf (exec (.qDeq .uart) s0)).map (fun s => (s.result, s.queue .uart, s.owner.uart))
      = some (.item none, ⟨[none, none, none, none], 0, 0⟩, some .script)
    ∧ refusalOfOut (exec (.rRx .uart f1) { s0 with owner := ⟨none, some .script⟩ }) = some (.secondProducer .can) := by decide

/-- CE4: no validity check, no table lookup. -/
theorem test_cEnc_unchecked :
    (nextOf (exec (.cEnc ⟨255, 0, 0, 4, 255, [255, 255, 255, 255, 255, 255, 255]⟩) s0)).map (·.result)
      = some (.frame [0xFF, 0, 0, 0x04, 255, 255, 255, 255, 255, 255, 255]) := by decide

/-- CE5: body byte i at frame byte 4 + i. -/
theorem test_cEnc_positions :
    (nextOf (exec (.cEnc ⟨0, 255, 255, 255, 0, [0, 1, 2, 3, 4, 5, 6]⟩) s0)).map (·.result)
      = some (.frame [0x00, 0xFF, 0xFF, 0xFF, 0, 1, 2, 3, 4, 5, 6]) := by decide

/-- CD1, CD4: 255 is resolved, 254 is literal. -/
theorem test_cDec_sentinel : (nextOf (exec (.cDec f2) s0)).map (·.result) = some (.message m2)
    ∧ (nextOf (exec (.cDec f4) s0)).map (·.result) = some (.message m4) := by decide

/-- CD6, CD8, CD12, CD14. -/
theorem test_cDec_errors : (nextOf (exec (.cDec fu) s0)).map (·.result) = some (.status .unknownCommand)
    ∧ (nextOf (exec (.cDec [3, 1, 2, 8, 0, 0, 0, 0, 0, 0, 0]) s0)).map (·.result) = some (.status .unknownCommand)
    ∧ (nextOf (exec (.cDec [3, 1, 2, 5, 0xAA, 0xBB, 0, 0, 0, 0]) s0)).map (·.result) = some (.status .malformedFrame)
    ∧ (nextOf (exec (.cDec [3, 1, 2, 4, 0, 0, 0, 0, 0, 0]) s0)).map (·.result) = some (.status .malformedFrame) := by decide

/-- RV1: the statuses in their order, and the store at slot 3 with `tail` back at 0. -/
theorem test_rRx_statuses :
    (nextOf (exec (.rRx .uart [3, 1, 2, 4, 0, 0, 0, 0, 0, 0]) fullCan)).map (·.result) = some (.status .malformedFrame)
      ∧ (nextOf (exec (.rRx .uart fu) fullCan)).map (·.result) = some (.status .unknownCommand)
      ∧ (nextOf (exec (.rRx .uart f1) fullCan)).map (·.result) = some (.status .queueFull) := by decide

theorem test_rRx_stores : (nextOf (exec (.rRx .uart f1) wrapCan)).map (fun s => (s.result, s.queue .can, s.out))
    = some (.status .ok, ⟨[some m1, some m2, some m3, some m1], 1, 0⟩,
        ⟨⟨[], []⟩, ⟨[.rearm .uart], []⟩, [], ⟨[.rxStatus .uart .ok], []⟩⟩) := by decide

/-- P2 line 2, P3 line 4: F2 is stored as M2, its priority resolved; RV2: what CAN receives goes to Q[0]. -/
theorem test_frame_stores_resolved :
    (nextOf (exec (.frame .can ⟨0xFF, 1, 2, 1, [0x11, 0x22, 0x33, 0x44, 0x55, 0x66, 0x77]⟩) s0)).map
        (fun s => (s.result, s.queue .uart, s.queue .can))
      = some (.status .ok, ⟨[some m2, none, none, none], 0, 1⟩, ⟨[none, none, none, none], 0, 0⟩) := by decide

/-- P1 line 3. -/
theorem test_rWstart : (nextOf (exec (.rWstart .can) oneCan)).map (fun s => (s.queue .can, s.worker .can, s.out.tx.can))
    = some (⟨[some m1, none, none, none], 1, 1⟩, ⟨.busy, some f1, 0⟩, [.txStart .can f1]) := by decide

/-- P2 line 12: M2 leaves as F2'. -/
theorem test_rWstart_resolved_frame :
    (nextOf (exec (.rWstart .can) wrapCan)).map (fun s => (s.worker .can).txbuf) = some (some f2') := by decide

/-- P1 line 4: the signal is set, the worker IDLE, `txbuf` kept. -/
theorem test_rWdone : (nextOf (exec (.rWdone .can) (busyCan cfgT 0))).map (fun s => (s.ntf, s.worker .can, s.out.ind))
    = some (⟨.off, true, 0⟩, ⟨.idle, some f1, 0⟩, []) := by decide

/-- P4 line 4. -/
theorem test_rWfail_retries : (nextOf (exec (.rWfail .can) (busyCan cfgT1 0))).map (fun s => (s.worker .can, s.out.tx.can, s.ntf.sig))
    = some (⟨.busy, some f1, 1⟩, [.txStart .can f1, .txStart .can f1], false) := by decide

/-- P4 line 5. -/
theorem test_rWfail_drops : (nextOf (exec (.rWfail .can) (busyCan cfgT1 1))).map (fun s => (s.worker .can, s.out.tx.can, s.ntf.sig))
    = some (⟨.idle, some f1, 1⟩, [.txStart .can f1], false) := by decide

/-- P1 line 5. -/
theorem test_nWake : (nextOf (exec .nWake signalled)).map (fun s => (s.ntf, s.out.ind)) = some (⟨.on, false, 3⟩, [.activate]) := by decide

/-- NV1: the third tick; a tick while OFF leaves the pending signal alone. -/
theorem test_nTick_ends_hold : (nextOf (exec .nTick (lit false 1))).map (fun s => (s.ntf, s.out.ind))
      = some (⟨.off, false, 0⟩, [.activate, .deactivate])
    ∧ (nextOf (exec .nTick signalled)).map (fun s => (s.ntf, s.out.ind)) = some (⟨.off, true, 0⟩, []) := by decide

/-- NV2: the hold ends with a signal pending; P3 line 9: a tick in the hold. -/
theorem test_nTick_restarts_hold : (nextOf (exec .nTick (lit true 1))).map (fun s => (s.ntf, s.out.ind)) = some (⟨.on, false, 3⟩, [.activate])
    ∧ (nextOf (exec .nTick (lit true 3))).map (·.ntf) = some ⟨.on, true, 2⟩ := by decide

/-- NV6: no Deactivate on reset. -/
theorem test_sysReset : nextOf (exec .sysReset (lit false 2)) = some s0 := by decide

/-- U3: a script's Q.ENQ on a queue the router uses. -/
theorem test_second_producer : refusalOfOut (exec (.qEnq .can ma) oneCan) = some (.secondProducer .can) := by decide

/-- Q7 (c): E3 fails with the stale h although room has appeared. -/
theorem test_e3_stale_head :
    (nextOf (execSub (.e3 .uart) (insideEnq ⟨md, some 3, some 0, .reading⟩ (scripted 1 3 [some ma, some mb, some mc, none])))).map
        (fun s => (s.result, s.queue .uart)) = some (.bool false, ⟨[some ma, some mb, some mc, none], 1, 3⟩) := by decide

/-- P5: D3 passes with the stale t. -/
theorem test_d3_stale_tail :
    (nextOf (execSub (.d3 .can) { routedCan cfgT 0 2 [some m1, some m3, none, none] with
      deq := ⟨none, some ⟨.router, some 0, some 1, .reading⟩⟩ })).map (fun s => s.deq.can)
      = some (some ⟨.router, some 0, some 1, .tested⟩) := by decide

/-- 30_encoding.md R67, R69: codes; 10_state.md R23: the pipeline view. -/
theorem test_codes_and_views :
    enqStatus false = .queueFull ∧ deqStatus none = .queueEmpty ∧ WState.code .busy = 1 ∧ NtfState.code .on = 1
      ∧ s0.pipeState .can = .idle ∧ oneCan.pipeState .can = .messageAvailable
      ∧ (busyCan cfgT 0).pipeState .can = .messageAvailable ∧ s0.quiescent = true ∧ oneCan.quiescent = false := by decide

/-! ### For each obligation with hypotheses: a state and operands that meet them, clause by clause -/

theorem constraints_cfgT : Constraints cfgT := by
  refine ⟨by decide, by decide, fun q => by cases q <;> decide, by decide, by decide, by decide, ?_, by decide⟩
  intro e he
  simp only [cfgT, Config.tableT, List.mem_cons, Option.some.injEq, List.not_mem_nil, reduceCtorEq, false_or, or_false] at he
  rcases he with rfl | rfl | rfl | rfl <;> decide

theorem s0_inv : s0.Inv := State.inv_of_invB (by decide)
theorem sixFour_inv : sixFour.Inv := State.inv_of_invB (by decide)
theorem sixFive_inv : sixFive.Inv := State.inv_of_invB (by decide)
theorem fullCan_inv : fullCan.Inv := State.inv_of_invB (by decide)
theorem oneCan_inv : oneCan.Inv := State.inv_of_invB (by decide)
theorem wrapCan_inv : wrapCan.Inv := State.inv_of_invB (by decide)

theorem witness_DecodeEncodeAgree : Instr.wf 7 (.qEnq .can m1) = true ∧ Instr.wf 7 (.frame .uart ⟨3, 1, 2, 5, m1.body⟩) = true := by
  decide
/-- L = 255, the largest length byte. -/
theorem witness_DecodeEncodeAgree_longest (b : List Byte) (h : b.length = 255) : Instr.wf 7 (.rRx .can b) = true := by
  simp [Instr.wf, bytesWf, h]
theorem witness_ReservedOpidsRefused : ∃ (s : State) (b : Byte) (rest : List Byte),
    s.cfg.wf = true ∧ s.turns = [] ∧ s.trace = b :: rest ∧ reservedOpid b = true :=
  ⟨{ s0 with trace := [0xF1] }, 0xF1, [], by decide, rfl, rfl, by decide⟩
theorem witness_ReservedOpidsRefused_turn : ∃ (s : State) (b : Byte) (rest : List Byte) (ts : List Turn),
    s.cfg.wf = true ∧ s.turns = .record :: ts ∧ s.trace = b :: rest ∧ reservedOpid b = true :=
  ⟨{ s0 with trace := [0x32], turns := [.record] }, 0x32, [], [], by decide, rfl, rfl, by decide⟩
theorem witness_ReservedOpidsRefused_other : reservedOpid 0x10 = false ∧ reservedOpid 0xF0 = false := by decide
theorem witness_StepRunsDecodedRecord : ∃ (s : State) (i : Instr) (rest : List Byte),
    s.cfg.wf = true ∧ decode s.cfg.k s.trace = .ok (i, rest) ∧ s.turns = [] :=
  ⟨{ s0 with trace := [0x51, 0xF0] }, .qLen .can, [0xF0], by decide, rfl, rfl⟩
theorem witness_StepRunsDecodedRecord_turn : ∃ (s : State) (i : Instr) (rest : List Byte) (ts : List Turn),
    s.cfg.wf = true ∧ decode s.cfg.k s.trace = .ok (i, rest) ∧ s.turns = .record :: ts :=
  ⟨{ s0 with trace := [0xC0], turns := [.record] }, .nWake, [], [], by decide, rfl, rfl⟩
theorem witness_StepRunsArrivalOrSubStep_frame : ∃ (s : State) (ts : List Turn) (t : Port) (f : Frame),
    s.cfg.wf = true ∧ s.turns = .wire t (Frame.bytes f) :: ts ∧ f.wf s.cfg.k = true :=
  ⟨{ s0 with turns := [.wire .can f1] }, [], .can, ⟨3, 1, 2, 5, m1.body⟩, by decide, rfl, by decide⟩
theorem witness_StepRunsArrivalOrSubStep_other : ∃ (s : State) (ts : List Turn) (t : Port) (b : List Byte),
    s.cfg.wf = true ∧ s.turns = .wire t b :: ts ∧ b.length ≠ s.cfg.w :=
  ⟨{ s0 with turns := [.wire .can (f1 ++ [0])] }, [], .can, f1 ++ [0], by decide, rfl, by decide⟩
theorem witness_StepRunsArrivalOrSubStep_sub : ∃ (s : State) (ts : List Turn) (m : SubStep),
    s.cfg.wf = true ∧ s.turns = .sub m :: ts :=
  ⟨{ s0 with turns := [.sub (.deqBegin .uart)] }, [], .deqBegin .uart, by decide, rfl⟩
theorem witness_IllFormedConfigurationRefused : ∃ s : State, ¬ Constraints s.cfg :=
  ⟨{ s0 with cfg := { cfgT with holdTicks := 0 } }, fun h => absurd h.2.2.2.2.2.2.2 (by decide)⟩
theorem witness_IllFormedConfigurationRefused_wf : ∃ s : State, Constraints s.cfg := ⟨s0, constraints_cfgT⟩
theorem witness_ResetMeetsInvariant : cfgT.wf = true := by decide
theorem witness_StepKeepsInvariant : ∃ s s' : State, s.Inv ∧ step s = .next s' :=
  ⟨{ oneCan with turns := [.sub (.wstartBegin .can)] }, _, State.inv_of_invB (by decide), rfl⟩
theorem witness_InvariantStatesNeverFault : ∃ s : State, s.Inv := ⟨wrapCan, wrapCan_inv⟩
theorem witness_EncodeLaysOutFrame : m1.body.length = s0.cfg.k := by decide
theorem witness_DecodeResolvesOrRejects_length : fs.length ≠ s0.cfg.w ∧ (f1 ++ [0]).length ≠ s0.cfg.w := by decide
theorem witness_DecodeResolvesOrRejects_absent : m1.body.length = s0.cfg.k ∧ inDomain s0.cfg 4 = false ∧ inDomain s0.cfg 8 = false := by
  decide
theorem witness_DecodeResolvesOrRejects_entry : m1.body.length = s0.cfg.k ∧ tableRead s0.cfg 5 = some ⟨0, 2⟩ := by decide
/-- The first command at NCMD, and the absent command 0. -/
theorem witness_TableLookupBounded : m1.body.length = s0.cfg.k ∧ s0.cfg.ncmd ≤ (8 : Byte).toNat ∧ s0.cfg.table[(0 : Byte).toNat]? = some none := by
  decide
theorem witness_DecodedMessagesValid : ∃ (s t : State) (b : List Byte) (m : Message),
    s.cfg.wf = true ∧ exec (.cDec b) s = .next t ∧ t.result = .message m :=
  ⟨s0, _, f2, m2, by decide, rfl, rfl⟩
theorem witness_MessageRoundTrip : cfgT.wf = true ∧ m1.wf cfgT.k = true ∧ m1.priority ≠ sentinel
    ∧ tableRead cfgT m1.command = some ⟨0, 2⟩ ∧ m1.bodySize = 2 := by decide
/-- The priority 255 with the known command 1 of CFG_T. -/
theorem witness_MessageRoundTrip_sentinel : ({ m2 with priority := 255 } : Message).wf cfgT.k = true
    ∧ tableRead cfgT 1 = some ⟨3, 7⟩ ∧ ({ m2 with priority := 255 } : Message).priority = sentinel := by decide
theorem witness_MessageRoundTrip_unknown : ({ m1 with command := 4 } : Message).wf cfgT.k = true ∧ inDomain cfgT 4 = false := by decide
theorem witness_FrameRoundTrip : f1.length = cfgT.w ∧ (f1[3]?).bind (tableRead cfgT) = some ⟨0, 2⟩ ∧ f1[0]? ≠ some sentinel := by decide
theorem witness_FrameRoundTrip_sentinel :
    f2.length = cfgT.w ∧ (f2[3]?).bind (tableRead cfgT) = some ⟨3, 7⟩ ∧ f2[0]? = some sentinel := by decide
theorem witness_SentinelResolution :
    f2.length = cfgT.w ∧ f2[0]? = some sentinel ∧ (f2[3]?).bind (tableRead cfgT) = some ⟨3, 7⟩ := by decide
/-- head = 1 and tail = 3 = N - 1. -/
theorem witness_EmptyAndFullTests : (sixFour.queue .uart).head < sixFour.cfg.slots .uart ∧ (sixFour.queue .uart).tail < sixFour.cfg.slots .uart := by
  decide
theorem witness_LengthFromOneSnapshot : (sixFive.queue .uart).head < sixFive.cfg.slots .uart ∧ (sixFive.queue .uart).tail < sixFive.cfg.slots .uart := by
  decide
theorem witness_LengthMatchesFlags : ∃ s : State, s.Inv ∧ s.full .uart = true := ⟨sixFive, sixFive_inv, by decide⟩
theorem witness_EnqueueOutcome_full : ∃ (s : State) (q : Port), s.Inv ∧ s.standAlone q
    ∧ ((s.queue q).tail + 1) % s.cfg.slots q = (s.queue q).head :=
  ⟨sixFive, .uart, sixFive_inv, ⟨⟨rfl, rfl⟩, by decide⟩, by decide⟩
/-- The last slot, where `tail` wraps. -/
theorem witness_EnqueueOutcome_room : ∃ (s : State) (q : Port), s.Inv ∧ s.standAlone q ∧ (s.queue q).tail + 1 = s.cfg.slots q
    ∧ ((s.queue q).tail + 1) % s.cfg.slots q ≠ (s.queue q).head :=
  ⟨sixFour, .uart, sixFour_inv, ⟨⟨rfl, rfl⟩, by decide⟩, by decide, by decide⟩
theorem witness_DequeueOutcome_empty : ∃ (s : State) (q : Port), s.Inv ∧ s.standAlone q ∧ (s.queue q).head = (s.queue q).tail :=
  ⟨s0, .uart, s0_inv, ⟨⟨rfl, rfl⟩, by decide⟩, by decide⟩
/-- The last slot, where `head` wraps. -/
theorem witness_DequeueOutcome_item : ∃ (s : State) (q : Port), s.Inv ∧ s.standAlone q ∧ (s.queue q).head + 1 = s.cfg.slots q
    ∧ (s.queue q).head ≠ (s.queue q).tail :=
  ⟨sixEight, .uart, State.inv_of_invB (by decide), ⟨⟨rfl, rfl⟩, by decide⟩, by decide, by decide⟩
/-- Empty at the index 3 = N - 1, and the three Messages N - 1 allows. -/
theorem witness_FifoOrder : ∃ (s : State) (q : Port) (ms : List Message), s.Inv ∧ s.standAlone q ∧ s.empty q = true
    ∧ (∀ m ∈ ms, m.wf s.cfg.k = true) ∧ ms.length = s.cfg.slots q - 1 :=
  ⟨scripted 3 3 [some ma, some mb, some mc, none], .uart, [ma, mb, mc], State.inv_of_invB (by decide), ⟨⟨rfl, rfl⟩, by decide⟩,
    by decide, by decide, by decide⟩
theorem witness_CapacityIsNMinusOne : ∃ (s : State) (q : Port) (ms : List Message), s.Inv ∧ s.standAlone q ∧ s.empty q = true
    ∧ (∀ m ∈ ms, m.wf s.cfg.k = true) ∧ ms.length = s.cfg.slots q - 1 :=
  witness_FifoOrder
theorem witness_EveryStepKeepsFifo : ∃ s s' : State, s.Inv ∧ step s = .next s' ∧ s'.content .can ≠ s.content .can :=
  ⟨{ oneCan with trace := [0x91] }, _, State.inv_of_invB (by decide), rfl, by decide⟩
theorem witness_SingleWriterOfIndices_head : ∃ (i : Instr) (s s' : State) (q : Port), exec i s = .next s' ∧ i ≠ .sysReset
    ∧ (s'.queue q).head ≠ (s.queue q).head :=
  ⟨.rWstart .can, oneCan, _, .can, rfl, by decide, by decide⟩
theorem witness_SingleWriterOfIndices_tail : ∃ (i : Instr) (s s' : State) (q : Port), exec i s = .next s' ∧ i ≠ .sysReset
    ∧ (s'.queue q).tail ≠ (s.queue q).tail :=
  ⟨.rRx .uart f1, wrapCan, _, .can, rfl, by decide, by decide⟩
theorem witness_SecondProducerOrConsumerRefused_router : oneCan.owner.get .can = some .router := by decide
theorem witness_SecondProducerOrConsumerRefused_script : ∃ (s : State) (b : List Byte) (m : Message) (i : Instr),
    s.owner.get .uart = some .script ∧ Receives .can b i ∧ decodeFrame s.cfg b = .ok m ∧ s.wstartEnabled .uart = true :=
  ⟨sixFour, f1, m1, .rRx .can f1, by decide, .inl rfl, by rfl, by decide⟩
theorem witness_SecondProducerOrConsumerRefused_progress : ∃ s : State, s.Inv ∧ (∃ p, s.deq.get .can = some p) ∧ s.wstartEnabled .can = true :=
  ⟨insideWstart ⟨.router, some 0, none, .reading⟩, State.inv_of_invB (by decide), ⟨_, rfl⟩, by decide⟩
theorem witness_SecondProducerOrConsumerRefused_enq : ∃ s : State, s.Inv ∧ ∃ p, s.enq.get .uart = some p :=
  ⟨insideEnq ⟨md, some 3, none, .reading⟩ sixFour, State.inv_of_invB (by decide), _, rfl⟩
/-- A script's Q.DEQ of an empty queue completes and claims it; its sub-steps can start there too. -/
theorem witness_SecondProducerOrConsumerRefused_claims : ∃ s t u v w : State, exec (.qDeq .can) s = .next t ∧ execSub (.deqBegin .can) s = .next u
    ∧ execSub (.enqBegin .can m1) s = .next v ∧ exec (.rRx .uart f1) s = .next w :=
  ⟨s0, _, _, _, _, rfl, rfl, rfl, rfl⟩
theorem witness_SecondProducerOrConsumerRefused_worker : ∃ t u : State, exec (.rWstart .can) oneCan = .next t
    ∧ execSub (.wstartBegin .can) oneCan = .next u :=
  ⟨_, _, rfl, rfl⟩
theorem witness_SecondProducerOrConsumerRefused_keeps : ∃ s s' : State, s.owner.get .can = some .router ∧ step s = .next s' :=
  ⟨{ oneCan with trace := [0x91] }, _, by decide, rfl⟩
/-- A Q.DEQ of UART's free queue leaves CAN's free, and so does its first sub-step. -/
theorem witness_SecondProducerOrConsumerRefused_other : ∃ t u v : State, exec (.qDeq .uart) s0 = .next t
    ∧ execSub (.deqBegin .uart) s0 = .next u ∧ execSub (.d1 .uart) u = .next v ∧ t.owner = ⟨some .script, none⟩
    ∧ v.owner = ⟨some .script, none⟩ :=
  ⟨_, _, _, rfl, rfl, rfl, by decide, by decide⟩
theorem witness_ReadingNoValueFaults_slot : ∃ (s : State) (q : Port), s.standAlone q ∧ (s.queue q).head ≠ (s.queue q).tail
    ∧ (s.queue q).slots[(s.queue q).head]? = some none :=
  ⟨scripted 0 1 [none, none, none, none], .uart, ⟨⟨rfl, rfl⟩, by decide⟩, by decide, by decide⟩
theorem witness_ReadingNoValueFaults_worker : ∃ (s : State) (t : Port), s.settled t ∧ s.routed t ∧ (s.worker t).wstate = .idle
    ∧ (s.queue t).head ≠ (s.queue t).tail ∧ (s.queue t).slots[(s.queue t).head]? = some none :=
  ⟨{ oneCan with queues := ⟨oneCan.queues.uart, ⟨[none, none, none, none], 3, 0⟩⟩ }, .can, ⟨rfl, rfl⟩, by unfold State.routed; decide,
    by decide, by decide, by decide⟩
theorem witness_ReadingNoValueFaults_subStep : ∃ (s : State) (q : Port) (p : DeqProgress) (x : Nat), s.deq.get q = some p
    ∧ p.phase = .tested ∧ p.h0 = some x ∧ (s.queue q).slots[x]? = some none :=
  ⟨{ scripted 0 1 [none, none, none, none] with deq := ⟨some ⟨.script, some 0, some 1, .tested⟩, none⟩ }, .uart, _, 0, rfl, rfl, rfl,
    by decide⟩
theorem witness_ReadingNoValueFaults_txbuf : ∃ (s : State) (t : Port), (s.worker t).wstate = .busy
    ∧ (s.worker t).retry < s.cfg.txRetryMax ∧ (s.worker t).txbuf = none :=
  ⟨{ State.resetWith cfgT1 with workers := ⟨Worker.reset, ⟨.busy, none, 0⟩⟩ }, .can, by decide, by decide, by decide⟩

theorem routed_fullCan : fullCan.routed .can := by unfold State.routed; decide
theorem routed_wrapCan : wrapCan.routed .can := by unfold State.routed; decide
theorem routed_s0 (q : Port) : s0.routed q := by unfold State.routed; cases q <;> decide

theorem witness_ReceiveOutcome_malformed : ∃ (s : State) (t : Port) (b : List Byte) (i : Instr), s.Inv ∧ s.routed t.other
    ∧ Receives t b i ∧ b.length ≠ s.cfg.w :=
  ⟨fullCan, .uart, [], .rRx .uart [], fullCan_inv, routed_fullCan, .inl rfl, by decide⟩
theorem witness_ReceiveOutcome_unknown : ∃ (s : State) (t : Port) (b : List Byte) (i : Instr), s.Inv ∧ s.routed t.other
    ∧ Receives t b i ∧ b = [3, 1, 2, 8, 0, 0, 0, 0, 0, 0, 0] ∧ tableRead s.cfg 8 = none :=
  ⟨fullCan, .uart, _, .rRx .uart [3, 1, 2, 8, 0, 0, 0, 0, 0, 0, 0], fullCan_inv, routed_fullCan, .inl rfl, rfl, by decide⟩
theorem witness_ReceiveOutcome_full : ∃ (s : State) (t : Port) (b : List Byte) (i : Instr), s.Inv ∧ s.routed t.other
    ∧ Receives t b i ∧ b = f1 ∧ tableRead s.cfg 5 = some ⟨0, 2⟩
    ∧ ((s.queue t.other).tail + 1) % s.cfg.slots t.other = (s.queue t.other).head :=
  ⟨fullCan, .uart, f1, .frame .uart ⟨3, 1, 2, 5, m1.body⟩, fullCan_inv, routed_fullCan, .inr ⟨_, rfl, rfl⟩, rfl, by decide, by decide⟩
theorem witness_ReceiveOutcome_room : ∃ (s : State) (t : Port) (b : List Byte) (i : Instr), s.Inv ∧ s.routed t.other
    ∧ Receives t b i ∧ b = f2 ∧ tableRead s.cfg 1 = some ⟨3, 7⟩
    ∧ ((s.queue t.other).tail + 1) % s.cfg.slots t.other ≠ (s.queue t.other).head :=
  ⟨wrapCan, .uart, f2, .rRx .uart f2, wrapCan_inv, routed_wrapCan, .inl rfl, rfl, by decide, by decide⟩
theorem witness_ReceiveAlwaysRearms : ∃ (s : State) (t : Port) (b : List Byte) (i : Instr), s.Inv ∧ s.routed t.other ∧ Receives t b i :=
  ⟨fullCan, .uart, f1, .rRx .uart f1, fullCan_inv, routed_fullCan, .inl rfl⟩
theorem witness_BadInputCorruptsNothing : ∃ (s u : State) (t : Port) (b : List Byte) (i : Instr), s.Inv ∧ Receives t b i
    ∧ exec i s = .next u ∧ u.result ≠ .status .ok :=
  ⟨oneCan, _, .uart, fu, .rRx .uart fu, oneCan_inv, .inl rfl, rfl, by decide⟩
theorem witness_ReceiveHandlersCommute : s0.Inv ∧ s0.routed .uart ∧ s0.routed .can := ⟨s0_inv, routed_s0 .uart, routed_s0 .can⟩
theorem witness_WorkerStartOutcome : ∃ (s : State) (t : Port), s.Inv ∧ s.settled t ∧ (s.worker t).wstate = .idle
    ∧ (s.queue t).head ≠ (s.queue t).tail ∧ s.owner.get t ≠ some .script :=
  ⟨oneCan, .can, oneCan_inv, ⟨rfl, rfl⟩, by decide, by decide, by decide⟩
theorem witness_WorkerDoneOutcome : ((busyCan cfgT 0).worker .can).wstate = .busy := by decide
theorem witness_WorkerFailOutcome_retry : ((busyCan cfgT1 0).worker .can).wstate = .busy ∧ ((busyCan cfgT1 0).worker .can).txbuf = some f1
    ∧ ((busyCan cfgT1 0).worker .can).retry < (busyCan cfgT1 0).cfg.txRetryMax := by decide
theorem witness_WorkerFailOutcome_drop : ((busyCan cfgT1 1).worker .can).wstate = .busy ∧ ((busyCan cfgT1 1).worker .can).txbuf = some f1
    ∧ (busyCan cfgT1 1).cfg.txRetryMax ≤ ((busyCan cfgT1 1).worker .can).retry := by decide
theorem witness_DisabledOperationsHaveNoMove : ((busyCan cfgT 0).worker .can).wstate = .busy ∧ (s0.queue .uart).head = (s0.queue .uart).tail
    ∧ (s0.worker .uart).wstate = .idle ∧ (lit true 1).ntf.state = .on ∧ s0.ntf.sig = false := by decide
theorem witness_WorkerTransitionsComplete_start : ∃ (i : Instr) (s s' : State) (t : Port), exec i s = .next s'
    ∧ (s.worker t).wstate = .idle ∧ (s'.worker t).wstate = .busy :=
  ⟨.rWstart .can, oneCan, _, .can, rfl, by decide, by decide⟩
theorem witness_WorkerTransitionsComplete_end : ∃ (i : Instr) (s s' : State) (t : Port), exec i s = .next s'
    ∧ (s.worker t).wstate = .busy ∧ (s'.worker t).wstate = .idle :=
  ⟨.rWfail .can, busyCan cfgT1 1, _, .can, rfl, by decide, by decide⟩
/-- The pipeline of UART to CAN leaves IDLE by R.RX 0. -/
theorem witness_WorkerTransitionsComplete_available : ∃ (i : Instr) (s s' : State) (t : Port), exec i s = .next s'
    ∧ s.pipeState t = .idle ∧ s'.pipeState t = .messageAvailable :=
  ⟨.rRx .uart f1, s0, _, .can, rfl, by decide, by decide⟩
/-- It returns to IDLE by R.WDONE 1 with no Message queued. -/
theorem witness_WorkerTransitionsComplete_idle : ∃ (i : Instr) (s s' : State) (t : Port), exec i s = .next s'
    ∧ s.pipeState t = .messageAvailable ∧ s'.pipeState t = .idle :=
  ⟨.rWdone .can, busyCan cfgT 0, _, .can, rfl, by decide, by decide⟩
theorem witness_TransmitStreamFollowsQueue : ∃ s s' : State, s.Inv ∧ step s = .next s' ∧ s'.out.tx.get .can ≠ s.out.tx.get .can :=
  ⟨{ wrapCan with trace := [0x91] }, _, State.inv_of_invB (by decide), rfl, by decide⟩
/-- The last sub-step of R.WSTART 1, with F1 in the worker's hands. -/
theorem witness_TransmitStreamFollowsQueue_subStep : ∃ s s' : State, s.Inv ∧ step s = .next s' ∧ s.toSend .can = [some f1, some f1]
    ∧ s'.out.tx.get .can = [.txStart .can f1] :=
  ⟨{ insideWstart ⟨.router, some 3, some 1, .encoded f1⟩ with turns := [.sub (.wstartTransmit .can)] }, _,
    State.inv_of_invB (by decide), rfl, by decide, by decide⟩
theorem witness_BridgeScenario : ∃ (s : State) (t : Port) (f : List Byte) (c : Byte), s.Inv ∧ s.settled t.other
    ∧ s.owner.get t.other ≠ some .script ∧ s.empty t.other = true ∧ (s.worker t.other).wstate = .idle ∧ s.ntf.state = .off
    ∧ s.ntf.sig = false ∧ f.length = s.cfg.w ∧ f[0]? ≠ some sentinel ∧ f[3]? = some c ∧ inDomain s.cfg c = true :=
  ⟨s0, .uart, f1, 5, s0_inv, ⟨rfl, rfl⟩, by decide, by decide, by decide, rfl, rfl, by decide, by decide, by decide, by decide⟩
theorem witness_WorkerDrainsQueueInOrder : ∃ (s : State) (t : Port), s.Inv ∧ s.settled t ∧ (s.worker t).wstate = .idle
    ∧ s.owner.get t ≠ some .script ∧ s.len t = 3 :=
  ⟨fullCan, .can, fullCan_inv, ⟨rfl, rfl⟩, by decide, by decide, by decide⟩
theorem witness_WakeOutcome : signalled.ntf.state = .off ∧ signalled.ntf.sig = true := by decide
theorem witness_TickOutcome_off : s0.ntf.state = .off := by decide
theorem witness_TickOutcome_hold : (lit false 2).ntf.state = .on ∧ 1 < (lit false 2).ntf.cnt := by decide
theorem witness_TickOutcome_last : (lit true 1).ntf.state = .on ∧ (lit true 1).ntf.cnt ≤ 1 ∧ (lit true 1).ntf.sig = true
    ∧ (lit false 1).ntf.state = .on ∧ (lit false 1).ntf.cnt ≤ 1 ∧ (lit false 1).ntf.sig = false := by decide
theorem witness_HoldLastsItsTicks : (lit true 3).Inv ∧ (lit true 3).ntf.state = .on := ⟨State.inv_of_invB (by decide), by decide⟩
theorem witness_IndicatorEventsMarkLevelChanges : ∃ (i : Instr) (s s' : State), exec i s = .next s' ∧ i ≠ .sysReset ∧ s.led ≠ s'.led :=
  ⟨.nWake, signalled, _, rfl, by decide, by decide⟩
theorem witness_SignalOnlyOnCompletion : ∃ (i : Instr) (s s' : State), exec i s = .next s' ∧ s.ntf.sig = false ∧ s'.ntf.sig = true :=
  ⟨.rWdone .can, busyCan cfgT 0, _, rfl, by decide, by decide⟩
theorem witness_PureOperationsFrame : ∃ (s s' : State), exec (.cDec f2) s = .next s' := ⟨s0, _, rfl⟩
theorem witness_QueueOperationsFrame : ∃ (s u v : State), exec (.qEnq .uart md) s = .next u ∧ exec (.qDeq .uart) s = .next v :=
  ⟨sixFour, _, _, rfl, rfl⟩
theorem witness_ReceiveFrame : ∃ (i : Instr) (t : Port) (b : List Byte) (s s' : State), Receives t b i ∧ exec i s = .next s' :=
  ⟨.frame .uart ⟨3, 1, 2, 5, m1.body⟩, .uart, f1, wrapCan, _, .inr ⟨_, rfl, rfl⟩, rfl⟩
theorem witness_WorkerOperationsFrame : ∃ (u v w : State), exec (.rWstart .can) oneCan = .next u
    ∧ exec (.rWdone .can) (busyCan cfgT 0) = .next v ∧ exec (.rWfail .can) (busyCan cfgT1 0) = .next w :=
  ⟨_, _, _, rfl, rfl, rfl⟩
theorem witness_ParametersNeverChange : ∃ s s' : State, step s = .next s' ∧ s.Inv :=
  ⟨{ sixFour with trace := [0xF0] }, _, rfl, State.inv_of_invB (by decide)⟩
theorem witness_QuiescentStatesAreStill : s0.quiescent = true := by decide
/-- Q7 (d): E4 is done, and the consumer has moved `head` since E2. -/
theorem witness_SubStepsRefineAtomicOperations_e5 : ∃ s s' : State, s.Inv ∧ execSub (.e5 .uart) s = .next s' :=
  ⟨insideEnq ⟨mc, some 2, some 0, .written⟩ (scripted 1 2 [some ma, some mb, some mc, none]), _, State.inv_of_invB (by decide), rfl⟩
theorem witness_SubStepsRefineAtomicOperations_d5 : ∃ s s' : State, s.Inv ∧ execSub (.d5 .can) s = .next s' :=
  ⟨insideWstart ⟨.router, some 0, some 1, .copied m1⟩, _, State.inv_of_invB (by decide), rfl⟩
theorem witness_SubStepsRefineAtomicOperations_e2 : ∃ s s' : State, s.Inv ∧ execSub (.e2 .uart) s = .next s' :=
  ⟨insideEnq ⟨md, some 0, none, .reading⟩ sixFive, _, State.inv_of_invB (by decide), rfl⟩
theorem witness_SubStepsRefineAtomicOperations_d2 : ∃ s s' : State, s.Inv ∧ execSub (.d2 .can) s = .next s' :=
  ⟨insideWstart ⟨.router, some 0, none, .reading⟩, _, State.inv_of_invB (by decide), rfl⟩
/-- Q7 (c): the producer fails on the `head` it read at E2, although the consumer has moved it since. -/
theorem witness_SubStepsRefineAtomicOperations_e3 : ∃ s s' : State, s.Inv ∧ execSub (.e3 .uart) s = .next s' ∧ s'.result = .bool false :=
  ⟨insideEnq ⟨md, some 3, some 0, .reading⟩ sixFour, _, State.inv_of_invB (by decide), rfl, by decide⟩
/-- Q7 (b): the consumer fails on the `tail` it read at D2, although the producer has moved it since. -/
theorem witness_SubStepsRefineAtomicOperations_d3 : ∃ s s' : State, s.Inv ∧ execSub (.d3 .uart) s = .next s' ∧ s'.result = .item none :=
  ⟨{ scripted 0 1 [some ma, none, none, none] with deq := ⟨some ⟨.script, some 0, some 0, .reading⟩, none⟩ }, _,
    State.inv_of_invB (by decide), rfl, by decide⟩
theorem witness_SubStepsRefineAtomicOperations_d5_script : ∃ s s' : State, s.Inv ∧ execSub (.d5 .uart) s = .next s'
    ∧ s'.result = .item (some mb) :=
  ⟨{ sixFour with deq := ⟨some ⟨.script, some 1, some 3, .copied mb⟩, none⟩ }, _, State.inv_of_invB (by decide), rfl, by decide⟩
theorem witness_UndisturbedSubStepsEqualAtomic : ∃ (s u v : State) (q : Port) (m : Message), s.Inv ∧ s.standAlone q ∧ m.wf s.cfg.k = true
    ∧ s.full q = false ∧ s.empty q = false
    ∧ runSubs [.enqBegin q m, .e2 q, .e1 q, .e3 q, .e4 q, .e5 q] s = .next u
    ∧ runSubs [.deqBegin q, .d2 q, .d1 q, .d3 q, .d4 q, .d5 q] s = .next v :=
  ⟨sixFour, _, _, .uart, md, sixFour_inv, ⟨⟨rfl, rfl⟩, by decide⟩, by decide, by decide, by decide, rfl, rfl⟩
theorem witness_UndisturbedSubStepsEqualAtomic_full : ∃ (s : State) (q : Port), s.Inv ∧ s.standAlone q ∧ s.full q = true :=
  ⟨sixFive, .uart, sixFive_inv, ⟨⟨rfl, rfl⟩, by decide⟩, by decide⟩
theorem witness_UndisturbedSubStepsEqualAtomic_empty : ∃ (s : State) (q : Port), s.Inv ∧ s.standAlone q ∧ s.empty q = true :=
  ⟨s0, .uart, s0_inv, ⟨⟨rfl, rfl⟩, by decide⟩, by decide⟩
theorem witness_UndisturbedWorkerStartEqualsAtomic : ∃ (s u : State) (t : Port), s.Inv ∧ s.settled t ∧ s.owner.get t ≠ some .script
    ∧ s.wstartEnabled t = true ∧ runSubs (wstartSubs t) s = .next u :=
  ⟨oneCan, _, .can, oneCan_inv, ⟨rfl, rfl⟩, by decide, by decide, rfl⟩
/-- P5's second schedule: the queue is full, the handler comes after D4 (k = 5) and after D5 (k = 6). -/
theorem witness_InterruptInsideWorkerStart : ∃ (s : State) (t r : Port) (b : List Byte) (i : Instr), s.Inv ∧ s.settled t ∧ s.routed t
    ∧ s.wstartEnabled t = true ∧ s.routed r.other ∧ Receives r b i ∧ r = t.other ∧ s.full t = true :=
  ⟨fullCan, .can, .uart, f1, .frame .uart ⟨3, 1, 2, 5, m1.body⟩, fullCan_inv, ⟨rfl, rfl⟩, routed_fullCan, by decide, routed_fullCan,
    .inr ⟨_, rfl, rfl⟩, rfl, by decide⟩
/-- The handler of the worker's own transport, which stores in the other queue. -/
theorem witness_InterruptInsideWorkerStart_same : ∃ (s u : State) (t r : Port) (b : List Byte) (i : Instr), s.Inv ∧ s.settled t
    ∧ s.routed t ∧ s.wstartEnabled t = true ∧ s.routed r.other ∧ Receives r b i ∧ r = t ∧ exec i s = .next u ∧ u.len r.other = 1 :=
  ⟨fullCan, _, .can, .can, f1, .rRx .can f1, fullCan_inv, ⟨rfl, rfl⟩, routed_fullCan, by decide, by unfold State.routed; decide,
    .inl rfl, rfl, rfl, by decide⟩
theorem witness_SubStepOrderKept : ∃ s : State, s.Inv ∧ (∀ p, s.enq.get .uart = some p → p.phase ≠ .written)
    ∧ ∀ p, s.deq.get .can = some p → ∀ m, p.phase ≠ .copied m :=
  ⟨s0, s0_inv, fun _ h => (by cases h), fun _ h => (by cases h)⟩
/-- In a state without any transfer in progress every clause's hypothesis holds; here one with transfers where those of E1 and D2 do. -/
theorem witness_SubStepOrderKept_begun : ∃ s : State, s.Inv ∧ (∃ p, s.enq.get .uart = some p) ∧ (∃ p, s.deq.get .can = some p)
    ∧ (∀ p, s.enq.get .uart = some p → p.phase ≠ .reading ∨ p.t0 ≠ none)
    ∧ ∀ p, s.deq.get .can = some p → p.phase ≠ .reading ∨ p.t ≠ none :=
  ⟨{ oneCan with
      owner := ⟨some .script, some .router⟩
      enq := ⟨some ⟨md, some 0, none, .reading⟩, none⟩
      deq := ⟨none, some ⟨.router, none, some 1, .reading⟩⟩ },
    State.inv_of_invB (by decide), ⟨_, rfl⟩, ⟨_, rfl⟩, fun _ h => (by cases h; decide), fun _ h => (by cases h; decide)⟩
theorem witness_SubStepOrderKept_read : ∃ s : State, s.Inv ∧ (∃ p, s.enq.get .uart = some p) ∧ (∀ p, s.enq.get .uart = some p → p.phase ≠ .tested)
    ∧ ∀ p, s.deq.get .uart = some p → p.phase ≠ .tested :=
  ⟨insideEnq ⟨md, some 3, some 1, .reading⟩ sixFour, State.inv_of_invB (by decide), ⟨_, rfl⟩,
    fun _ h => (by cases h; decide), fun _ h => (by cases h)⟩

/-! ### A fair endless run: one Message is transmitted, the indicator pulses, and ticks go on for ever -/

def liveOp : Nat → Instr
  | 0 => .rWstart .can
  | 1 => .rWdone .can
  | 2 => .nWake
  | _ + 3 => .nTick

def liveState : Nat → State
  | 0 => oneCan
  | n + 1 => (nextOf (exec (liveOp n) (liveState n))).getD oneCan

theorem liveState_still (n : Nat) : liveState (n + 6) = liveState 6 := by
  induction n with
  | zero => rfl
  | succ n ih =>
    show (nextOf (exec .nTick (liveState (n + 6)))).getD oneCan = _
    rw [ih]
    decide

theorem live_isRun : IsRun liveState liveOp := by
  intro n
  match n with
  | 0 => exact ⟨.inl rfl, rfl⟩
  | 1 => exact ⟨.inl rfl, rfl⟩
  | 2 => exact ⟨.inl rfl, rfl⟩
  | 3 => exact ⟨.inl rfl, rfl⟩
  | 4 => exact ⟨.inl rfl, rfl⟩
  | 5 => exact ⟨.inl rfl, rfl⟩
  | n + 6 =>
    refine ⟨.inl rfl, ?_⟩
    rw [show n + 6 + 1 = (n + 1) + 6 by omega, liveState_still n, liveState_still (n + 1)]
    rfl

/-- What is not enabled in the last state does not stay enabled. -/
theorem live_weaklyFair {enabled : State → Bool} (taken : Instr → Prop) (h : enabled (liveState 6) = false) :
    WeaklyFair liveState liveOp enabled taken := by
  intro n hn
  have := hn (n + 6) (by omega)
  rw [liveState_still, h] at this
  cases this

theorem live_fair : Fair liveState liveOp where
  start t := live_weaklyFair _ (by cases t <;> decide)
  wake := live_weaklyFair _ (by decide)
  answer t := live_weaklyFair _ (by cases t <;> decide)
  tick := live_weaklyFair _ (by decide)

theorem live_no_reset (n : Nat) : liveOp n ≠ .sysReset := by
  unfold liveOp
  split <;> simp

theorem witness_FairRunsMakeProgress : ∃ (σ : Nat → State) (μ : Nat → Instr) (n : Nat) (t : Port), IsRun σ μ ∧ Fair σ μ ∧ (σ n).Inv
    ∧ (∀ i, n ≤ i → μ i ≠ .sysReset) ∧ (σ n).settled t ∧ (σ n).owner.get t = some .router ∧ ((σ n).content t)[0]? = some (some m1) :=
  ⟨liveState, liveOp, 0, .can, live_isRun, live_fair, oneCan_inv, fun i _ => live_no_reset i, ⟨rfl, rfl⟩, by decide, by decide⟩
theorem witness_FairRunsMakeProgress_signal : (liveState 2).Inv ∧ (liveState 2).ntf.sig = true :=
  ⟨State.inv_of_invB (by decide), by decide⟩
theorem witness_FairRunsMakeProgress_off : (liveState 3).Inv ∧ (liveState 3).led = true ∧ ∀ i t, 3 ≤ i → liveOp i ≠ .rWdone t := by
  refine ⟨State.inv_of_invB (by decide), by decide, fun i t hi => ?_⟩
  match i with
  | i + 3 => simp [liveOp]

end Sys2Proof.Tests
end

section
/-! Lemmas and proofs for 00_scope.md R6: the parameters never change (O53), and exactly an ill-formed configuration is refused as such
(O6). -/

namespace Sys2Proof

/-- The forbidden value 255 of a table entry's bytes, as the bound of 00_scope.md R6. -/
theorem ne_sentinel_iff {b : Byte} : b ≠ sentinel ↔ b.toNat ≤ 254 := by
  bv_omega

end Sys2Proof

namespace Sys2Proof.Machine

/-! ### the parameters and the slot arrays -/

/-- No sub-step changes the parameters (00_scope.md R6). -/
theorem execSub_cfg {m : SubStep} {s s' : State} (he : execSub m s = .next s') : s'.cfg = s.cfg := by
  cases m
  all_goals
    simp only [execSub, subEnqBegin, subE1, subE2, subE3, subE4, subE5, subDeqBegin, subWstartBegin, subD1, subD2, subD3, subD4,
      subD5, subWstartEncode, subWstartTransmit] at he
    repeat' split at he
  all_goals cases he
  all_goals rfl

/-- No instruction resizes a slot array; SYS.RESET makes the new ones of N[q] slots, as the invariant says of the old ones
(10_state.md R17, R32). -/
theorem exec_slots_length {i : Instr} {s s' : State} (h : s.Inv) (q : Port) (he : exec i s = .next s') :
    (s'.queue q).slots.length = (s.queue q).slots.length := by
  obtain hq | ⟨m, _, _, _, hq⟩ | ⟨m, _, _, _, hq⟩ | ⟨_, rfl⟩ := exec_queue_cases q he
  · rw [hq]
  · simp [hq]
  · simp [hq]
  · exact ((clear_keeps_inv h).queue q).slots_length.trans (h.queue q).slots_length.symm

/-- No sub-step resizes a slot array (10_state.md R17). -/
theorem execSub_slots_length {m : SubStep} {s s' : State} (h : s.Inv) (q : Port) (he : execSub m s = .next s') :
    (s'.queue q).slots.length = (s.queue q).slots.length := by
  obtain ⟨_, ⟨hq, _⟩ | ⟨x, _, hq⟩ | ⟨x, _, _, _, hq, _⟩ | ⟨x, _, _, _, hq⟩⟩ := execSub_queue_cases h q he
  all_goals simp [hq]

/-! ### what an operation can refuse -/

/-- A composed operation is refused by its first part or by what follows. -/
theorem andThen_eq_refused {α β : Type} {x : Out α} {f : α → Out β} {r : Refusal} (h : andThen x f = .refused r) :
    x = .refused r ∨ ∃ a, x = .next a ∧ f a = .refused r := by
  cases x with
  | next a => exact .inr ⟨a, rfl, h⟩
  | fault _ => cases h
  | refused _ => cases h; exact .inl rfl

/-- The one refusal of a Q.ENQ by a party (70_reset_and_hazards.md R185). -/
theorem enqueueAs_eq_refused {who : Party} {q : Port} {m : Message} {s : State} {r : Refusal}
    (h : enqueueAs who q m s = .refused r) : r = .secondProducer q := by
  unfold enqueueAs at h
  split at h
  · cases h; rfl
  · split at h <;> cases h

/-- The one refusal of a Q.DEQ by a party (70_reset_and_hazards.md R185). -/
theorem dequeueAs_eq_refused {who : Party} {q : Port} {s : State} {r : Refusal}
    (h : dequeueAs who q s = .refused r) : r = .secondConsumer q := by
  unfold dequeueAs at h
  split at h
  · cases h; rfl
  · split at h <;> cases h

/-- The one refusal of the receive handler, that of its Q.ENQ (42_router.md R111). -/
theorem serveReceive_eq_refused {t : Port} {b : List Byte} {s : State} {r : Refusal} (h : serveReceive t b s = .refused r) :
    r = .secondProducer t.other := by
  unfold serveReceive at h
  split at h
  · cases h
  · obtain h | ⟨_, _, h⟩ := andThen_eq_refused h
    · exact enqueueAs_eq_refused h
    · cases h

/-- Every refusal of an instruction: a second producer, a second consumer, or a condition that does not hold (logs 7, 8). -/
theorem exec_eq_refused {i : Instr} {s : State} {r : Refusal} (h : exec i s = .refused r) :
    (∃ q, r = .secondProducer q) ∨ (∃ q, r = .secondConsumer q) ∨ ∃ op, r = .notEnabled op := by
  cases i with
  | qIsEmpty | qIsFull | qLen | cEnc | sysReset => cases h
  | cDec b => simp only [exec, execCDec] at h; split at h <;> cases h
  | qEnq q m =>
    obtain h | ⟨_, _, h⟩ := andThen_eq_refused h
    · exact .inl ⟨q, enqueueAs_eq_refused h⟩
    · cases h
  | qDeq q =>
    obtain h | ⟨_, _, h⟩ := andThen_eq_refused h
    · exact .inr (.inl ⟨q, dequeueAs_eq_refused h⟩)
    · cases h
  | rRx t b => exact .inl ⟨_, serveReceive_eq_refused h⟩
  | frame t f => exact .inl ⟨_, serveReceive_eq_refused h⟩
  | rWstart t =>
    simp only [exec, execRWstart] at h
    split at h
    · obtain h | ⟨_, _, h⟩ := andThen_eq_refused h
      · exact .inr (.inl ⟨t, dequeueAs_eq_refused h⟩)
      · split at h <;> cases h
        exact .inr (.inr ⟨_, rfl⟩)
    · cases h; exact .inr (.inr ⟨_, rfl⟩)
  | rWdone t => simp only [exec, execRWdone] at h; split at h <;> cases h; exact .inr (.inr ⟨_, rfl⟩)
  | rWfail t =>
    simp only [exec, execRWfail] at h
    repeat' split at h
    all_goals cases h
    exact .inr (.inr ⟨_, rfl⟩)
  | nWake => simp only [exec, execNWake] at h; split at h <;> cases h; exact .inr (.inr ⟨_, rfl⟩)
  | nTick =>
    simp only [exec, execNTick] at h
    repeat' split at h
    all_goals cases h

/-- Every refusal of a sub-step (logs 7, 8, 9, 12): its start may be barred, R.WSTART not enabled, the item of a Q.ENQ ill-formed; any
other is refused only out of its order. -/
theorem execSub_eq_refused {m : SubStep} {s : State} {r : Refusal} (h : execSub m s = .refused r) :
    (∃ q, r = .secondProducer q) ∨ (∃ q, r = .secondConsumer q) ∨ r = .notEnabled .rWstart ∨ r = .illFormedMessage
      ∨ r = .subStepOutOfOrder := by
  cases m
  all_goals
    simp only [execSub, subEnqBegin, subE1, subE2, subE3, subE4, subE5, subDeqBegin, subWstartBegin, subD1, subD2, subD3, subD4,
      subD5, subWstartEncode, subWstartTransmit] at h
    repeat' split at h
  all_goals cases h
  all_goals simp

/-! ### the configuration that a step refuses -/

/-- The check of a configuration is the conjunction of the constraints of 00_scope.md R6. -/
theorem wf_iff_constraints {c : Config} : c.wf = true ↔ Constraints c := by
  have ports : (∀ q, 2 ≤ c.n.get q) ↔ 2 ≤ c.n.uart ∧ 2 ≤ c.n.can :=
    ⟨fun h => ⟨h .uart, h .can⟩, fun ⟨hu, hc⟩ q => by cases q <;> assumption⟩
  simp only [Config.wf_iff, Constraints, Entry.wf_iff, ne_sentinel_iff, ports, Config.w, and_assoc]

/-- A configuration that fails the check has no next move. -/
theorem fetch_of_not_wf {s : State} (h : ¬ s.cfg.wf = true) : fetch s = .stop .illFormedConfig := by
  simp [fetch, h]

/-- A trace whose next record cannot be read is refused for what its bytes are. -/
theorem fetchRecord_ne_illFormedConfig (s : State) : fetchRecord s ≠ .stop .illFormedConfig := by
  unfold fetchRecord
  split
  · simp
  · rename_i e _
    cases e <;> simp [refusalOf]

/-- A configuration that passes the check is not refused where the next move is fetched. -/
theorem fetch_ne_illFormedConfig {s : State} (h : s.cfg.wf = true) : fetch s ≠ .stop .illFormedConfig := by
  unfold fetch
  rw [if_pos h]
  split
  · exact fetchRecord_ne_illFormedConfig _
  · exact fetchRecord_ne_illFormedConfig _
  · simp
  · simp

/-- A step that is refused was refused by the schedule, by an instruction or by a sub-step. -/
theorem step_eq_refused {s : State} {r : Refusal} (h : step s = .refused r) :
    fetch s = .stop r ∨ (∃ i s₁, exec i s₁ = .refused r) ∨ ∃ m s₁, execSub m s₁ = .refused r := by
  unfold step at h
  split at h
  · exact .inr (.inl ⟨_, _, h⟩)
  · exact .inr (.inr ⟨_, _, h⟩)
  · cases h; exact .inl ‹_›

end Sys2Proof.Machine

namespace Sys2Proof.Proofs

open Sys2Proof.Machine

/-- Settles O53: a step is an instruction or a sub-step from the state with another schedule, and neither writes a parameter or resizes
a slot array. -/
theorem parametersNeverChange : Obligations.ParametersNeverChange := by
  intro s s' he
  obtain ⟨i, s₁, hf, hx⟩ | ⟨m, s₁, hf, hx⟩ := step_cases he
  · obtain ⟨_, ⟨tr, tu, rfl⟩, _⟩ := fetch_instr_cases hf
    have hc := exec_cfg hx
    exact ⟨hc, fun h q => exec_slots_length (h.schedule tr tu) q hx⟩
  · obtain ⟨_, tu, rfl⟩ := fetch_sub_cases hf
    have hc := execSub_cfg hx
    exact ⟨hc, fun h q => execSub_slots_length (h.schedule s.trace tu) q hx⟩

/-- Settles O6: a step refuses a configuration that fails the check when it fetches, and neither the schedule nor any operation raises
that refusal otherwise. -/
theorem illFormedConfigurationRefused : Obligations.IllFormedConfigurationRefused := by
  intro s
  rw [← wf_iff_constraints]
  refine ⟨fun h => by simp [step, fetch_of_not_wf h], fun h hr => ?_⟩
  obtain hf | ⟨i, s₁, hx⟩ | ⟨m, s₁, hx⟩ := step_eq_refused hr
  · exact fetch_ne_illFormedConfig h hf
  · simpa using exec_eq_refused hx
  · simpa using execSub_eq_refused hx

end Sys2Proof.Proofs
end

section
/-! Lemmas for 10_state.md: when the operations with a condition are enabled, and everything that each sub-step can do, if it answers
next (70_reset_and_hazards.md R180, R181, R186; log 9). -/

namespace Sys2Proof.Machine

/-! ### the enabling conditions (42_router.md R114 to R116, 43_notifier.md R131) -/

theorem State.wstartEnabled_iff {s : State} {t : Port} :
    s.wstartEnabled t = true ↔ (s.worker t).wstate = .idle ∧ (s.queue t).head ≠ (s.queue t).tail := by
  simp [State.wstartEnabled, State.empty, Queue.isEmpty]

theorem State.answerEnabled_iff {s : State} {t : Port} : s.answerEnabled t = true ↔ (s.worker t).wstate = .busy := by
  simp [State.answerEnabled]

theorem State.wakeEnabled_iff {s : State} : s.wakeEnabled = true ↔ s.ntf.state = .off ∧ s.ntf.sig = true := by
  simp [State.wakeEnabled]

/-! ### the sub-steps -/

theorem subEnqBegin_cases {q : Port} {m : Message} {s s' : State} (he : subEnqBegin q m s = .next s') :
    s.producerBarred .script q = false ∧ m.wf s.cfg.k = true
      ∧ s' = (s.setEnq q (some ⟨m, none, none, .reading⟩)).claim q .script := by
  unfold subEnqBegin at he
  split at he
  · cases he
  · rename_i hb
    split at he <;> cases he
    exact ⟨by simpa using hb, ‹_›, rfl⟩

theorem subE1_cases {q : Port} {s s' : State} (he : subE1 q s = .next s') :
    ∃ m h, s.enq.get q = some ⟨m, none, h, .reading⟩
      ∧ s' = s.setEnq q (some ⟨m, some (s.queue q).tail, h, .reading⟩) := by
  unfold subE1 at he
  split at he <;> cases he
  exact ⟨_, _, ‹_›, rfl⟩

theorem subE2_cases {q : Port} {s s' : State} (he : subE2 q s = .next s') :
    ∃ m t0, s.enq.get q = some ⟨m, t0, none, .reading⟩
      ∧ s' = s.setEnq q (some ⟨m, t0, some (s.queue q).head, .reading⟩) := by
  unfold subE2 at he
  split at he <;> cases he
  exact ⟨_, _, ‹_›, rfl⟩

theorem subE3_cases {q : Port} {s s' : State} (he : subE3 q s = .next s') :
    ∃ m t0 h, s.enq.get q = some ⟨m, some t0, some h, .reading⟩
      ∧ ((inc t0 (s.cfg.slots q) = h ∧ s' = (s.setEnq q none).ret (.bool false))
        ∨ (inc t0 (s.cfg.slots q) ≠ h ∧ s' = s.setEnq q (some ⟨m, some t0, some h, .tested⟩))) := by
  unfold subE3 at he
  split at he
  case h_2 => cases he
  refine ⟨_, _, _, ‹_›, ?_⟩
  split at he <;> cases he
  · exact .inl ⟨‹_›, rfl⟩
  · exact .inr ⟨‹_›, rfl⟩

theorem subE4_cases {q : Port} {s s' : State} (he : subE4 q s = .next s') :
    ∃ m t0 h, s.enq.get q = some ⟨m, some t0, h, .tested⟩ ∧ t0 < (s.queue q).slots.length
      ∧ s' = (s.setQueue q { s.queue q with slots := (s.queue q).slots.set t0 (some m) }).setEnq q
          (some ⟨m, some t0, h, .written⟩) := by
  unfold subE4 at he
  split at he
  case h_2 => cases he
  split at he <;> cases he
  obtain ⟨hlt, rfl⟩ := slotWrite_eq_ok ‹_›
  exact ⟨_, _, _, ‹_›, hlt, rfl⟩

theorem subE5_cases {q : Port} {s s' : State} (he : subE5 q s = .next s') :
    ∃ m t0 h, s.enq.get q = some ⟨m, some t0, h, .written⟩
      ∧ s' = ((s.setQueue q { s.queue q with tail := inc t0 (s.cfg.slots q) }).setEnq q none).ret (.bool true) := by
  unfold subE5 at he
  split at he <;> cases he
  exact ⟨_, _, _, ‹_›, rfl⟩

theorem subDeqBegin_cases {q : Port} {s s' : State} (he : subDeqBegin q s = .next s') :
    s.consumerBarred .script q = false ∧ s' = (s.setDeq q (some ⟨.script, none, none, .reading⟩)).claim q .script := by
  unfold subDeqBegin at he
  split at he <;> cases he
  rename_i hb
  exact ⟨by simpa using hb, rfl⟩

theorem subWstartBegin_cases {t : Port} {s s' : State} (he : subWstartBegin t s = .next s') :
    s.wstartEnabled t = true ∧ s.consumerBarred .router t = false
      ∧ s' = (s.setDeq t (some ⟨.router, none, none, .reading⟩)).claim t .router := by
  unfold subWstartBegin at he
  split at he
  case isFalse => cases he
  rename_i hen
  split at he <;> cases he
  rename_i hb
  exact ⟨hen, by simpa using hb, rfl⟩

theorem subD1_cases {q : Port} {s s' : State} (he : subD1 q s = .next s') :
    ∃ who t, s.deq.get q = some ⟨who, none, t, .reading⟩
      ∧ s' = s.setDeq q (some ⟨who, some (s.queue q).head, t, .reading⟩) := by
  unfold subD1 at he
  split at he <;> cases he
  exact ⟨_, _, ‹_›, rfl⟩

theorem subD2_cases {q : Port} {s s' : State} (he : subD2 q s = .next s') :
    ∃ who h0, s.deq.get q = some ⟨who, h0, none, .reading⟩
      ∧ s' = s.setDeq q (some ⟨who, h0, some (s.queue q).tail, .reading⟩) := by
  unfold subD2 at he
  split at he <;> cases he
  exact ⟨_, _, ‹_›, rfl⟩

theorem subD3_cases {q : Port} {s s' : State} (he : subD3 q s = .next s') :
    ∃ who h0 t, s.deq.get q = some ⟨who, some h0, some t, .reading⟩
      ∧ ((h0 = t ∧ who = .script ∧ s' = (s.setDeq q none).ret (.item none))
        ∨ (h0 = t ∧ who = .router ∧ s' = s.setDeq q none)
        ∨ (h0 ≠ t ∧ s' = s.setDeq q (some ⟨who, some h0, some t, .tested⟩))) := by
  unfold subD3 at he
  split at he
  case h_2 => cases he
  refine ⟨_, _, _, ‹_›, ?_⟩
  split at he
  · split at he <;> cases he
    · exact .inl ⟨‹_›, rfl, rfl⟩
    · exact .inr (.inl ⟨‹_›, rfl, rfl⟩)
  · cases he
    exact .inr (.inr ⟨‹_›, rfl⟩)

theorem subD4_cases {q : Port} {s s' : State} (he : subD4 q s = .next s') :
    ∃ who h0 t m, s.deq.get q = some ⟨who, some h0, t, .tested⟩ ∧ (s.queue q).slots[h0]? = some (some m)
      ∧ s' = s.setDeq q (some ⟨who, some h0, t, .copied m⟩) := by
  unfold subD4 at he
  split at he
  case h_2 => cases he
  split at he <;> cases he
  exact ⟨_, _, _, _, ‹_›, slotRead_eq_ok.mp ‹_›, rfl⟩

theorem subD5_cases {q : Port} {s s' : State} (he : subD5 q s = .next s') :
    ∃ who h0 t m, s.deq.get q = some ⟨who, some h0, t, .copied m⟩
      ∧ ((who = .script ∧ s' = ((s.setQueue q { s.queue q with head := inc h0 (s.cfg.slots q) }).setDeq q none).ret
            (.item (some m)))
        ∨ (who = .router ∧ s' = (s.setQueue q { s.queue q with head := inc h0 (s.cfg.slots q) }).setDeq q
            (some ⟨.router, some h0, t, .dequeued m⟩))) := by
  unfold subD5 at he
  split at he <;> cases he
  · exact ⟨_, _, _, _, ‹_›, .inl ⟨rfl, rfl⟩⟩
  · exact ⟨_, _, _, _, ‹_›, .inr ⟨rfl, rfl⟩⟩

theorem subWstartEncode_cases {t : Port} {s s' : State} (he : subWstartEncode t s = .next s') :
    ∃ who h0 t' m, s.deq.get t = some ⟨who, h0, t', .dequeued m⟩
      ∧ s' = s.setDeq t (some ⟨who, h0, t', .encoded (frameOf m)⟩) := by
  unfold subWstartEncode at he
  split at he <;> cases he
  exact ⟨_, _, _, _, ‹_›, rfl⟩

theorem subWstartTransmit_cases {t : Port} {s s' : State} (he : subWstartTransmit t s = .next s') :
    ∃ who h0 t' f, s.deq.get t = some ⟨who, h0, t', .encoded f⟩ ∧ s' = (s.setDeq t none).startTransmit t f := by
  unfold subWstartTransmit at he
  split at he <;> cases he
  exact ⟨_, _, _, _, ‹_›, rfl⟩

end Sys2Proof.Machine
end

section
/-! Lemmas for 10_state.md: every instruction and every sub-step keeps the invariant (R18, R19, R21, R22, R26;
70_reset_and_hazards.md R182). E5 and D5 are treated as the atomic Q.ENQ and Q.DEQ of the state without the transfer. -/

namespace Sys2Proof.Machine

/-! ### a transfer in progress sees an older index of its peer (70_reset_and_hazards.md R182) -/

/-- Room seen at an older `head` is room. -/
theorem Queue.Inv.room_of_older_head {n k y : Nat} {q : Queue} (hq : q.Inv n k) (hy : y < n)
    (hle : q.len n ≤ occupancy n y q.tail) (hne : inc q.tail n ≠ y) : inc q.tail n ≠ q.head := by
  intro hf
  have hfull : q.len n + 1 = n := (occupancy_full hq.head_lt hq.tail_lt).mpr hf
  have hlt := occupancy_lt hy hq.tail_lt
  exact hne ((occupancy_full hy hq.tail_lt).mp (by omega))

/-- A Message seen at an older `tail` is there. -/
theorem Queue.Inv.nonempty_of_older_tail {n k y : Nat} {q : Queue} (hq : q.Inv n k)
    (hle : occupancy n q.head y ≤ q.len n) (hne : y ≠ q.head) : q.head ≠ q.tail := by
  intro he
  have hempty : q.len n = 0 := (occupancy_eq_zero hq.head_lt).mpr he
  exact hne ((occupancy_eq_zero hq.head_lt).mp (by omega)).symm

theorem EnqProgress.Inv.room_of_written {n k : Nat} {q : Queue} {p : EnqProgress} (hi : p.Inv n k q) (hq : q.Inv n k)
    (hp : p.phase = .written) : inc q.tail n ≠ q.head := by
  obtain ⟨_, y, hy, hne⟩ := hi.room (by simp [hp])
  obtain ⟨hyn, hle⟩ := hi.h_older y hy
  exact hq.room_of_older_head hyn hle hne

/-- Once D3 has passed there is a Message, and h0 is its index. -/
theorem DeqProgress.Inv.nonempty_of_tested {n k : Nat} {q : Queue} {w : Worker} {p : DeqProgress} (hi : p.Inv n k q w)
    (hq : q.Inv n k) (hp : p.phase = .tested) : p.h0 = some q.head ∧ q.head ≠ q.tail := by
  obtain ⟨_, holder, _, hread⟩ := hi.before_d5 (by simp [hp]) (by simp [hp])
  obtain ⟨hh, y, hy, hne⟩ := hread (by simp [hp])
  exact ⟨hh, hq.nonempty_of_older_tail (holder y hy).2 hne⟩

/-! ### E1 to E4 and D1 to D4 keep the agreement of a transfer with its queue -/

theorem EnqProgress.Inv.begin {n k : Nat} {q : Queue} {m : Message} (hm : m.wf k = true) :
    EnqProgress.Inv n k q ⟨m, none, none, .reading⟩ :=
  ⟨hm, by simp, by simp, by simp, by simp⟩

theorem EnqProgress.Inv.read_tail {n k : Nat} {q : Queue} {m : Message} {t0 h : Option Nat}
    (hi : EnqProgress.Inv n k q ⟨m, t0, h, .reading⟩) : EnqProgress.Inv n k q ⟨m, some q.tail, h, .reading⟩ :=
  ⟨hi.item_wf, by simp, hi.h_older, by simp, by simp⟩

theorem EnqProgress.Inv.read_head {n k : Nat} {q : Queue} {m : Message} {t0 h : Option Nat} (hq : q.Inv n k)
    (hi : EnqProgress.Inv n k q ⟨m, t0, h, .reading⟩) : EnqProgress.Inv n k q ⟨m, t0, some q.head, .reading⟩ :=
  ⟨hi.item_wf, hi.t0_eq, by rintro _ ⟨⟩; exact ⟨hq.head_lt, Nat.le_refl _⟩, by simp, by simp⟩

theorem EnqProgress.Inv.tested {n k t0 h : Nat} {q : Queue} {m : Message}
    (hi : EnqProgress.Inv n k q ⟨m, some t0, some h, .reading⟩) (hne : inc t0 n ≠ h) :
    EnqProgress.Inv n k q ⟨m, some t0, some h, .tested⟩ := by
  have ht : t0 = q.tail := hi.t0_eq t0 rfl
  subst ht
  exact ⟨hi.item_wf, hi.t0_eq, hi.h_older, fun _ => ⟨rfl, h, rfl, hne⟩, by simp⟩

theorem EnqProgress.Inv.written {n k : Nat} {q : Queue} {m : Message} {t0 h : Option Nat} (hq : q.Inv n k)
    (hi : EnqProgress.Inv n k q ⟨m, t0, h, .tested⟩) :
    EnqProgress.Inv n k { q with slots := q.slots.set q.tail (some m) } ⟨m, t0, h, .written⟩ :=
  ⟨hi.item_wf, hi.t0_eq, hi.h_older, fun _ => hi.room (by simp), fun _ => by simp [hq.tail_lt_slots]⟩

theorem DeqProgress.Inv.begin_script {n k : Nat} {q : Queue} {w : Worker} :
    DeqProgress.Inv n k q w ⟨.script, none, none, .reading⟩ := by
  constructor <;> simp

theorem DeqProgress.Inv.begin_router {n k : Nat} {q : Queue} {w : Worker} (hw : w.wstate = .idle)
    (hne : q.head ≠ q.tail) : DeqProgress.Inv n k q w ⟨.router, none, none, .reading⟩ := by
  constructor <;> simp [hw, hne]

theorem DeqProgress.Inv.read_head {n k : Nat} {q : Queue} {w : Worker} {who : Party} {h0 t : Option Nat}
    (hi : DeqProgress.Inv n k q w ⟨who, h0, t, .reading⟩) : DeqProgress.Inv n k q w ⟨who, some q.head, t, .reading⟩ := by
  obtain ⟨_, holder, hrouter, _⟩ := hi.before_d5 (by simp) (by simp)
  exact ⟨hi.worker_idle, by simp, fun _ _ => ⟨by simp, holder, hrouter, by simp⟩, by simp, by simp, by simp⟩

theorem DeqProgress.Inv.read_tail {n k : Nat} {q : Queue} {w : Worker} {who : Party} {h0 t : Option Nat} (hq : q.Inv n k)
    (hi : DeqProgress.Inv n k q w ⟨who, h0, t, .reading⟩) : DeqProgress.Inv n k q w ⟨who, h0, some q.tail, .reading⟩ := by
  obtain ⟨hhead, _, hrouter, _⟩ := hi.before_d5 (by simp) (by simp)
  refine ⟨hi.worker_idle, by simp, fun _ _ => ⟨hhead, ?_, fun hr => ⟨(hrouter hr).1, ?_⟩, by simp⟩, by simp, by simp, by simp⟩
  · rintro _ ⟨⟩
    exact ⟨hq.tail_lt, Nat.le_refl _⟩
  · rintro _ ⟨⟩
    exact (hrouter hr).1.symm

theorem DeqProgress.Inv.tested {n k h0 t : Nat} {q : Queue} {w : Worker} {who : Party}
    (hi : DeqProgress.Inv n k q w ⟨who, some h0, some t, .reading⟩) (hne : h0 ≠ t) :
    DeqProgress.Inv n k q w ⟨who, some h0, some t, .tested⟩ := by
  obtain ⟨hhead, holder, hrouter, _⟩ := hi.before_d5 (by simp) (by simp)
  have hh : h0 = q.head := hhead h0 rfl
  subst hh
  exact ⟨hi.worker_idle, by simp, fun _ _ => ⟨hhead, holder, hrouter, fun _ => ⟨rfl, t, rfl, hne.symm⟩⟩, by simp, by simp, by simp⟩

theorem DeqProgress.Inv.copied_item {n k : Nat} {q : Queue} {w : Worker} {who : Party} {h0 t : Option Nat} {m : Message}
    (hi : DeqProgress.Inv n k q w ⟨who, h0, t, .tested⟩) (hm : q.slots[q.head]? = some (some m)) :
    DeqProgress.Inv n k q w ⟨who, h0, t, .copied m⟩ := by
  obtain ⟨hhead, holder, hrouter, hread⟩ := hi.before_d5 (by simp) (by simp)
  exact ⟨hi.worker_idle, by simp, fun _ _ => ⟨hhead, holder, hrouter, fun _ => hread (by simp)⟩,
    by rintro _ ⟨⟩; exact hm, by simp, by simp⟩

theorem DeqProgress.Inv.dequeued_item {n k : Nat} {q : Queue} {w : Worker} {h0 t : Option Nat} {m : Message}
    (hw : w.wstate = .idle) (hm : m.wf k = true) : DeqProgress.Inv n k q w ⟨.router, h0, t, .dequeued m⟩ :=
  ⟨fun _ => hw, by simp, fun h => absurd rfl (h m), by simp, by rintro _ ⟨⟩; exact hm, by simp⟩

theorem DeqProgress.Inv.encoded_frame {n k : Nat} {q : Queue} {w : Worker} {who : Party} {h0 t : Option Nat} {m : Message}
    (hi : DeqProgress.Inv n k q w ⟨who, h0, t, .dequeued m⟩) :
    DeqProgress.Inv n k q w ⟨who, h0, t, .encoded (frameOf m)⟩ :=
  ⟨hi.worker_idle, fun hs => absurd rfl ((hi.script_phase hs).1 m), fun _ h => absurd rfl (h (frameOf m)), by simp, by simp,
    by rintro _ ⟨⟩; exact ⟨m, hi.dequeued m rfl, rfl⟩⟩

/-! ### the updates that sub-steps make -/

/-- A transfer that ends leaves the invariant as it is. -/
theorem State.Inv.end_enq {s : State} (h : s.Inv) (q : Port) : (s.setEnq q none).Inv :=
  setEnq_keeps_inv h (by simp)

theorem State.Inv.end_deq {s : State} (h : s.Inv) (q : Port) : (s.setDeq q none).Inv :=
  setDeq_keeps_inv h (by simp)

/-- A Q.ENQ in progress goes on. -/
theorem State.Inv.go_on_enq {s : State} {q : Port} {p p' : EnqProgress} (h : s.Inv) (hg : s.enq.get q = some p)
    (hi : p'.Inv (s.cfg.slots q) s.cfg.k (s.queue q)) : (s.setEnq q (some p')).Inv :=
  setEnq_keeps_inv h (by rintro _ ⟨⟩; exact ⟨hi, (h.enq q p hg).2⟩)

/-- A Q.DEQ in progress goes on for the same party. -/
theorem State.Inv.go_on_deq {s : State} {q : Port} {p p' : DeqProgress} (h : s.Inv) (hg : s.deq.get q = some p)
    (hw : p'.who = p.who) (hi : p'.Inv (s.cfg.slots q) s.cfg.k (s.queue q) (s.worker q)) : (s.setDeq q (some p')).Inv :=
  setDeq_keeps_inv h (by rintro _ ⟨⟩; exact ⟨hi, hw ▸ (h.deq q p hg).2⟩)

/-- A Q.ENQ that starts on a queue claims it. -/
theorem State.Inv.start_enq {s : State} {q : Port} {p : EnqProgress} (h : s.Inv)
    (ho : ∀ x, s.owner.get q = some x → x = .script) (hi : p.Inv (s.cfg.slots q) s.cfg.k (s.queue q)) :
    ((s.setEnq q (some p)).claim q .script).Inv :=
  setEnq_keeps_inv (h.claim ho) (by rintro _ ⟨⟩; exact ⟨hi, by simp⟩)

/-- A Q.DEQ that starts on a queue claims it. -/
theorem State.Inv.start_deq {s : State} {q : Port} {p : DeqProgress} (h : s.Inv)
    (ho : ∀ x, s.owner.get q = some x → x = p.who) (hi : p.Inv (s.cfg.slots q) s.cfg.k (s.queue q) (s.worker q)) :
    ((s.setDeq q (some p)).claim q p.who).Inv :=
  setDeq_keeps_inv (h.claim ho) (by rintro _ ⟨⟩; exact ⟨hi, by simp⟩)

/-! ### E5 is the atomic Q.ENQ, D5 the atomic Q.DEQ -/

/-- E5 moves `tail` as the script's atomic Q.ENQ of the item does once the transfer is taken away (70_reset_and_hazards.md R182). -/
theorem enqueueAs_of_written {s : State} {q : Port} {p : EnqProgress} (h : s.Inv) (hg : s.enq.get q = some p)
    (hp : p.phase = .written) :
    enqueueAs .script q p.item (s.setEnq q none)
      = .next (true, (s.setQueue q { s.queue q with tail := inc (s.queue q).tail (s.cfg.slots q) }).setEnq q none) := by
  obtain ⟨hi, ho⟩ := h.enq q p hg
  have hq := h.queue q
  have hbar : (s.setEnq q none).producerBarred .script q = false := by
    simp [State.producerBarred_eq_false, ho]
  have hset : (s.queue q).slots.set (s.queue q).tail (some p.item) = (s.queue q).slots := by
    obtain ⟨_, hslot⟩ := List.getElem?_eq_some_iff.mp (hi.slot hp)
    rw [← hslot, List.set_getElem_self]
  have hown : ((s.setEnq q none).setQueue q { s.queue q with tail := inc (s.queue q).tail (s.cfg.slots q) }).owner.get q
      = some .script := ho
  rw [enqueueAs_of_room hbar (hi.room_of_written hq hp) hq.tail_lt_slots]
  simp only [State.setEnq_queue, State.setEnq_cfg, hset, State.claim_of_owner hown]
  rfl

/-- D5 moves `head` and yields the item as its party's atomic Q.DEQ does once the transfer is taken away (70_reset_and_hazards.md
R182). -/
theorem dequeueAs_of_copied {s : State} {q : Port} {p : DeqProgress} {m : Message} (h : s.Inv) (hg : s.deq.get q = some p)
    (hp : p.phase = .copied m) :
    dequeueAs p.who q (s.setDeq q none)
      = .next (some m, (s.setQueue q { s.queue q with head := inc (s.queue q).head (s.cfg.slots q) }).setDeq q none) := by
  obtain ⟨hi, ho⟩ := h.deq q p hg
  have hbar : (s.setDeq q none).consumerBarred p.who q = false := by
    simp [State.consumerBarred_eq_false, ho]
  have hown : ((s.setDeq q none).setQueue q { s.queue q with head := inc (s.queue q).head (s.cfg.slots q) }).owner.get q
      = some p.who := ho
  rw [dequeueAs_of_item hbar (hi.head_ne_tail (h.queue q) hp) (hi.copied m hp)]
  simp only [State.setDeq_queue, State.setDeq_cfg, State.claim_of_owner hown]
  rfl

/-- Until D5, h0 is still `head`. -/
theorem DeqProgress.Inv.h0_eq_of_copied {n k x : Nat} {q : Queue} {w : Worker} {p : DeqProgress} {m : Message}
    (hi : p.Inv n k q w) (hp : p.phase = .copied m) (hx : p.h0 = some x) : x = q.head :=
  (hi.before_d5 (by simp [hp]) (by simp [hp])).1 x hx

/-! ### every sub-step keeps the invariant -/

theorem subE4_keeps_inv {q : Port} {s s' : State} (h : s.Inv) (he : subE4 q s = .next s') : s'.Inv := by
  obtain ⟨m, t0, hh, hg, _, rfl⟩ := subE4_cases he
  obtain ⟨hi, ho⟩ := h.enq q _ hg
  have ht : t0 = (s.queue q).tail := hi.t0_eq t0 rfl
  subst ht
  have hslots := slotWrite_keeps_inv h hi.item_wf ho (by rw [hg]; rintro _ ⟨⟩; simp)
  exact hslots.go_on_enq hg (by simpa using hi.written (h.queue q))

theorem subE5_keeps_inv {q : Port} {s s' : State} (h : s.Inv) (he : subE5 q s = .next s') : s'.Inv := by
  obtain ⟨m, t0, hh, hg, rfl⟩ := subE5_cases he
  obtain ⟨hi, _⟩ := h.enq q _ hg
  have ht : t0 = (s.queue q).tail := hi.t0_eq t0 rfl
  subst ht
  exact (enqueueAs_keeps_inv (h.end_enq q) hi.item_wf (by simp) (enqueueAs_of_written h hg rfl)).ret _

theorem subWstartBegin_keeps_inv {t : Port} {s s' : State} (h : s.Inv) (he : subWstartBegin t s = .next s') : s'.Inv := by
  obtain ⟨hen, hbar, rfl⟩ := subWstartBegin_cases he
  obtain ⟨_, ho⟩ := State.consumerBarred_eq_false.mp hbar
  obtain ⟨hidle, hne⟩ := State.wstartEnabled_iff.mp hen
  exact h.start_deq (p := ⟨.router, none, none, .reading⟩) ho (.begin_router hidle hne)

theorem subD3_keeps_inv {q : Port} {s s' : State} (h : s.Inv) (he : subD3 q s = .next s') : s'.Inv := by
  obtain ⟨who, h0, t, hg, ⟨_, _, rfl⟩ | ⟨_, _, rfl⟩ | ⟨hne, rfl⟩⟩ := subD3_cases he
  · exact (h.end_deq q).ret _
  · exact h.end_deq q
  · exact h.go_on_deq hg rfl ((h.deq q _ hg).1.tested hne)

theorem subD4_keeps_inv {q : Port} {s s' : State} (h : s.Inv) (he : subD4 q s = .next s') : s'.Inv := by
  obtain ⟨who, h0, t, m, hg, hm, rfl⟩ := subD4_cases he
  obtain ⟨hi, _⟩ := h.deq q _ hg
  obtain ⟨hh, _⟩ := hi.nonempty_of_tested (h.queue q) rfl
  cases hh
  exact h.go_on_deq hg rfl (hi.copied_item hm)

theorem subD5_keeps_inv {q : Port} {s s' : State} (h : s.Inv) (he : subD5 q s = .next s') : s'.Inv := by
  obtain ⟨who, h0, t, m, hg, hcases⟩ := subD5_cases he
  obtain ⟨hi, ho⟩ := h.deq q _ hg
  have hh : h0 = (s.queue q).head := hi.h0_eq_of_copied rfl rfl
  subst hh
  have hdeq := dequeueAs_keeps_inv (h.end_deq q) (dequeueAs_of_copied h hg rfl)
  obtain ⟨_, rfl⟩ | ⟨rfl, rfl⟩ := hcases
  · exact hdeq.ret _
  · have hm : m.wf s.cfg.k = true := (h.queue q).slot_wf (hi.copied m rfl)
    have := setDeq_keeps_inv (q := q) hdeq (x := some ⟨.router, some (s.queue q).head, t, .dequeued m⟩)
      (by rintro _ ⟨⟩; exact ⟨.dequeued_item (hi.worker_idle rfl) hm, ho⟩)
    simpa [State.setDeq] using this

/-- The frame in a worker's hands is W bytes long (10_state.md R21). -/
theorem DeqProgress.Inv.encoded_length {n : Nat} {c : Config} {q : Queue} {w : Worker} {p : DeqProgress} {f : List Byte}
    (hi : p.Inv n c.k q w) (hp : p.phase = .encoded f) : f.length = c.w := by
  obtain ⟨m, hm, rfl⟩ := hi.encoded f hp
  exact frameOf_length_of_wf hm

theorem subWstartTransmit_keeps_inv {t : Port} {s s' : State} (h : s.Inv) (he : subWstartTransmit t s = .next s') :
    s'.Inv := by
  obtain ⟨who, h0, t', f, hg, rfl⟩ := subWstartTransmit_cases he
  obtain ⟨hi, _⟩ := h.deq t _ hg
  exact startTransmit_keeps_inv (h.end_deq t) (hi.encoded_length rfl) (by simp)

/-- Every sub-step keeps the invariant. -/
theorem execSub_keeps_inv {m : SubStep} {s s' : State} (h : s.Inv) (he : execSub m s = .next s') : s'.Inv := by
  cases m with
  | enqBegin q m =>
    obtain ⟨hbar, hm, rfl⟩ := subEnqBegin_cases he
    exact h.start_enq (State.producerBarred_eq_false.mp hbar).2 (.begin hm)
  | e1 q =>
    obtain ⟨m, hh, hg, rfl⟩ := subE1_cases he
    exact h.go_on_enq hg (h.enq q _ hg).1.read_tail
  | e2 q =>
    obtain ⟨m, t0, hg, rfl⟩ := subE2_cases he
    exact h.go_on_enq hg ((h.enq q _ hg).1.read_head (h.queue q))
  | e3 q =>
    obtain ⟨m, t0, hh, hg, ⟨_, rfl⟩ | ⟨hne, rfl⟩⟩ := subE3_cases he
    · exact (h.end_enq q).ret _
    · exact h.go_on_enq hg ((h.enq q _ hg).1.tested hne)
  | e4 q => exact subE4_keeps_inv h he
  | e5 q => exact subE5_keeps_inv h he
  | deqBegin q =>
    obtain ⟨hbar, rfl⟩ := subDeqBegin_cases he
    exact h.start_deq (p := ⟨.script, none, none, .reading⟩) (State.consumerBarred_eq_false.mp hbar).2 .begin_script
  | wstartBegin t => exact subWstartBegin_keeps_inv h he
  | d1 q =>
    obtain ⟨who, t, hg, rfl⟩ := subD1_cases he
    exact h.go_on_deq hg rfl (h.deq q _ hg).1.read_head
  | d2 q =>
    obtain ⟨who, h0, hg, rfl⟩ := subD2_cases he
    exact h.go_on_deq hg rfl ((h.deq q _ hg).1.read_tail (h.queue q))
  | d3 q => exact subD3_keeps_inv h he
  | d4 q => exact subD4_keeps_inv h he
  | d5 q => exact subD5_keeps_inv h he
  | wstartEncode t =>
    obtain ⟨who, h0, t', m, hg, rfl⟩ := subWstartEncode_cases he
    exact h.go_on_deq hg rfl (h.deq t _ hg).1.encoded_frame
  | wstartTransmit t => exact subWstartTransmit_keeps_inv h he

end Sys2Proof.Machine
end

section
/-! Every instruction keeps the invariant, so every step does (O12). -/

namespace Sys2Proof.Machine

/-- What C.DEC does: it returns the Message, or the error kind (40_codec.md R81). -/
theorem execCDec_cases {b : List Byte} {s s' : State} (he : execCDec b s = .next s') :
    (∃ m, decodeFrame s.cfg b = .ok m ∧ s' = s.ret (.message m))
      ∨ ∃ st, decodeFrame s.cfg b = .error st ∧ s' = s.ret (.status st) := by
  unfold execCDec at he
  split at he <;> cases he
  · exact .inl ⟨_, ‹_›, rfl⟩
  · exact .inr ⟨_, ‹_›, rfl⟩

/-- R.WSTART is the worker's Q.DEQ and then the transmit (42_router.md R114). -/
theorem execRWstart_keeps_inv {t : Port} {s s' : State} (h : s.Inv) (he : execRWstart t s = .next s') : s'.Inv := by
  obtain ⟨_, m, hne, hm, hbar, rfl⟩ := execRWstart_cases he
  have hdeq := dequeueAs_keeps_inv h (dequeueAs_of_item hbar hne hm)
  have hlen : (frameOf m).length = s.cfg.w := frameOf_length_of_wf ((h.queue t).slot_wf hm)
  exact startTransmit_keeps_inv hdeq hlen (State.consumerBarred_eq_false.mp hbar).1

/-- A new signal keeps the invariant: level and events are as before (43_notifier.md R130). -/
theorem State.Inv.signal {s : State} (h : s.Inv) : s.signal.Inv :=
  setNtf_keeps_inv h h.ntf rfl rfl rfl h.ind

/-- A worker that becomes IDLE keeps its frame and its count. -/
theorem Worker.Inv.idle {c : Config} {w : Worker} (h : w.Inv c) : ({ w with wstate := .idle } : Worker).Inv c :=
  ⟨h.retry_le, by simp, h.frame_len⟩

theorem execRWdone_keeps_inv {t : Port} {s s' : State} (h : s.Inv) (he : execRWdone t s = .next s') : s'.Inv := by
  unfold execRWdone at he
  split at he <;> cases he
  rename_i hb
  exact (setWorker_keeps_inv h.signal (h.worker t).idle (State.answerEnabled_iff.mp hb)).ret _

/-- A TxStart with a frame of W bytes keeps the invariant (10_state.md R28). -/
theorem State.Inv.emit_txStart {s : State} {t : Port} {f : List Byte} (h : s.Inv) (hf : f.length = s.cfg.w) :
    (s.emit (.txStart t f)).Inv := by
  obtain ⟨htx, hrearm, hstat⟩ := h.streams
  refine ⟨h.cfg_wf, h.queue, h.owned, h.worker, h.ntf, ⟨fun u e he => ?_, hrearm, hstat⟩, h.ind, h.enq, h.deq⟩
  simp only [State.emit_out, Streams.emit_txStart_tx, Pair.get_set] at he
  split at he
  · subst u
    obtain he | rfl := by simpa using he
    · exact htx _ e he
    · exact ⟨f, rfl, hf⟩
  · exact htx u e he

theorem execRWfail_keeps_inv {t : Port} {s s' : State} (h : s.Inv) (he : execRWfail t s = .next s') : s'.Inv := by
  have hw := h.worker t
  unfold execRWfail at he
  split at he
  case isFalse => cases he
  rename_i hb
  have hbusy := State.answerEnabled_iff.mp hb
  split at he
  · rename_i hlt
    split at he <;> cases he
    rename_i f hf
    have hw' : ({ s.worker t with retry := (s.worker t).retry + 1 } : Worker).Inv s.cfg :=
      ⟨hlt, hw.busy_frame, hw.frame_len⟩
    exact ((setWorker_keeps_inv h hw' hbusy).emit_txStart (hw.frame_len f hf)).ret _
  · cases he
    exact (setWorker_keeps_inv h hw.idle hbusy).ret _

theorem execNWake_keeps_inv {s s' : State} (h : s.Inv) (he : execNWake s = .next s') : s'.Inv := by
  unfold execNWake at he
  split at he <;> cases he
  rename_i hen
  obtain ⟨hoff, _⟩ := State.wakeEnabled_iff.mp hen
  have hdark : indLevel false s.out.ind = some false := by
    simp only [h.ind, State.led, hoff]
    rfl
  have hx : Notifier.Inv s.cfg ⟨.on, false, s.cfg.holdTicks⟩ :=
    ⟨Config.wf.one_le_holdTicks h.cfg_wf, Nat.le_refl _⟩
  have hlevel : indLevel false (s.out.ind ++ [.activate]) = some true := by
    simp [indLevel_append, hdark, indLevel]
  exact (setNtf_keeps_inv h hx (o := s.out.emit .activate) rfl rfl rfl hlevel).ret _

theorem execNTick_keeps_inv {s s' : State} (h : s.Inv) (he : execNTick s = .next s') : s'.Inv := by
  unfold execNTick at he
  split at he
  · cases he
    exact h.ret _
  rename_i hon
  have hlit : indLevel false s.out.ind = some true := by simp [h.ind, State.led, hon]
  have hcnt : 1 ≤ s.ntf.cnt ∧ s.ntf.cnt ≤ s.cfg.holdTicks := by simpa [Notifier.Inv, hon] using h.ntf
  have hhold := Config.wf.one_le_holdTicks h.cfg_wf
  split at he
  · cases he
    have hx : Notifier.Inv s.cfg { s.ntf with cnt := s.ntf.cnt - 1 } := by
      simp only [Notifier.Inv, hon]
      omega
    exact (setNtf_keeps_inv h hx (o := s.out) rfl rfl rfl (by simp [hlit, hon])).ret _
  split at he <;> cases he
  · have hx : Notifier.Inv s.cfg { s.ntf with sig := false, cnt := s.cfg.holdTicks } := by
      simp [Notifier.Inv, hon, hhold]
    exact (setNtf_keeps_inv h hx (o := s.out) rfl rfl rfl (by simp [hlit, hon])).ret _
  · have hx : Notifier.Inv s.cfg { s.ntf with state := .off, cnt := 0 } := rfl
    have hlevel : indLevel false (s.out.ind ++ [.deactivate]) = some false := by
      simp [indLevel_append, hlit, indLevel]
    exact (setNtf_keeps_inv h hx (o := s.out.emit .deactivate) rfl rfl rfl hlevel).ret _

/-- Every instruction that a step can fetch keeps the invariant. A script's Q.ENQ has an operand of K body bytes, as its encoding
carries. -/
theorem exec_keeps_inv {i : Instr} {s s' : State} (h : s.Inv) (hi : i.wf s.cfg.k = true ∨ ∃ t b, i = .rRx t b)
    (he : exec i s = .next s') : s'.Inv := by
  cases i with
  | qIsEmpty | qIsFull | qLen | cEnc =>
    cases he
    exact h.ret _
  | cDec b =>
    obtain ⟨m, _, rfl⟩ | ⟨st, _, rfl⟩ := execCDec_cases he
    · exact h.ret _
    · exact h.ret _
  | qEnq q m =>
    obtain ⟨⟨ok, s₁⟩, hen, hx⟩ := andThen_eq_next he
    cases hx
    exact (enqueueAs_keeps_inv h (by simpa [Instr.wf] using hi) (by simp) hen).ret _
  | qDeq q =>
    obtain ⟨⟨o, s₁⟩, hde, hx⟩ := andThen_eq_next he
    cases hx
    exact (dequeueAs_keeps_inv h hde).ret _
  | rRx t b => exact serveReceive_keeps_inv h he
  | frame t f => exact serveReceive_keeps_inv h he
  | rWstart t => exact execRWstart_keeps_inv h he
  | rWdone t => exact execRWdone_keeps_inv h he
  | rWfail t => exact execRWfail_keeps_inv h he
  | nWake => exact execNWake_keeps_inv h he
  | nTick => exact execNTick_keeps_inv h he
  | sysReset =>
    cases he
    exact clear_keeps_inv h

end Sys2Proof.Machine

namespace Sys2Proof.Proofs

open Sys2Proof.Machine

/-- Settles O12: a step is an instruction or a sub-step from the state with another schedule, which the invariant does not look at, and
each of them keeps it. -/
theorem stepKeepsInvariant : Obligations.StepKeepsInvariant := by
  intro s s' h he
  obtain ⟨i, s₁, hf, hx⟩ | ⟨m, s₁, hf, hx⟩ := step_cases he
  · have hi := fetch_instr_wf hf
    obtain ⟨_, ⟨tr, tu, rfl⟩, _⟩ := fetch_instr_cases hf
    exact exec_keeps_inv (h.schedule tr tu) hi hx
  · obtain ⟨_, tu, rfl⟩ := fetch_sub_cases hf
    exact execSub_keeps_inv (h.schedule s.trace tu) hx

end Sys2Proof.Proofs
end

section
/-! What can end in a fault: no step in a state that meets the invariant (O13), and the operations that read a slot or transmit buffer
which holds no value (O31; 10_state.md R19, R21). -/

namespace Sys2Proof.Machine

/-! ### no fault under the invariant -/

/-- A composed operation faults in its first part or in what follows. -/
theorem andThen_eq_fault {α β : Type} {x : Out α} {f : α → Out β} {r : Fault} (h : andThen x f = .fault r) :
    x = .fault r ∨ ∃ a, x = .next a ∧ f a = .fault r := by
  cases x with
  | next a => exact .inr ⟨a, rfl, h⟩
  | fault _ => cases h; exact .inl rfl
  | refused _ => cases h

/-- A Q.ENQ by a party writes the slot at `tail`, which exists (20_memory.md R40). -/
theorem enqueueAs_ne_fault {who : Party} {q : Port} {m : Message} {s : State} (h : s.Inv) (f : Fault) :
    enqueueAs who q m s ≠ .fault f := by
  cases hb : s.producerBarred who q with
  | true => simp [enqueueAs_of_barred hb]
  | false =>
    by_cases hf : inc (s.queue q).tail (s.cfg.slots q) = (s.queue q).head
    · simp [enqueueAs_of_full hb hf]
    · simp [enqueueAs_of_room hb hf (h.queue q).tail_lt_slots]

/-- A Q.DEQ by a party reads the slot at `head` of a queue that is not empty, which is written (10_state.md R19). -/
theorem dequeueAs_ne_fault {who : Party} {q : Port} {s : State} (h : s.Inv) (f : Fault) :
    dequeueAs who q s ≠ .fault f := by
  cases hb : s.consumerBarred who q with
  | true => simp [dequeueAs_of_barred hb]
  | false =>
    by_cases he : (s.queue q).head = (s.queue q).tail
    · simp [dequeueAs_of_empty hb he]
    · obtain ⟨m, hm⟩ := (h.queue q).head_written he
      simp [dequeueAs_of_item hb he hm]

theorem serveReceive_ne_fault {t : Port} {b : List Byte} {s : State} (h : s.Inv) (f : Fault) :
    serveReceive t b s ≠ .fault f := by
  intro hx
  unfold serveReceive at hx
  split at hx
  · cases hx
  · obtain hx | ⟨_, _, hx⟩ := andThen_eq_fault hx
    · exact enqueueAs_ne_fault h f hx
    · cases hx

theorem execRWstart_ne_fault {t : Port} {s : State} (h : s.Inv) (f : Fault) : execRWstart t s ≠ .fault f := by
  intro hx
  unfold execRWstart at hx
  split at hx
  case isFalse => cases hx
  obtain hx | ⟨_, _, hx⟩ := andThen_eq_fault hx
  · exact dequeueAs_ne_fault h f hx
  · split at hx <;> cases hx

/-- A BUSY worker has the frame that a retry sends again (10_state.md R21). -/
theorem execRWfail_ne_fault {t : Port} {s : State} (h : s.Inv) (f : Fault) : execRWfail t s ≠ .fault f := by
  intro hx
  unfold execRWfail at hx
  split at hx
  case isFalse => cases hx
  rename_i hb
  obtain ⟨fr, hfr⟩ := (h.worker t).busy_frame (State.answerEnabled_iff.mp hb)
  simp only [hfr] at hx
  split at hx <;> cases hx

/-- No instruction faults in a state that meets the invariant. -/
theorem exec_ne_fault {i : Instr} {s : State} (h : s.Inv) (f : Fault) : exec i s ≠ .fault f := by
  intro hx
  cases i with
  | qIsEmpty | qIsFull | qLen | cEnc | sysReset => cases hx
  | cDec b =>
    simp only [exec, execCDec] at hx
    split at hx <;> cases hx
  | qEnq q m =>
    obtain hx | ⟨_, _, hx⟩ := andThen_eq_fault hx
    · exact enqueueAs_ne_fault h f hx
    · cases hx
  | qDeq q =>
    obtain hx | ⟨_, _, hx⟩ := andThen_eq_fault hx
    · exact dequeueAs_ne_fault h f hx
    · cases hx
  | rRx t b => exact serveReceive_ne_fault h f hx
  | frame t fr => exact serveReceive_ne_fault h f hx
  | rWstart t => exact execRWstart_ne_fault h f hx
  | rWdone t =>
    simp only [exec, execRWdone] at hx
    split at hx <;> cases hx
  | rWfail t => exact execRWfail_ne_fault h f hx
  | nWake =>
    simp only [exec, execNWake] at hx
    split at hx <;> cases hx
  | nTick =>
    simp only [exec, execNTick] at hx
    repeat' split at hx
    all_goals cases hx

/-- E4 writes the slot at `tail`, which exists (20_memory.md R40). -/
theorem subE4_ne_fault {q : Port} {s : State} (h : s.Inv) (f : Fault) : subE4 q s ≠ .fault f := by
  intro hx
  unfold subE4 at hx
  split at hx
  case h_2 => cases hx
  rename_i m t0 hh hg
  have ht : t0 = (s.queue q).tail := (h.enq q _ hg).1.t0_eq t0 rfl
  rw [ht, slotWrite_ok m (h.queue q).tail_lt_slots] at hx
  cases hx

/-- D4 reads the slot at `head` of a queue that is not empty, which is written (10_state.md R19). -/
theorem subD4_ne_fault {q : Port} {s : State} (h : s.Inv) (f : Fault) : subD4 q s ≠ .fault f := by
  intro hx
  unfold subD4 at hx
  split at hx
  case h_2 => cases hx
  rename_i who h0 t hg
  obtain ⟨hh, hne⟩ := (h.deq q _ hg).1.nonempty_of_tested (h.queue q) rfl
  cases hh
  obtain ⟨m, hm⟩ := (h.queue q).head_written hne
  rw [slotRead_eq_ok.mpr hm] at hx
  cases hx

/-- No sub-step faults in a state that meets the invariant: only E4 and D4 access a slot. -/
theorem execSub_ne_fault {m : SubStep} {s : State} (h : s.Inv) (f : Fault) : execSub m s ≠ .fault f := by
  cases m with
  | e4 q => exact subE4_ne_fault h f
  | d4 q => exact subD4_ne_fault h f
  | enqBegin | e1 | e2 | e3 | e5 | deqBegin | wstartBegin | d1 | d2 | d3 | d5 | wstartEncode | wstartTransmit =>
    intro hx
    simp only [execSub, subEnqBegin, subE1, subE2, subE3, subE5, subDeqBegin, subWstartBegin, subD1, subD2, subD3, subD5,
      subWstartEncode, subWstartTransmit] at hx
    repeat' split at hx
    all_goals cases hx

/-- A step that faults does so in an instruction or a sub-step. -/
theorem step_eq_fault {s : State} {f : Fault} (h : step s = .fault f) :
    (∃ i s₁, fetch s = .instr i s₁ ∧ exec i s₁ = .fault f) ∨ ∃ m s₁, fetch s = .sub m s₁ ∧ execSub m s₁ = .fault f := by
  unfold step at h
  split at h
  · exact .inl ⟨_, _, ‹_›, h⟩
  · exact .inr ⟨_, _, ‹_›, h⟩
  · cases h

/-! ### reading what holds no value -/

theorem slotRead_of_unwritten {slots : Memory} {i : Nat} (h : slots[i]? = some none) : slotRead slots i = .error .readNoValue := by
  simp [slotRead, h]

theorem dequeueAs_of_unwritten {who : Party} {q : Port} {s : State} (hb : s.consumerBarred who q = false)
    (hne : (s.queue q).head ≠ (s.queue q).tail) (hs : (s.queue q).slots[(s.queue q).head]? = some none) :
    dequeueAs who q s = .fault .readNoValue := by
  have he : ¬ (s.queue q).isEmpty = true := fun he => hne (Queue.isEmpty_iff.mp he)
  simp [dequeueAs, hb, Queue.dequeue, he, slotRead_of_unwritten hs]

/-- A stand-alone queue is the script's to consume (70_reset_and_hazards.md R185). -/
theorem State.standAlone.consumer_free {s : State} {q : Port} (h : s.standAlone q) : s.consumerBarred .script q = false := by
  obtain ⟨⟨_, hdeq⟩, ho⟩ := h
  refine State.consumerBarred_eq_false.mpr ⟨hdeq, fun p hp => ?_⟩
  cases p with
  | script => rfl
  | router => exact absurd hp ho

/-- A settled queue of the router is its worker's to consume (70_reset_and_hazards.md R185). -/
theorem State.routed.consumer_free {s : State} {q : Port} (h : s.routed q) (hs : s.settled q) :
    s.consumerBarred .router q = false := by
  refine State.consumerBarred_eq_false.mpr ⟨hs.2, fun p hp => ?_⟩
  cases p with
  | script => exact absurd hp h
  | router => rfl

/-- The sub-step D4 of a transfer that has passed D3 reads the slot at h0. -/
theorem subD4_of_unwritten {q : Port} {s : State} {p : DeqProgress} {x : Nat} (hg : s.deq.get q = some p)
    (hp : p.phase = .tested) (hx : p.h0 = some x) (hs : (s.queue q).slots[x]? = some none) :
    subD4 q s = .fault .readNoValue := by
  obtain ⟨who, h0, t, ph⟩ := p
  cases hp
  cases hx
  simp [subD4, hg, slotRead_of_unwritten hs]

end Sys2Proof.Machine

namespace Sys2Proof.Proofs

open Sys2Proof.Machine

/-- Settles O13: a fault would come from an instruction or a sub-step, and the invariant says that what they read is written. -/
theorem invariantStatesNeverFault : Obligations.InvariantStatesNeverFault := by
  intro s f h hx
  obtain ⟨i, s₁, hf, hx⟩ | ⟨m, s₁, hf, hx⟩ := step_eq_fault hx
  · obtain ⟨_, ⟨tr, tu, rfl⟩, _⟩ := fetch_instr_cases hf
    exact exec_ne_fault (h.schedule tr tu) f hx
  · obtain ⟨_, tu, rfl⟩ := fetch_sub_cases hf
    exact execSub_ne_fault (h.schedule s.trace tu) f hx

/-- Settles O31: each of the four reads meets a slot or buffer without a value, once nothing bars the operation before. -/
theorem readingNoValueFaults : Obligations.ReadingNoValueFaults := by
  intro s
  refine ⟨fun q hsa hne hs => ?_, fun t hset hr hidle hne hs => ?_, fun q p x hg hp hx hs => subD4_of_unwritten hg hp hx hs,
    fun t hbusy hlt hb => ?_⟩
  · simp [exec, execQDeq, dequeueAs_of_unwritten hsa.consumer_free hne hs]
  · simp [exec, execRWstart, State.wstartEnabled_iff.mpr ⟨hidle, hne⟩, dequeueAs_of_unwritten (hr.consumer_free hset) hne hs]
  · simp [exec, execRWfail, State.answerEnabled_iff.mpr hbusy, hlt, hb]

end Sys2Proof.Proofs
end

section
/-! The state after reset (10_state.md R32): its values (O8), and that it meets the invariant (O11). -/

namespace Sys2Proof.Machine

/-! ### each element after reset -/

@[simp] theorem State.resetWith_queue (c : Config) (q : Port) : (State.resetWith c).queue q = Queue.reset (c.slots q) := by
  cases q <;> rfl

@[simp] theorem State.resetWith_worker (c : Config) (t : Port) : (State.resetWith c).worker t = Worker.reset :=
  Pair.get_mk_same _ t

@[simp] theorem State.resetWith_owner (c : Config) (q : Port) : (State.resetWith c).owner.get q = none :=
  Pair.get_mk_same _ q

@[simp] theorem State.resetWith_enq (c : Config) (q : Port) : (State.resetWith c).enq.get q = none :=
  Pair.get_mk_same _ q

@[simp] theorem State.resetWith_deq (c : Config) (q : Port) : (State.resetWith c).deq.get q = none :=
  Pair.get_mk_same _ q

@[simp] theorem Streams.reset_tx (t : Port) : Streams.reset.tx.get t = [] :=
  Pair.get_mk_same _ t

@[simp] theorem Streams.reset_rearm (t : Port) : Streams.reset.rearm.get t = [] :=
  Pair.get_mk_same _ t

@[simp] theorem Streams.reset_stat (t : Port) : Streams.reset.stat.get t = [] :=
  Pair.get_mk_same _ t

theorem Queue.reset_unwritten {n : Nat} {x : Option Message} (hx : x ∈ (Queue.reset n).slots) : x = none :=
  List.eq_of_mem_replicate hx

theorem State.resetWith_settled (c : Config) (q : Port) : (State.resetWith c).settled q := by
  simp [State.settled]

/-! ### each element's invariant after reset -/

theorem Queue.reset_ownedBy (n : Nat) : (Queue.reset n).OwnedBy none :=
  ⟨fun _ => ⟨rfl, rfl, fun _ => Queue.reset_unwritten⟩, by simp⟩

theorem Worker.reset_inv (c : Config) : Worker.reset.Inv c :=
  ⟨Nat.zero_le _, by simp [Worker.reset], by simp [Worker.reset]⟩

theorem Streams.reset_inv (c : Config) : Streams.reset.Inv c :=
  ⟨by simp, by simp, by simp⟩

/-- The invariant holds after reset. -/
theorem State.resetWith_inv {c : Config} (hc : c.wf = true) : (State.resetWith c).Inv where
  cfg_wf := hc
  queue q := by
    rw [State.resetWith_queue]
    exact Queue.reset_inv _ (Config.wf.two_le_slots hc q)
  owned q := by
    rw [State.resetWith_queue, State.resetWith_owner]
    exact Queue.reset_ownedBy _
  worker t := by
    rw [State.resetWith_worker]
    exact Worker.reset_inv _
  ntf := rfl
  streams := Streams.reset_inv _
  ind := rfl
  enq := by simp
  deq := by simp

end Sys2Proof.Machine

namespace Sys2Proof.Proofs

open Sys2Proof.Machine

/-- Settles O8: each element after reset, read off one by one; the derived views follow from both indices being 0 and the workers
IDLE. -/
theorem resetStateHoldsSpecValues : Obligations.ResetStateHoldsSpecValues := by
  intro c s
  have hqueue : ∀ q, s.queue q = Queue.reset (c.slots q) := State.resetWith_queue c
  have hworker : ∀ t, s.worker t = Worker.reset := State.resetWith_worker c
  have hempty : ∀ q, s.empty q = true := fun q => by simp [State.empty, hqueue, Queue.isEmpty, Queue.reset]
  refine ⟨fun q => ?_, fun t => ?_, rfl, rfl, rfl, rfl, fun q => ⟨hempty q, ?_⟩, fun t => ?_, rfl, fun q => ?_, rfl⟩
  · rw [hqueue]
    exact ⟨rfl, rfl, List.length_replicate, fun _ => Queue.reset_unwritten⟩
  · rw [hworker]
    exact ⟨rfl, rfl, rfl⟩
  · simp [State.pipeState, hempty, hworker, Worker.reset]
  · exact ⟨Streams.reset_tx t, Streams.reset_rearm t, Streams.reset_stat t⟩
  · exact ⟨State.resetWith_settled c q, State.resetWith_owner c q⟩

/-- Settles O11: the invariant holds after reset of every well-formed configuration, and the one of State.reset is well-formed. -/
theorem resetMeetsInvariant : Obligations.ResetMeetsInvariant :=
  ⟨fun _ => State.resetWith_inv, State.resetWith_inv (by decide)⟩

end Sys2Proof.Proofs
end

section
/-! What a step takes from the schedule beside records (O5), the Messages that C.DEC returns (O17), and who writes a queue's indices and
slots (O29; 10_state.md R13, R16, R29). -/

namespace Sys2Proof.Machine

/-! ### arrivals and sub-steps of the schedule -/

/-- The W bytes of a frame arrive as that frame (30_encoding.md R60). -/
theorem decodeWire_of_frame {k : Nat} {f : Frame} (t : Port) (h : f.wf k = true) : decodeWire k t f.bytes = .frame t f := by
  have hb : f.body.length = k := by simpa [Frame.wf] using h
  simp [decodeWire, Frame.bytes, parseFrame, hb]

/-- What is no frame arrives as R.RX (10_state.md R29). -/
theorem decodeWire_of_length {c : Config} {b : List Byte} (t : Port) (h : b.length ≠ c.w) :
    decodeWire c.k t b = .rRx t b := by
  have hp : parseFrame c.k b = none := by
    unfold parseFrame
    split
    · rename_i body
      have : body.length ≠ c.k := fun hb => h (by simp only [List.length_cons, Config.w]; omega)
      rw [if_neg this]
    · rfl
  simp [decodeWire, hp]

theorem step_of_wire {s : State} {t : Port} {b : List Byte} {ts : List Turn} (hc : s.cfg.wf = true)
    (h : s.turns = .wire t b :: ts) : step s = exec (decodeWire s.cfg.k t b) { s with turns := ts } := by
  simp [step, fetch, hc, h]

theorem step_of_sub {s : State} {m : SubStep} {ts : List Turn} (hc : s.cfg.wf = true) (h : s.turns = .sub m :: ts) :
    step s = execSub m { s with turns := ts } := by
  simp [step, fetch, hc, h]

end Sys2Proof.Machine

namespace Sys2Proof.Proofs

open Sys2Proof.Machine

/-- Settles O5: a scheduled arrival is read as the frame its bytes are, or as R.RX. -/
theorem stepRunsArrivalOrSubStep : Obligations.StepRunsArrivalOrSubStep := by
  intro s ts hc
  refine ⟨fun t f h hf => ?_, fun t b h hb => ?_, fun m h => step_of_sub hc h⟩
  · rw [step_of_wire hc h, decodeWire_of_frame t hf]
  · rw [step_of_wire hc h, decodeWire_of_length t hb]

/-- Settles O17: a Message in the result is one that decodeFrame accepted. -/
theorem decodedMessagesValid : Obligations.DecodedMessagesValid := by
  intro s s' b m hc he hm
  obtain ⟨x, hd, rfl⟩ | ⟨st, _, rfl⟩ := execCDec_cases he
  · cases hm
    have hv := decodeFrame_valid hc hd
    have hk := decodeFrame_wf hd
    simp only [Message.valid, Bool.and_eq_true, bne_iff_ne] at hv
    exact ⟨hv.1, hv.2, by simpa [Message.wf] using hk⟩
  · cases hm

/-- Settles O29: an instruction leaves the queue alone, stores a Message at `tail`, or takes one at `head`. -/
theorem singleWriterOfIndices : Obligations.SingleWriterOfIndices := by
  intro i s s' q he hr
  obtain hq | ⟨m, hi, _, _, hq⟩ | ⟨m, hi, _, _, hq⟩ | ⟨hi, _⟩ := exec_queue_cases q he
  · simp [hq]
  · refine ⟨fun h => absurd (by rw [hq]) h, fun _ => ?_⟩
    obtain rfl | ⟨b, hb, _⟩ := hi
    · exact .inl ⟨m, rfl⟩
    · exact .inr ⟨b, hb⟩
  · exact ⟨fun _ => hi, by simp [hq]⟩
  · exact absurd hi hr

end Sys2Proof.Proofs
end

section
/-! The encoding (O1 to O4, O7): the operation table as the decoder and the encoder read it, the operands of a record, and what a step takes
from the trace (30_encoding.md R67 to R71). -/

namespace Sys2Proof.Machine

/-! ### opids -/

/-- The opids without a row of the table are those R71 reserves: 256 bytes, one by one. -/
theorem findOp_eq_none_iff (b : Byte) : findOp opTable b = none ↔ reservedOpid b = true := by
  revert b
  decide

/-- An opid made of a row's value and the index of a queue or transport is read as that row and that index (30_encoding.md R70). -/
theorem opid_of_indexed_row {v : Byte} {op : OpName} (hr : ⟨0xFE, v, op⟩ ∈ opTable) (q : Port) :
    findOp opTable (v ||| portBit q) = some op ∧ portOf (v ||| portBit q) = q := by
  have key : ∀ r ∈ opTable, r.mask = 0xFE →
      findOp opTable (r.value ||| portBit q) = some r.op ∧ portOf (r.value ||| portBit q) = q := by
    cases q <;> decide
  exact key _ hr rfl

/-- The opid of a row without an index is read as that row (30_encoding.md R70). -/
theorem opid_of_plain_row {v : Byte} {op : OpName} (hr : ⟨0xFF, v, op⟩ ∈ opTable) : findOp opTable v = some op := by
  have key : ∀ r ∈ opTable, r.mask = 0xFF → findOp opTable r.value = some r.op := by decide
  exact key _ hr rfl

/-! ### operands -/

/-- The bytes of a Message are read back as that Message (30_encoding.md R69). -/
theorem parseMessage_bytes {k : Nat} {m : Message} (later : List Byte) (h : m.wf k = true) :
    parseMessage k (m.bytes ++ later) = some (m, later) := by
  have hk : m.body.length = k := by simpa [Message.wf] using h
  subst hk
  simp [Message.bytes, parseMessage, takeExact_append]

/-- At most 255 bytes and their length byte are read back as those bytes (30_encoding.md R70). -/
theorem parseBytes_lengthBytes {b : List Byte} (later : List Byte) (h : bytesWf b = true) :
    parseBytes (lengthBytes b ++ later) = some (b, later) := by
  have hl : b.length ≤ 255 := by simpa [bytesWf] using h
  have hn : (BitVec.ofNat 8 b.length).toNat = b.length := by simp only [BitVec.toNat_ofNat]; omega
  simp [lengthBytes, parseBytes, hn, takeExact_append]

/-! ### records -/

theorem decode_of_op {k : Nat} {b : Byte} {op : OpName} {rest : List Byte} {r : Instr × List Byte}
    (hop : findOp opTable b = some op) (h : parseOperands k op (portOf b) rest = some r) : decode k (b :: rest) = .ok r := by
  simp [decode, hop, h]

theorem decode_of_indexed_row (k : Nat) (v : Byte) (op : OpName) (q : Port) {rest : List Byte} {r : Instr × List Byte}
    (hr : ⟨0xFE, v, op⟩ ∈ opTable) (h : parseOperands k op q rest = some r) :
    decode k ((v ||| portBit q) :: rest) = .ok r := by
  obtain ⟨hop, hq⟩ := opid_of_indexed_row hr q
  exact decode_of_op hop (by rw [hq]; exact h)

theorem decode_of_plain_row (k : Nat) (v : Byte) (op : OpName) {rest : List Byte} {r : Instr × List Byte}
    (hr : ⟨0xFF, v, op⟩ ∈ opTable) (h : parseOperands k op (portOf v) rest = some r) : decode k (v :: rest) = .ok r :=
  decode_of_op (opid_of_plain_row hr) h

/-- A reserved opid is refused by name, whatever follows it (30_encoding.md R71). -/
theorem decode_of_reserved {k : Nat} {b : Byte} (rest : List Byte) (h : reservedOpid b = true) :
    decode k (b :: rest) = .error (.reservedOpid b) := by
  simp [decode, (findOp_eq_none_iff b).mpr h]

/-- Another opid has a row, and at worst its record is cut short (30_encoding.md R70, R71). -/
theorem decode_ne_reserved {k : Nat} {b : Byte} (c : Byte) (rest : List Byte) (h : reservedOpid b = false) :
    decode k (b :: rest) ≠ .error (.reservedOpid c) := by
  cases hop : findOp opTable b with
  | none => simp [(findOp_eq_none_iff b).mp hop] at h
  | some op =>
    cases hp : parseOperands k op (portOf b) rest with
    | none => simp [decode, hop, hp]
    | some r => simp [decode_of_op hop hp]

/-! ### a step that takes a record -/

/-- An empty schedule takes the next record of the trace (log 3). -/
theorem fetch_of_no_turns {s : State} (hc : s.cfg.wf = true) (h : s.turns = []) : fetch s = fetchRecord s := by
  simp [fetch, hc, h]

/-- A scheduled record is the next one of the trace, with the turn taken (log 3). -/
theorem fetch_of_record_turn {s : State} {ts : List Turn} (hc : s.cfg.wf = true) (h : s.turns = .record :: ts) :
    fetch s = fetchRecord { s with turns := ts } := by
  simp [fetch, hc, h]

theorem fetchRecord_of_ok {s : State} {i : Instr} {rest : List Byte} (h : decode s.cfg.k s.trace = .ok (i, rest)) :
    fetchRecord s = .instr i { s with trace := rest } := by
  simp [fetchRecord, h]

theorem fetchRecord_of_error {s : State} {e : DecodeError} (h : decode s.cfg.k s.trace = .error e) :
    fetchRecord s = .stop (refusalOf e) := by
  simp [fetchRecord, h]

theorem step_of_instr {s s₁ : State} {i : Instr} (h : fetch s = .instr i s₁) : step s = exec i s₁ := by
  simp [step, h]

theorem step_of_stop {s : State} {r : Refusal} (h : fetch s = .stop r) : step s = .refused r := by
  simp [step, h]

/-! ### status codes -/

/-- The codes 5, 6 and 7 name no status, and the others name one (30_encoding.md R67). -/
theorem Status.ofCode_eq_none_iff (c : BitVec 3) : Status.ofCode c = none ↔ 5 ≤ c.toNat := by
  revert c
  decide

theorem Status.ofCode_code (st : Status) : Status.ofCode st.code = some st := by
  cases st <;> rfl

end Sys2Proof.Machine

namespace Sys2Proof.Proofs

open Sys2Proof.Machine

/-- Settles O1: the opid is read as the row and index it was made of, and the operands as what was written; a frame on a wire is read
as that frame. -/
theorem decodeEncodeAgree : Obligations.DecodeEncodeAgree := by
  intro k i later hi
  cases i with
  | qIsEmpty q => exact decode_of_indexed_row k 0x10 .qIsEmpty q (by decide) rfl
  | qIsFull q => exact decode_of_indexed_row k 0x20 .qIsFull q (by decide) rfl
  | qEnq q m => exact decode_of_indexed_row k 0x30 .qEnq q (by decide) (by simp [parseOperands, parseMessage_bytes later hi])
  | qDeq q => exact decode_of_indexed_row k 0x40 .qDeq q (by decide) rfl
  | qLen q => exact decode_of_indexed_row k 0x50 .qLen q (by decide) rfl
  | cEnc m =>
    exact decode_of_plain_row k 0x60 .cEnc (by decide) (by simp [parseOperands, parseMessage_bytes later hi])
  | cDec b =>
    exact decode_of_plain_row k 0x70 .cDec (by decide) (by simp [parseOperands, parseBytes_lengthBytes later hi])
  | rRx t b => exact decode_of_indexed_row k 0x80 .rRx t (by decide) (by simp [parseOperands, parseBytes_lengthBytes later hi])
  | rWstart t => exact decode_of_indexed_row k 0x90 .rWstart t (by decide) rfl
  | rWdone t => exact decode_of_indexed_row k 0xA0 .rWdone t (by decide) rfl
  | rWfail t => exact decode_of_indexed_row k 0xB0 .rWfail t (by decide) rfl
  | nWake => exact decode_of_plain_row k 0xC0 .nWake (by decide) rfl
  | nTick => exact decode_of_plain_row k 0xD0 .nTick (by decide) rfl
  | sysReset => exact decode_of_plain_row k 0xF0 .sysReset (by decide) rfl
  | frame t f => simp only [encode, decodeArrival, decodeWire_of_frame t hi]

/-- Settles O2: the decoder evaluates each of the words. -/
theorem specWordsDecode : Obligations.SpecWordsDecode :=
  ⟨rfl, rfl, rfl, rfl, rfl, rfl, rfl, rfl⟩

/-- Settles O3: the rows of the operation table leave out exactly the opids that R71 reserves, and a step refuses what the decoder refuses
before it performs anything. -/
theorem reservedOpidsRefused : Obligations.ReservedOpidsRefused := by
  refine ⟨fun s b rest hc ht htr hb => ?_, fun k b c rest hb => decode_ne_reserved c rest hb⟩
  have hd : decode s.cfg.k s.trace = .error (.reservedOpid b) := by rw [htr, decode_of_reserved rest hb]
  obtain ht | ⟨ts, ht⟩ := ht
  · exact step_of_stop ((fetch_of_no_turns hc ht).trans (fetchRecord_of_error hd))
  · exact step_of_stop ((fetch_of_record_turn hc ht).trans (fetchRecord_of_error (s := { s with turns := ts }) hd))

/-- Settles O4: both forms of the schedule fetch the decoded record, and the step performs what is fetched. -/
theorem stepRunsDecodedRecord : Obligations.StepRunsDecodedRecord := by
  intro s i rest hc hd
  refine ⟨fun ht => ?_, fun ts ht => ?_⟩
  · exact step_of_instr ((fetch_of_no_turns hc ht).trans (fetchRecord_of_ok hd))
  · exact step_of_instr ((fetch_of_record_turn hc ht).trans (fetchRecord_of_ok (s := { s with turns := ts }) hd))

/-- Settles O7: the table of codes read off, its two directions, and the statuses of the Boolean results. -/
theorem statusCodeTable : Obligations.StatusCodeTable :=
  ⟨rfl, rfl, rfl, rfl, rfl, Status.ofCode_code, Status.ofCode_eq_none_iff, rfl, rfl, fun _ => rfl, rfl⟩

end Sys2Proof.Proofs
end

section
/-! The Frame Codec (O14 to O16, O18 to O20, O49): what C.ENC and C.DEC answer, what the table lookup refuses, and the two round trips
(40_codec.md R80 to R86). -/

namespace Sys2Proof.Machine

/-! ### the table lookup (40_codec.md R86) -/

theorem eq_sentinel_iff {b : Byte} : b = sentinel ↔ b.toNat = 255 := by
  bv_omega

theorem inDomain_eq_false_iff {c : Config} {b : Byte} : inDomain c b = false ↔ tableRead c b = none := by
  simp [inDomain]

theorem tableRead_of_absent {c : Config} {b : Byte} (h : c.table[b.toNat]? = some none) : tableRead c b = none := by
  simp [tableRead, h]

/-! ### what C.DEC answers, by what its bytes decode to (40_codec.md R81) -/

theorem exec_cDec_of_ok {s : State} {b : List Byte} {m : Message} (h : decodeFrame s.cfg b = .ok m) :
    exec (.cDec b) s = .next { s with result := .message m } := by
  simp only [exec, execCDec, h, State.ret]

theorem exec_cDec_of_error {s : State} {b : List Byte} {st : Status} (h : decodeFrame s.cfg b = .error st) :
    exec (.cDec b) s = .next { s with result := .status st } := by
  simp only [exec, execCDec, h, State.ret]

/-- The codec and the occupancy tests do nothing but return a result (40_codec.md R82; 41_queue.md R90, R91, R95). -/
theorem exec_pure_eq_ret {i : Instr} {s s' : State}
    (hi : (∃ m, i = .cEnc m) ∨ (∃ b, i = .cDec b) ∨ ∃ q, i = .qIsEmpty q ∨ i = .qIsFull q ∨ i = .qLen q)
    (he : exec i s = .next s') : ∃ r, s' = s.ret r := by
  obtain ⟨m, rfl⟩ | ⟨b, rfl⟩ | ⟨q, rfl | rfl | rfl⟩ := hi
  case inr.inl =>
    obtain ⟨m, _, hs⟩ | ⟨st, _, hs⟩ := execCDec_cases he
    · exact ⟨_, hs⟩
    · exact ⟨_, hs⟩
  all_goals
    cases he
    exact ⟨_, rfl⟩

/-! ### decoding an encoded Message (40_codec.md R83 a to c) -/

theorem decodeFrame_frameOf_of_entry {c : Config} {m : Message} {e : Entry} (hm : m.wf c.k = true)
    (he : tableRead c m.command = some e) :
    decodeFrame c (frameOf m) = .ok { m with
      priority := if m.priority = sentinel then e.defaultPriority else m.priority
      bodySize := e.defaultBodySize } :=
  decodeFrame_of_entry (by simpa [Message.wf] using hm) he

theorem decodeFrame_frameOf_of_absent {c : Config} {m : Message} (hm : m.wf c.k = true)
    (ha : tableRead c m.command = none) : decodeFrame c (frameOf m) = .error .unknownCommand :=
  decodeFrame_of_absent (by simpa [Message.wf] using hm) ha

/-- Decoding gives back exactly the Messages whose `body_size` is the table's and whose priority is no sentinel: the table's own
priority never is one (00_scope.md R6). -/
theorem decodeFrame_frameOf_eq_self_iff {c : Config} {m : Message} (hc : c.wf = true) (hm : m.wf c.k = true) :
    decodeFrame c (frameOf m) = .ok m ↔
      m.priority ≠ sentinel ∧ ∃ e, tableRead c m.command = some e ∧ m.bodySize = e.defaultBodySize := by
  cases he : tableRead c m.command with
  | none => simp [decodeFrame_frameOf_of_absent hm he]
  | some e =>
    have hdec := decodeFrame_frameOf_of_entry hm he
    constructor
    · intro h
      have hvalid := decodeFrame_valid hc h
      simp only [Message.valid, Bool.and_eq_true, bne_iff_ne] at hvalid
      have hself := Except.ok.inj (hdec.symm.trans h)
      exact ⟨hvalid.1, e, rfl, (congrArg Message.bodySize hself).symm⟩
    · rintro ⟨hp, e', he', hz⟩
      cases he'
      rw [hdec, if_neg hp, ← hz]

/-! ### encoding a decoded frame (40_codec.md R83 d and e) -/

/-- A frame whose byte 3 has an entry, as its four header bytes and its body. -/
theorem bytes_of_entry {c : Config} {f : List Byte} {e : Entry} (hf : f.length = c.w)
    (he : (f[3]?).bind (tableRead c) = some e) :
    ∃ p s r cmd body, f = p :: s :: r :: cmd :: body ∧ body.length = c.k ∧ tableRead c cmd = some e := by
  obtain ⟨p, s, r, cmd, body, rfl, hb⟩ := bytes_of_length hf
  exact ⟨p, s, r, cmd, body, rfl, hb, he⟩

end Sys2Proof.Machine

namespace Sys2Proof.Proofs

open Sys2Proof.Machine

/-- Settles O18: the table entry decides what an encoded Message decodes to, and the branch on the priority which of (b) and (c) it is. -/
theorem messageRoundTrip : Obligations.MessageRoundTrip := by
  intro c m hc hm
  refine ⟨decodeFrame_frameOf_eq_self_iff hc hm, fun e he hp => ?_, fun e he hp => ?_, fun hd => ?_⟩
  · rw [decodeFrame_frameOf_of_entry hm he, if_neg hp]
  · rw [decodeFrame_frameOf_of_entry hm he, if_pos hp]
  · exact decodeFrame_frameOf_of_absent hm (inDomain_eq_false_iff.mp hd)

/-- Settles O19: of the bytes of a frame, decoding resolves at most byte 0. -/
theorem frameRoundTrip : Obligations.FrameRoundTrip := by
  intro c f hf e he
  obtain ⟨p, s, r, cmd, body, rfl, hb, hentry⟩ := bytes_of_entry hf he
  refine ⟨fun hp => ⟨_, decodeFrame_of_entry hb hentry, ?_⟩, fun hp => ⟨_, decodeFrame_of_entry hb hentry, ?_⟩⟩
  · have hp : p ≠ sentinel := by simpa using hp
    simp only [frameOf, if_neg hp]
  · have hp : p = sentinel := by simpa using hp
    simp only [frameOf, if_pos hp, List.set_cons_zero]

/-- Settles O20: the decoded Message is written out, and each field of it is the table's or the frame's. -/
theorem sentinelResolution : Obligations.SentinelResolution := by
  intro c f p z hf h0 he
  obtain ⟨p', s, r, cmd, body, rfl, hb, hentry⟩ := bytes_of_entry hf he
  have hp : p' = sentinel := by simpa using h0
  refine ⟨_, decodeFrame_of_entry hb hentry, if_pos hp, rfl, rfl, rfl, rfl, hb, fun i _ => ?_⟩
  simp [Nat.add_comm 4 i]

/-- Settles O14: C.ENC returns the frame as it is written. -/
theorem encodeLaysOutFrame : Obligations.EncodeLaysOutFrame := by
  intro s p sd r c z body
  refine ⟨rfl, fun hb => ?_⟩
  simp only [List.length_cons, Config.w]
  omega

/-- Settles O15: the length, then the table entry, decide what C.DEC answers. -/
theorem decodeResolvesOrRejects : Obligations.DecodeResolvesOrRejects := by
  intro s
  refine ⟨fun b hb => exec_cDec_of_error (decodeFrame_of_length hb), fun p sd r c body hb => ⟨fun hd => ?_, fun e he => ?_⟩⟩
  · exact exec_cDec_of_error (decodeFrame_of_absent hb (inDomain_eq_false_iff.mp hd))
  · simpa only [eq_sentinel_iff] using exec_cDec_of_ok (decodeFrame_of_entry (p := p) (s := sd) (r := r) hb he)

/-- Settles O16: the lookup is bounded by NCMD and finds nothing at an absent entry, and C.DEC has then no default to take. -/
theorem tableLookupBounded : Obligations.TableLookupBounded := by
  intro s p sd r c body hb hc
  have hnone : tableRead s.cfg c = none := hc.elim tableRead_of_ge tableRead_of_absent
  exact ⟨hnone, exec_cDec_of_error (decodeFrame_of_absent hb hnone)⟩

/-- Settles O49: each of these operations ends by returning a result, which writes that field alone. -/
theorem pureOperationsFrame : Obligations.PureOperationsFrame := by
  intro i s s' hi he
  obtain ⟨r, rfl⟩ := exec_pure_eq_ret hi he
  rfl

end Sys2Proof.Proofs
end

section
/-! Every step is a move of a first-in first-out queue (O28; 41_queue.md R96, 70_reset_and_hazards.md R182): what an instruction and a
sub-step do to the content of a queue. -/

namespace Sys2Proof.Machine

/-! ### the content of a queue -/

@[simp] theorem State.content_length (s : State) (q : Port) : (s.content q).length = s.len q :=
  Queue.content_length _ _

/-- Under the same parameters the content is that of the queue alone. -/
theorem State.content_of_queue {s s' : State} {q : Port} {x : Queue} (hc : s'.cfg = s.cfg) (hq : s'.queue q = x) :
    s'.content q = x.content (s.cfg.slots q) := by
  rw [State.content, hc, hq]

/-- Q.ENQ adds its Message at the end (41_queue.md R93, R96): writing the slot does not show, advancing `tail` does. -/
theorem Queue.content_store {n k : Nat} {q : Queue} {m : Message} (h : q.Inv n k) (hne : inc q.tail n ≠ q.head) :
    ({ q with slots := q.slots.set q.tail (some m), tail := inc q.tail n } : Queue).content n = q.content n ++ [some m] := by
  have hold := Queue.content_write_tail h (some m)
  simp only [Queue.content, Queue.len] at hold ⊢
  rw [occupancy_inc_tail h.head_lt h.tail_lt hne, List.range_succ, List.map_append, hold]
  simp [add_occupancy_mod h.head_lt h.tail_lt, h.tail_lt_slots]

/-- SYS.RESET empties every queue (70_reset_and_hazards.md R170). -/
theorem State.clear_content (s : State) (q : Port) : s.clear.content q = [] := by
  have hq : s.clear.queue q = Queue.reset (s.cfg.slots q) := State.resetWith_queue s.cfg q
  exact (State.content_of_queue rfl hq).trans (Queue.content_reset _)

/-! ### what a move does to it -/

/-- An instruction leaves the content of queue q, adds a Message at its end, takes its first, or is SYS.RESET. -/
theorem exec_content_cases {i : Instr} {s s' : State} (h : s.Inv) (q : Port) (he : exec i s = .next s') :
    s'.content q = s.content q
      ∨ (∃ m, s'.content q = s.content q ++ [some m])
      ∨ (∃ m, s.content q = some m :: s'.content q)
      ∨ (i = .sysReset ∧ s'.content q = []) := by
  have hc := exec_cfg he
  obtain hq | ⟨m, _, hne, _, hq⟩ | ⟨m, _, hne, hm, hq⟩ | ⟨hi, rfl⟩ := exec_queue_cases q he
  · exact .inl (State.content_of_queue hc hq)
  · exact .inr (.inl ⟨m, (State.content_of_queue hc hq).trans (Queue.content_store (h.queue q) hne)⟩)
  · exact .inr (.inr (.inl ⟨m,
      (Queue.content_advance_head (h.queue q) hne hm).trans (congrArg _ (State.content_of_queue hc hq).symm)⟩))
  · exact .inr (.inr (.inr ⟨hi, State.clear_content s q⟩))

/-- A sub-step leaves the content of queue q, adds a Message at its end (E5), or takes its first (D5). E4 writes outside the live
region (70_reset_and_hazards.md R182 i). -/
theorem execSub_content_cases {m : SubStep} {s s' : State} (h : s.Inv) (q : Port) (he : execSub m s = .next s') :
    s'.content q = s.content q
      ∨ (∃ x, s'.content q = s.content q ++ [some x])
      ∨ ∃ x, s.content q = some x :: s'.content q := by
  obtain ⟨hc, ⟨hq, _⟩ | ⟨x, _, hq⟩ | ⟨x, _, hne, hx, hq, _⟩ | ⟨x, _, hne, hx, hq⟩⟩ := execSub_queue_cases h q he
  · exact .inl (State.content_of_queue hc hq)
  · exact .inl ((State.content_of_queue hc hq).trans (Queue.content_write_tail (h.queue q) _))
  · exact .inr (.inl ⟨x, (State.content_of_queue hc hq).trans (Queue.content_advance_tail (h.queue q) hne hx)⟩)
  · exact .inr (.inr ⟨x,
      (Queue.content_advance_head (h.queue q) hne hx).trans (congrArg _ (State.content_of_queue hc hq).symm)⟩)

end Sys2Proof.Machine

namespace Sys2Proof.Proofs

open Sys2Proof.Machine

/-- Settles O28: a step is an instruction or a sub-step from the state with another schedule, which the content does not look at, and
each of them is a move of a first-in first-out queue. -/
theorem everyStepKeepsFifo : Obligations.EveryStepKeepsFifo := by
  intro s s' q h he
  obtain ⟨i, s₁, hf, hx⟩ | ⟨m, s₁, hf, hx⟩ := step_cases he
  · obtain ⟨_, ⟨tr, tu, rfl⟩, _⟩ := fetch_instr_cases hf
    obtain hsame | hadd | htake | ⟨rfl, hnil⟩ := exec_content_cases (h.schedule tr tu) q hx
    · exact .inl hsame
    · exact .inr (.inl hadd)
    · exact .inr (.inr (.inl htake))
    · exact .inr (.inr (.inr ⟨⟨_, hf⟩, hnil⟩))
  · obtain ⟨_, tu, rfl⟩ := fetch_sub_cases hf
    obtain hsame | hadd | htake := execSub_content_cases (h.schedule s.trace tu) q hx
    · exact .inl hsame
    · exact .inr (.inl hadd)
    · exact .inr (.inr (.inl htake))

end Sys2Proof.Proofs
end

section
/-! The operations of a stand-alone queue: the tests and the length (O21 to O23), what Q.ENQ and Q.DEQ answer and leave unchanged (O24,
O25, O50), and sequences of them (O26, O27; 41_queue.md R90 to R97). -/

namespace Sys2Proof.Machine

/-! ### the length and the flags (41_queue.md R90, R91, R95) -/

theorem State.empty_iff {s : State} {q : Port} : s.empty q = true ↔ (s.queue q).head = (s.queue q).tail :=
  Queue.isEmpty_iff

theorem State.full_iff {s : State} {q : Port} :
    s.full q = true ↔ inc (s.queue q).tail (s.cfg.slots q) = (s.queue q).head :=
  Queue.isFull_iff

/-- The largest length is N - 1, since one slot stays free (41_queue.md R92). -/
theorem State.Inv.len_lt {s : State} (h : s.Inv) (q : Port) : s.len q < s.cfg.slots q :=
  (h.queue q).len_lt

theorem State.Inv.empty_iff_len {s : State} (h : s.Inv) (q : Port) : s.empty q = true ↔ s.len q = 0 :=
  State.empty_iff.trans (occupancy_eq_zero (h.queue q).head_lt).symm

theorem State.Inv.full_iff_len {s : State} (h : s.Inv) (q : Port) : s.full q = true ↔ s.len q + 1 = s.cfg.slots q :=
  State.full_iff.trans (occupancy_full (h.queue q).head_lt (h.queue q).tail_lt).symm

theorem State.Inv.content_of_empty {s : State} (h : s.Inv) {q : Port} (he : s.empty q = true) : s.content q = [] :=
  List.length_eq_zero_iff.mp ((s.content_length q).trans ((h.empty_iff_len q).mp he))

/-! ### Q.ENQ and Q.DEQ of a script, with their frame (41_queue.md R93, R94) -/

/-- A stand-alone queue is the script's to produce on (70_reset_and_hazards.md R185). -/
theorem State.standAlone.producer_free {s : State} {q : Port} (h : s.standAlone q) : s.producerBarred .script q = false := by
  obtain ⟨⟨henq, _⟩, ho⟩ := h
  refine State.producerBarred_eq_false.mpr ⟨henq, fun p hp => ?_⟩
  cases p with
  | script => rfl
  | router => exact absurd hp ho

/-- A script's operation on its queue leaves it stand-alone. -/
theorem State.standAlone.after {s : State} {q : Port} (h : s.standAlone q) (x : Queue) (r : Result) :
    (((s.setQueue q x).claim q .script).ret r).standAlone q :=
  ⟨h.1, by simp⟩

/-- Q.ENQ of a full queue: it has an owner already, so nothing changes but the result. -/
theorem exec_qEnq_of_full {s : State} {q : Port} (m : Message) (h : s.Inv) (hsa : s.standAlone q)
    (hf : inc (s.queue q).tail (s.cfg.slots q) = (s.queue q).head) :
    exec (.qEnq q m) s = .next (s.ret (.bool false)) := by
  have hbar := hsa.producer_free
  have hclaim := h.claim_of_nonempty (h.nonempty_of_full hf) (State.producerBarred_eq_false.mp hbar).2
  simp [exec, execQEnq, enqueueAs_of_full hbar hf, hclaim]

theorem exec_qEnq_of_room {s : State} {q : Port} (m : Message) (h : s.Inv) (hsa : s.standAlone q)
    (hne : inc (s.queue q).tail (s.cfg.slots q) ≠ (s.queue q).head) :
    exec (.qEnq q m) s = .next (((s.setQueue q { s.queue q with
      slots := (s.queue q).slots.set (s.queue q).tail (some m)
      tail := inc (s.queue q).tail (s.cfg.slots q) }).claim q .script).ret (.bool true)) := by
  simp [exec, execQEnq, enqueueAs_of_room hsa.producer_free hne (h.queue q).tail_lt_slots]

theorem exec_qDeq_of_empty {s : State} {q : Port} (hsa : s.standAlone q) (he : (s.queue q).head = (s.queue q).tail) :
    exec (.qDeq q) s = .next ((s.claim q .script).ret (.item none)) := by
  simp [exec, execQDeq, dequeueAs_of_empty hsa.consumer_free he]

/-- Q.DEQ of a queue that is not empty: the queue has an owner already. -/
theorem exec_qDeq_of_item {s : State} {q : Port} {m : Message} (h : s.Inv) (hsa : s.standAlone q)
    (hne : (s.queue q).head ≠ (s.queue q).tail) (hm : (s.queue q).slots[(s.queue q).head]? = some (some m)) :
    exec (.qDeq q) s = .next ((s.setQueue q { s.queue q with
      head := inc (s.queue q).head (s.cfg.slots q) }).ret (.item (some m))) := by
  have hbar := hsa.consumer_free
  have hclaim := h.claim_of_nonempty hne (State.consumerBarred_eq_false.mp hbar).2
  have hown : s.owner.get q = some .script := by
    rw [← hclaim, State.claim_owner, Pair.get_set_self]
  simp [exec, execQDeq, dequeueAs_of_item hbar hne hm, State.claim_of_owner (s := s.setQueue q _) hown]

/-- Whatever Q.ENQ answers, it replaces its queue by one with the same `head` and the same slots but the one at `tail`. -/
theorem exec_qEnq_cases {s s' : State} {q : Port} {m : Message} (he : exec (.qEnq q m) s = .next s') :
    ∃ x b, s' = ((s.setQueue q x).claim q .script).ret (.bool b) ∧ x.head = (s.queue q).head
      ∧ ∀ j, j ≠ (s.queue q).tail → x.slots[j]? = (s.queue q).slots[j]? := by
  obtain ⟨⟨b, s₁⟩, hen, hx⟩ := andThen_eq_next he
  cases hx
  obtain ⟨_, ⟨_, rfl, _⟩ | ⟨_, _, _, rfl⟩⟩ := enqueueAs_cases hen
  · exact ⟨s.queue q, b, by simp, rfl, fun _ _ => rfl⟩
  · exact ⟨_, b, rfl, rfl, fun j hj => List.getElem?_set_ne (Ne.symm hj)⟩

/-- Whatever Q.DEQ answers, it replaces its queue by one with the same `tail` and the same slots. -/
theorem exec_qDeq_cases {s s' : State} {q : Port} (he : exec (.qDeq q) s = .next s') :
    ∃ x o, s' = ((s.setQueue q x).claim q .script).ret (.item o) ∧ x.tail = (s.queue q).tail
      ∧ x.slots = (s.queue q).slots := by
  obtain ⟨⟨o, s₁⟩, hde, hx⟩ := andThen_eq_next he
  cases hx
  obtain ⟨_, ⟨_, rfl, _⟩ | ⟨_, _, _, _, rfl⟩⟩ := dequeueAs_cases hde
  · exact ⟨s.queue q, o, by simp, rfl, rfl⟩
  · exact ⟨_, o, rfl, rfl, rfl⟩

/-! ### sequences (41_queue.md R96, R97) -/

/-- A Q.ENQ with room left adds its Message at the end of the content. -/
theorem exec_qEnq_adds {s : State} {q : Port} {m : Message} (h : s.Inv) (hsa : s.standAlone q) (hm : m.wf s.cfg.k = true)
    (hroom : s.len q + 1 < s.cfg.slots q) :
    ∃ t, exec (.qEnq q m) s = .next t ∧ t.Inv ∧ t.standAlone q ∧ t.cfg = s.cfg ∧ t.content q = s.content q ++ [some m]
      ∧ t.result = .bool true := by
  have hne : inc (s.queue q).tail (s.cfg.slots q) ≠ (s.queue q).head := fun hf =>
    hroom.ne ((h.full_iff_len q).mp (State.full_iff.mpr hf))
  have he := exec_qEnq_of_room m h hsa hne
  refine ⟨_, he, exec_keeps_inv (i := .qEnq q m) h (.inl hm) he, hsa.after _ _, rfl, ?_, rfl⟩
  exact (State.content_of_queue rfl (by simp)).trans (Queue.content_store (h.queue q) hne)

/-- A Q.DEQ returns the first Message of the content and leaves the rest. -/
theorem exec_qDeq_takes {s : State} {q : Port} {o : Option Message} {rest : List (Option Message)} (h : s.Inv)
    (hsa : s.standAlone q) (hc : s.content q = o :: rest) :
    ∃ u, exec (.qDeq q) s = .next u ∧ u.Inv ∧ u.standAlone q ∧ u.content q = rest ∧ u.result = .item o := by
  have hne : (s.queue q).head ≠ (s.queue q).tail := fun he => by
    have := h.content_of_empty (State.empty_iff.mpr he)
    simp [hc] at this
  obtain ⟨m, hm⟩ := (h.queue q).head_written hne
  have he := exec_qDeq_of_item h hsa hne hm
  have hcons := Queue.content_advance_head (h.queue q) hne hm
  obtain ⟨rfl, rfl⟩ := List.cons.inj (hc.symm.trans hcons)
  exact ⟨_, he, exec_keeps_inv h (.inl rfl) he, hsa, State.content_of_queue rfl (by simp), rfl⟩

/-- As many Q.ENQ as there is room for: all succeed, and the Messages stand in their order behind the content. -/
theorem execAll_qEnq_adds {s : State} {q : Port} (ms : List Message) (h : s.Inv) (hsa : s.standAlone q)
    (hms : ∀ m ∈ ms, m.wf s.cfg.k = true) (hroom : s.len q + ms.length < s.cfg.slots q) :
    ∃ t, execAll (ms.map (Instr.qEnq q)) s = .next t ∧ t.Inv ∧ t.standAlone q ∧ t.cfg = s.cfg
      ∧ t.content q = s.content q ++ ms.map some ∧ (ms ≠ [] → t.result = .bool true) := by
  induction ms using List.reverseRecOn with
  | nil => exact ⟨s, rfl, h, hsa, rfl, by simp, absurd rfl⟩
  | append_singleton ms m ih =>
    simp only [List.length_append, List.length_singleton] at hroom
    obtain ⟨t, ht, hinv, hta, hcfg, hcont, _⟩ := ih (fun x hx => hms x (by simp [hx])) (by omega)
    have hlen : t.len q = s.len q + ms.length := by
      simpa using congrArg List.length hcont
    obtain ⟨u, hu, huinv, hua, hucfg, hucont, hres⟩ := exec_qEnq_adds (m := m) hinv hta
      (by rw [hcfg]; exact hms m (by simp)) (by rw [hcfg, hlen]; omega)
    refine ⟨u, ?_, huinv, hua, hucfg.trans hcfg, by simp [hucont, hcont], fun _ => hres⟩
    simp [execAll_append, ht, execAll, hu]

/-- The j-th of consecutive Q.DEQ (counted from 0) returns the j-th Message of the content. -/
theorem execAll_qDeq_takes {q : Port} {o : Option Message} (j : Nat) {s : State} (h : s.Inv) (hsa : s.standAlone q)
    (hj : (s.content q)[j]? = some o) :
    ∃ u, execAll (List.replicate (j + 1) (.qDeq q)) s = .next u ∧ u.result = .item o := by
  induction j generalizing s with
  | zero =>
    obtain ⟨rest, hc⟩ := List.head?_eq_some_iff.mp (List.head?_eq_getElem?.trans hj)
    obtain ⟨u, hu, _, _, _, hres⟩ := exec_qDeq_takes h hsa hc
    exact ⟨u, by simp [execAll, hu], hres⟩
  | succ j ih =>
    cases hc : s.content q with
    | nil => simp [hc] at hj
    | cons x rest =>
      obtain ⟨t, ht, hinv, hta, hcont, _⟩ := exec_qDeq_takes h hsa hc
      obtain ⟨u, hu, hres⟩ := ih hinv hta (by simpa [hc, hcont] using hj)
      exact ⟨u, by rw [List.replicate_succ, execAll, ht, andThen_next, hu], hres⟩

end Sys2Proof.Machine

namespace Sys2Proof.Proofs

open Sys2Proof.Machine

/-- Settles O23: each flag is a value of the length, which stays below N, and N is at least 2. -/
theorem lengthMatchesFlags : Obligations.LengthMatchesFlags := by
  intro s q h
  have hlt := h.len_lt q
  have htwo := Config.wf.two_le_slots h.cfg_wf q
  rw [h.empty_iff_len q, h.full_iff_len q]
  omega

/-- Settles O24: the two branches of Q.ENQ, with the wrap written as the remainder. -/
theorem enqueueOutcome : Obligations.EnqueueOutcome := by
  intro s q m h hsa
  rw [← inc_eq_mod (h.queue q).tail_lt]
  exact ⟨exec_qEnq_of_full m h hsa, fun hne => ⟨_, exec_qEnq_of_room m h hsa hne⟩⟩

/-- Settles O25: the two branches of Q.DEQ; the invariant says that the slot at `head` of a queue that is not empty is written. -/
theorem dequeueOutcome : Obligations.DequeueOutcome := by
  intro s q h hsa
  rw [← inc_eq_mod (h.queue q).head_lt]
  refine ⟨fun he => ⟨_, exec_qDeq_of_empty hsa he⟩, fun hne => ?_⟩
  obtain ⟨m, hm⟩ := (h.queue q).head_written hne
  exact ⟨m, hm, exec_qDeq_of_item h hsa hne hm⟩

/-- Settles O26: the enqueues make the content the list of the Messages, and the dequeues read it off from the front. -/
theorem fifoOrder : Obligations.FifoOrder := by
  intro s q ms h hsa he hms hlen
  have hzero := (h.empty_iff_len q).mp he
  have hlt := h.len_lt q
  obtain ⟨t, ht, hinv, hta, _, hcont, _⟩ := execAll_qEnq_adds ms h hsa hms (by omega)
  refine ⟨t, ht, fun j hj => execAll_qDeq_takes j hinv hta ?_⟩
  simp [hcont, h.content_of_empty he, hj]

/-- Settles O27: as long as fewer than N - 1 Messages are in the queue there is room, and with N - 1 it is full. -/
theorem capacityIsNMinusOne : Obligations.CapacityIsNMinusOne := by
  intro s q ms m h hsa he hms hlen
  have hzero := (h.empty_iff_len q).mp he
  have hlt := h.len_lt q
  refine ⟨fun j hj => ?_, ?_⟩
  · obtain ⟨t, ht, _, _, _, _, hres⟩ := execAll_qEnq_adds (ms.take (j + 1)) h hsa
      (fun x hx => hms x (List.mem_of_mem_take hx)) (by rw [List.length_take]; omega)
    exact ⟨t, ht, hres (List.ne_nil_of_length_pos (by rw [List.length_take]; omega))⟩
  · obtain ⟨t, ht, hinv, hta, hcfg, hcont, _⟩ := execAll_qEnq_adds ms h hsa hms (by omega)
    have hcount : t.len q = ms.length := by
      simpa [h.content_of_empty he] using congrArg List.length hcont
    have hfull : t.full q = true := (hinv.full_iff_len q).mpr (by rw [hcfg, hcount]; omega)
    exact ⟨t, ht, exec_qEnq_of_full m hinv hta (State.full_iff.mp hfull)⟩

/-- Settles O50: both operations replace their own queue, claim it and return a result, and touch nothing else. -/
theorem queueOperationsFrame : Obligations.QueueOperationsFrame := by
  intro i q s s' hi he
  obtain ⟨m, rfl⟩ | rfl := hi
  · obtain ⟨x, b, rfl, hhead, hslots⟩ := exec_qEnq_cases he
    refine ⟨by simp, rfl, rfl, rfl, rfl, rfl, rfl, by simp, rfl, rfl, fun _ => ?_, nofun⟩
    simpa using ⟨hhead, hslots⟩
  · obtain ⟨x, o, rfl, htail, hslots⟩ := exec_qDeq_cases he
    refine ⟨by simp, rfl, rfl, rfl, rfl, rfl, rfl, by simp, rfl, rfl, nofun, fun _ => ?_⟩
    simpa using ⟨htail, hslots⟩

/-- Settles O21: both tests return their flag, and the wrap is the remainder where `tail` is in range. -/
theorem emptyAndFullTests : Obligations.EmptyAndFullTests := by
  intro s q _ ht
  rw [← inc_eq_mod ht]
  exact ⟨rfl, rfl⟩

/-- Settles O22: Q.LEN returns the occupancy, which is the remainder where the indices are in range. -/
theorem lengthFromOneSnapshot : Obligations.LengthFromOneSnapshot := by
  intro s q hh ht
  rw [← occupancy_eq_mod hh ht]
  rfl

end Sys2Proof.Proofs
end

section
/-! The receive handler (O32 to O34, O51; 42_router.md R111, R112, R121): what it answers where the router may use the queue of the other
transport, and everything it can do, if it answers next. -/

namespace Sys2Proof.Machine

/-! ### who may produce, and by which instruction -/

/-- Both forms of an arrival are performed by the one receive handler (log 6). -/
theorem Receives.exec_eq {t : Port} {b : List Byte} {i : Instr} (h : Receives t b i) (s : State) :
    exec i s = serveReceive t b s := by
  obtain rfl | ⟨f, rfl, rfl⟩ := h
  · rfl
  · rfl

/-- A queue of the router's is its handler's to produce on: a Q.ENQ in progress would be the script's (70_reset_and_hazards.md R185). -/
theorem State.routed.producer_free {s : State} {q : Port} (h : s.Inv) (hr : s.routed q) : s.producerBarred .router q = false := by
  refine State.producerBarred_eq_false.mpr ⟨?_, fun p hp => ?_⟩
  · cases he : s.enq.get q with
    | none => rfl
    | some p => exact absurd (h.enq q p he).2 hr
  · cases p with
    | script => exact absurd hp hr
    | router => rfl

/-! ### what the handler answers -/

theorem serveReceive_of_error {t : Port} {b : List Byte} {s : State} {st : Status} (hd : decodeFrame s.cfg b = .error st) :
    serveReceive t b s = .next (s.finishReceive t st) := by
  simp [serveReceive, hd]

/-- A full queue has an owner already, so the handler leaves that as it is too. -/
theorem serveReceive_of_full {t : Port} {b : List Byte} {s : State} {m : Message} (h : s.Inv) (hr : s.routed t.other)
    (hd : decodeFrame s.cfg b = .ok m) (hf : inc (s.queue t.other).tail (s.cfg.slots t.other) = (s.queue t.other).head) :
    serveReceive t b s = .next (s.finishReceive t .queueFull) := by
  have hbar := hr.producer_free h
  have hclaim := h.claim_of_nonempty (h.nonempty_of_full hf) (State.producerBarred_eq_false.mp hbar).2
  simp [serveReceive, hd, enqueueAs_of_full hbar hf, hclaim, enqStatus]

theorem serveReceive_of_room {t : Port} {b : List Byte} {s : State} {m : Message} (h : s.Inv) (hr : s.routed t.other)
    (hd : decodeFrame s.cfg b = .ok m) (hne : inc (s.queue t.other).tail (s.cfg.slots t.other) ≠ (s.queue t.other).head) :
    serveReceive t b s = .next (((s.setQueue t.other { s.queue t.other with
      slots := (s.queue t.other).slots.set (s.queue t.other).tail (some m)
      tail := inc (s.queue t.other).tail (s.cfg.slots t.other) }).claim t.other .router).finishReceive t .ok) := by
  simp [serveReceive, hd, enqueueAs_of_room (hr.producer_free h) hne (h.queue t.other).tail_lt_slots, enqStatus]

theorem serveReceive_completes {t : Port} (b : List Byte) {s : State} (h : s.Inv) (hr : s.routed t.other) :
    ∃ u, serveReceive t b s = .next u := by
  cases hd : decodeFrame s.cfg b with
  | error st => exact ⟨_, serveReceive_of_error hd⟩
  | ok m =>
    by_cases hf : inc (s.queue t.other).tail (s.cfg.slots t.other) = (s.queue t.other).head
    · exact ⟨_, serveReceive_of_full h hr hd hf⟩
    · exact ⟨_, serveReceive_of_room h hr hd hf⟩

/-- The handler's ends, by what it did to the queue of the other transport: nothing, a claim of the full queue, or a store, which is
the one end with OK. -/
theorem serveReceive_ends {t : Port} {b : List Byte} {s s' : State} (he : serveReceive t b s = .next s') :
    (∃ st, st ≠ .ok ∧ s' = s.finishReceive t st)
      ∨ (s.producerBarred .router t.other = false
          ∧ inc (s.queue t.other).tail (s.cfg.slots t.other) = (s.queue t.other).head
          ∧ s' = (s.claim t.other .router).finishReceive t .queueFull)
      ∨ ∃ m, s' = ((s.setQueue t.other { s.queue t.other with
            slots := (s.queue t.other).slots.set (s.queue t.other).tail (some m)
            tail := inc (s.queue t.other).tail (s.cfg.slots t.other) }).claim t.other .router).finishReceive t .ok := by
  obtain ⟨st, hd, rfl⟩ | ⟨m, ok, s₁, _, hen, rfl⟩ := serveReceive_cases he
  · refine .inl ⟨st, ?_, rfl⟩
    obtain ⟨rfl, _⟩ | ⟨rfl, _⟩ := decodeFrame_eq_error hd <;> decide
  · obtain ⟨hbar, ⟨rfl, rfl, hf⟩ | ⟨rfl, _, _, rfl⟩⟩ := enqueueAs_cases hen
    · exact .inr (.inl ⟨hbar, hf, rfl⟩)
    · exact .inr (.inr ⟨m, rfl⟩)

end Sys2Proof.Machine

namespace Sys2Proof.Proofs

open Sys2Proof.Machine

/-- Settles O32: the length, the table entry and the room in the queue decide, in this order, how the handler ends. -/
theorem receiveOutcome : Obligations.ReceiveOutcome := by
  intro s t b i h hr hi
  rw [hi.exec_eq, ← inc_eq_mod (h.queue t.other).tail_lt]
  refine ⟨fun hb => serveReceive_of_error (decodeFrame_of_length hb), ?_⟩
  rintro p sd r c body rfl hb
  refine ⟨fun ha => serveReceive_of_error (decodeFrame_of_absent hb ha), fun e he => ?_⟩
  have hd := decodeFrame_of_entry (p := p) (s := sd) (r := r) hb he
  refine ⟨fun hf => serveReceive_of_full h hr hd hf, fun hne => ⟨s.owner.set t.other (some .router), ?_⟩⟩
  rw [serveReceive_of_room h hr hd hne]
  simp only [← eq_sentinel_iff]
  rfl

/-- Settles O33: the handler completes, and each of its ends emits the two events and returns the code of the second. -/
theorem receiveAlwaysRearms : Obligations.ReceiveAlwaysRearms := by
  intro s t b i h hr hi
  obtain ⟨u, hu⟩ := serveReceive_completes b h hr
  rw [hi.exec_eq]
  obtain ⟨st, _, rfl⟩ | ⟨_, _, rfl⟩ | ⟨m, rfl⟩ := serveReceive_ends hu
  · exact ⟨_, st, hu, rfl, rfl, rfl, rfl, rfl⟩
  · exact ⟨_, .queueFull, hu, rfl, rfl, rfl, rfl, rfl⟩
  · exact ⟨_, .ok, hu, rfl, rfl, rfl, rfl, rfl⟩

/-- Settles O34: the handler keeps the invariant, and of its ends only the store, which is the one with OK, changes a queue; a full queue
is claimed by the party that has it. -/
theorem badInputCorruptsNothing : Obligations.BadInputCorruptsNothing := by
  intro s u t b i h hi he
  rw [hi.exec_eq] at he
  refine ⟨serveReceive_keeps_inv h he, fun hne => ?_⟩
  obtain ⟨st, _, rfl⟩ | ⟨hbar, hf, rfl⟩ | ⟨m, rfl⟩ := serveReceive_ends he
  · exact ⟨rfl, rfl⟩
  · rw [h.claim_of_nonempty (h.nonempty_of_full hf) (State.producerBarred_eq_false.mp hbar).2]
    exact ⟨rfl, rfl⟩
  · exact absurd rfl hne

/-- Settles O51: each end of the handler writes the streams REARM and STAT of its transport and the result, and beside them at most the
queue of the other transport, in its slot at `tail`, its `tail` and its owner. -/
theorem receiveFrame : Obligations.ReceiveFrame := by
  intro i t b s s' hi he
  rw [hi.exec_eq] at he
  obtain ⟨st, _, rfl⟩ | ⟨_, _, rfl⟩ | ⟨m, rfl⟩ := serveReceive_ends he
  · simp [State.finishReceive]
  · simp [State.finishReceive]
  · refine ⟨State.setQueue_queue_of_ne s _ (Port.ne_other t), rfl, rfl, rfl, rfl, rfl, ?_, fun j hj => ?_, rfl, rfl,
      Pair.get_set_other _ _ _, Pair.get_set_other _ _ _, Pair.get_other_set _ _ _, rfl, rfl⟩
    · simp [State.finishReceive]
    · simp [State.finishReceive, List.getElem?_set_ne (Ne.symm hj)]

end Sys2Proof.Proofs
end

section
/-! The operations of a worker: what R.WSTART, R.WDONE and R.WFAIL answer and leave unchanged (O36 to O39, O52), that the worker's
transition table has no other transition (O40), and who sets the signal (O48; 42_router.md R114 to R122, 10_state.md R23). -/

namespace Sys2Proof.Machine

/-! ### what the operations answer -/

/-- A queue that is not empty is that of a party which nothing bars from it (log 7). -/
theorem State.Inv.owner_of_nonempty {s : State} (h : s.Inv) {q : Port} {who : Party} (hne : (s.queue q).head ≠ (s.queue q).tail)
    (ho : ∀ p, s.owner.get q = some p → p = who) : s.owner.get q = some who := by
  rw [← h.claim_of_nonempty hne ho, State.claim_owner, Pair.get_set_self]

/-- R.WSTART takes the Message at `head`. The queue is not empty, so it has an owner already. -/
theorem exec_rWstart_of_item {t : Port} {s : State} {m : Message} (h : s.Inv) (hs : s.settled t) (hr : s.routed t)
    (hidle : (s.worker t).wstate = .idle) (hne : (s.queue t).head ≠ (s.queue t).tail)
    (hm : (s.queue t).slots[(s.queue t).head]? = some (some m)) :
    exec (.rWstart t) s = .next ((s.setQueue t { s.queue t with
      head := inc (s.queue t).head (s.cfg.slots t) }).startTransmit t (frameOf m)) := by
  have hbar := hr.consumer_free hs
  have hown := h.owner_of_nonempty hne (State.consumerBarred_eq_false.mp hbar).2
  simp [exec, execRWstart, State.wstartEnabled_iff.mpr ⟨hidle, hne⟩, dequeueAs_of_item hbar hne hm,
    State.claim_of_owner (s := s.setQueue t _) hown]

theorem exec_rWdone_of_busy {t : Port} {s : State} (hb : (s.worker t).wstate = .busy) :
    exec (.rWdone t) s = .next ((s.signal.setWorker t { s.worker t with wstate := .idle }).ret .nothing) := by
  simp [exec, execRWdone, State.answerEnabled_iff.mpr hb]

theorem exec_rWfail_of_retry {t : Port} {s : State} {f : List Byte} (hb : (s.worker t).wstate = .busy)
    (hf : (s.worker t).txbuf = some f) (hlt : (s.worker t).retry < s.cfg.txRetryMax) :
    exec (.rWfail t) s = .next (((s.setWorker t { s.worker t with retry := (s.worker t).retry + 1 }).emit (.txStart t f)).ret
      .nothing) := by
  simp [exec, execRWfail, State.answerEnabled_iff.mpr hb, hlt, hf]

theorem exec_rWfail_of_drop {t : Port} {s : State} (hb : (s.worker t).wstate = .busy)
    (hle : s.cfg.txRetryMax ≤ (s.worker t).retry) :
    exec (.rWfail t) s = .next ((s.setWorker t { s.worker t with wstate := .idle }).ret .nothing) := by
  simp [exec, execRWfail, State.answerEnabled_iff.mpr hb, Nat.not_lt.mpr hle]

/-! ### where they have no move (42_router.md R118, R119; log 8) -/

theorem exec_rWstart_of_disabled {t : Port} {s : State} (h : ¬ s.wstartEnabled t = true) :
    exec (.rWstart t) s = .refused (.notEnabled .rWstart) :=
  if_neg h

theorem exec_rWdone_of_disabled {t : Port} {s : State} (h : ¬ s.answerEnabled t = true) :
    exec (.rWdone t) s = .refused (.notEnabled .rWdone) :=
  if_neg h

theorem exec_rWfail_of_disabled {t : Port} {s : State} (h : ¬ s.answerEnabled t = true) :
    exec (.rWfail t) s = .refused (.notEnabled .rWfail) :=
  if_neg h

theorem exec_nWake_of_disabled {s : State} (h : ¬ s.wakeEnabled = true) : exec .nWake s = .refused (.notEnabled .nWake) :=
  if_neg h

/-! ### everything R.WDONE and R.WFAIL can do, if they answer next -/

theorem exec_rWdone_cases {t : Port} {s s' : State} (he : exec (.rWdone t) s = .next s') :
    (s.worker t).wstate = .busy ∧ s' = (s.signal.setWorker t { s.worker t with wstate := .idle }).ret .nothing := by
  by_cases hen : s.answerEnabled t = true
  · have hb := State.answerEnabled_iff.mp hen
    rw [exec_rWdone_of_busy hb] at he
    cases he
    exact ⟨hb, rfl⟩
  · rw [exec_rWdone_of_disabled hen] at he
    cases he

theorem exec_rWfail_cases {t : Port} {s s' : State} (he : exec (.rWfail t) s = .next s') :
    (s.worker t).wstate = .busy
      ∧ ((∃ f, (s.worker t).txbuf = some f
            ∧ s' = ((s.setWorker t { s.worker t with retry := (s.worker t).retry + 1 }).emit (.txStart t f)).ret .nothing)
        ∨ (s.cfg.txRetryMax ≤ (s.worker t).retry ∧ s' = (s.setWorker t { s.worker t with wstate := .idle }).ret .nothing)) := by
  by_cases hen : s.answerEnabled t = true
  case neg =>
    rw [exec_rWfail_of_disabled hen] at he
    cases he
  have hb := State.answerEnabled_iff.mp hen
  refine ⟨hb, ?_⟩
  by_cases hlt : (s.worker t).retry < s.cfg.txRetryMax
  · cases hf : (s.worker t).txbuf with
    | none => simp [exec, execRWfail, hen, hlt, hf] at he
    | some f =>
      rw [exec_rWfail_of_retry hb hf hlt] at he
      cases he
      exact .inl ⟨f, rfl, rfl⟩
  · have hle := Nat.le_of_not_lt hlt
    rw [exec_rWfail_of_drop hb hle] at he
    cases he
    exact .inr ⟨hle, rfl⟩

/-! ### the worker's transitions (42_router.md R122) -/

theorem WState.ne_idle_iff {w : WState} : w ≠ .idle ↔ w = .busy := by cases w <;> decide

theorem State.clear_worker (s : State) (t : Port) : s.clear.worker t = Worker.reset := State.resetWith_worker s.cfg t

theorem State.clear_queue (s : State) (q : Port) : s.clear.queue q = Queue.reset (s.cfg.slots q) :=
  State.resetWith_queue s.cfg q

/-- The enabling condition of R.WSTART, of the only instruction that turns a worker BUSY. -/
theorem exec_turns_busy {i : Instr} {s s' : State} {t : Port} (he : exec i s = .next s') (hidle : (s.worker t).wstate = .idle)
    (hbusy : (s'.worker t).wstate = .busy) : i = .rWstart t ∧ (s.queue t).head ≠ (s.queue t).tail := by
  obtain hw | ⟨_, rfl, _⟩ | ⟨_, hw⟩ | ⟨_, hb, _⟩ | ⟨_, rfl⟩ := exec_worker_cases t he
  · simp [hw, hidle] at hbusy
  · obtain ⟨_, _, hne, _⟩ := execRWstart_cases he
    exact ⟨rfl, hne⟩
  · simp [hw] at hbusy
  · simp [hidle] at hb
  · simp [State.clear_worker, Worker.reset] at hbusy

theorem exec_turns_idle {i : Instr} {s s' : State} {t : Port} (he : exec i s = .next s') (hbusy : (s.worker t).wstate = .busy)
    (hidle : (s'.worker t).wstate = .idle) :
    i = .rWdone t ∨ (i = .rWfail t ∧ s.cfg.txRetryMax ≤ (s.worker t).retry) ∨ i = .sysReset := by
  obtain hw | ⟨_, _, hw⟩ | ⟨hi, _⟩ | ⟨hi, _, ⟨_, hw⟩ | ⟨hle, _⟩⟩ | ⟨hi, _⟩ := exec_worker_cases t he
  · simp [hw, hbusy] at hidle
  · simp [hw] at hidle
  · exact .inl hi
  · simp [hw, hbusy] at hidle
  · exact .inr (.inl ⟨hi, hle⟩)
  · exact .inr (.inr hi)

/-! ### the pipeline view (10_state.md R23) -/

theorem State.pipeState_idle_iff {s : State} {t : Port} :
    s.pipeState t = .idle ↔ (s.queue t).head = (s.queue t).tail ∧ (s.worker t).wstate = .idle := by
  simp [State.pipeState, State.empty, Queue.isEmpty]

theorem State.pipeState_messageAvailable_iff {s : State} {t : Port} :
    s.pipeState t = .messageAvailable ↔ (s.queue t).head ≠ (s.queue t).tail ∨ (s.worker t).wstate = .busy := by
  have hnot : s.pipeState t = .messageAvailable ↔ ¬ s.pipeState t = .idle := by cases s.pipeState t <;> decide
  rw [hnot, State.pipeState_idle_iff, not_and_or, ← ne_eq (s.worker t).wstate, WState.ne_idle_iff]

/-- A handler that stores a Message ends with OK. -/
theorem serveReceive_result_of_store {t : Port} {b : List Byte} {s s' : State} (he : serveReceive t b s = .next s')
    (hq : s'.queue t.other ≠ s.queue t.other) : s'.result = .status .ok := by
  obtain ⟨st, _, rfl⟩ | ⟨_, _, rfl⟩ | ⟨m, rfl⟩ := serveReceive_ends he
  · exact absurd rfl hq
  · exact absurd rfl hq
  · rfl

/-- The view leaves IDLE by a Message stored: an idle worker with an empty queue cannot start. -/
theorem exec_pipeState_leaves_idle {i : Instr} {s s' : State} {t : Port} (he : exec i s = .next s')
    (hs : s.pipeState t = .idle) (hs' : s'.pipeState t = .messageAvailable) :
    (∃ m, i = .qEnq t m) ∨ ∃ b, Receives t.other b i ∧ s'.result = .status .ok := by
  obtain ⟨hempty, hidle⟩ := State.pipeState_idle_iff.mp hs
  obtain hne | hbusy := State.pipeState_messageAvailable_iff.mp hs'
  case inr => exact absurd hempty (exec_turns_busy he hidle hbusy).2
  obtain hq | ⟨m, ⟨rfl⟩ | ⟨b, hb, _⟩, _, _, _⟩ | ⟨_, _, hne', _, _⟩ | ⟨_, rfl⟩ := exec_queue_cases t he
  · exact absurd (hq ▸ hempty) hne
  · exact .inl ⟨m, rfl⟩
  · rw [hb.exec_eq] at he
    refine .inr ⟨b, hb, serveReceive_result_of_store he fun hsame => hne ?_⟩
    rw [Port.other_other] at hsame
    rw [hsame, hempty]
  · exact absurd hempty hne'
  · exact absurd (by rw [State.clear_queue]; rfl) hne

/-- The view returns to IDLE by the worker's last transition with no Message queued, by a script's Q.DEQ, or by SYS.RESET: R.WSTART
takes a Message too, and leaves the worker BUSY. -/
theorem exec_pipeState_returns_to_idle {i : Instr} {s s' : State} {t : Port} (he : exec i s = .next s')
    (hs : s.pipeState t = .messageAvailable) (hs' : s'.pipeState t = .idle) :
    (s.empty t = true ∧ (i = .rWdone t ∨ (i = .rWfail t ∧ s.cfg.txRetryMax ≤ (s.worker t).retry)))
      ∨ i = .qDeq t ∨ i = .sysReset := by
  obtain ⟨hempty', hidle'⟩ := State.pipeState_idle_iff.mp hs'
  obtain hq | ⟨m, _, hroom, _, hq⟩ | ⟨m, rfl | rfl, _⟩ | ⟨hi, _⟩ := exec_queue_cases t he
  · rw [hq] at hempty'
    have hbusy := (State.pipeState_messageAvailable_iff.mp hs).resolve_left (absurd hempty')
    obtain hi | hi | hi := exec_turns_idle he hbusy hidle'
    · exact .inl ⟨State.empty_iff.mpr hempty', .inl hi⟩
    · exact .inl ⟨State.empty_iff.mpr hempty', .inr hi⟩
    · exact .inr (.inr hi)
  · rw [hq] at hempty'
    exact absurd hempty'.symm hroom
  · exact .inr (.inl rfl)
  · obtain ⟨_, m, _, _, _, rfl⟩ := execRWstart_cases he
    simp [State.startTransmit] at hidle'
  · exact .inr (.inr hi)

end Sys2Proof.Machine

namespace Sys2Proof.Proofs

open Sys2Proof.Machine

/-- Settles O36: the invariant says that the slot at `head` of a queue that is not empty is written, and R.WSTART takes what it holds. -/
theorem workerStartOutcome : Obligations.WorkerStartOutcome := by
  intro s t h hs hidle hne hr
  obtain ⟨m, hm⟩ := (h.queue t).head_written hne
  refine ⟨m, hm, ?_⟩
  rw [← inc_eq_mod (h.queue t).head_lt]
  exact exec_rWstart_of_item h hs hr hidle hne hm

/-- Settles O37: what R.WDONE of a BUSY worker answers, written out. -/
theorem workerDoneOutcome : Obligations.WorkerDoneOutcome :=
  fun _ _ hb => exec_rWdone_of_busy hb

/-- Settles O38: the two branches of R.WFAIL; the worker keeps its frame in both, and stays BUSY in the first. -/
theorem workerFailOutcome : Obligations.WorkerFailOutcome := by
  intro s t f hb hf
  rw [← hb, ← hf]
  exact ⟨fun hlt => exec_rWfail_of_retry hb hf hlt, fun hle => exec_rWfail_of_drop hb hle⟩

/-- Settles O39: in each case the enabling condition fails. -/
theorem disabledOperationsHaveNoMove : Obligations.DisabledOperationsHaveNoMove := by
  intro s t
  refine ⟨fun h => exec_rWstart_of_disabled fun hen => ?_, fun h => ?_, fun h => exec_nWake_of_disabled fun hen => ?_⟩
  · obtain ⟨hidle, hne⟩ := State.wstartEnabled_iff.mp hen
    simp [hidle, hne] at h
  · have hen : ¬ s.answerEnabled t = true := by simp [State.answerEnabled_iff, h]
    exact ⟨exec_rWdone_of_disabled hen, exec_rWfail_of_disabled hen⟩
  · obtain ⟨hoff, hsig⟩ := State.wakeEnabled_iff.mp hen
    simp [hoff, hsig] at h

/-- Settles O40: the two transitions of the worker, the two values of the view, and the two changes of it. -/
theorem workerTransitionsComplete : Obligations.WorkerTransitionsComplete := by
  intro i s s' t he
  exact ⟨exec_turns_busy he, exec_turns_idle he, State.pipeState_idle_iff, State.pipeState_messageAvailable_iff,
    exec_pipeState_leaves_idle he, exec_pipeState_returns_to_idle he⟩

/-- Settles O48: of all that can happen to the notifier, only R.WDONE sets a signal that was not pending. -/
theorem signalOnlyOnCompletion : Obligations.SignalOnlyOnCompletion := by
  intro i s s' he hoff hon
  obtain hn | ⟨t, hi, _⟩ | ⟨_, _, hn⟩ | ⟨_, _, ⟨_, hn⟩ | ⟨_, _, hn⟩ | ⟨_, _, hn⟩⟩ | ⟨_, rfl⟩ := exec_ntf_cases he
  case inr.inl => exact ⟨t, hi⟩
  case inr.inr.inr.inr => cases hon
  all_goals simp [hn, hoff] at hon

/-- Settles O52: each of the three operations writes its own worker, and beside it at most `head` and the owner of its queue, its own TX,
the signal and the result. -/
theorem workerOperationsFrame : Obligations.WorkerOperationsFrame := by
  intro i t s s' hi he
  obtain rfl | rfl | rfl := hi
  · obtain ⟨_, m, _, _, _, rfl⟩ := execRWstart_cases he
    simp [State.startTransmit]
  · obtain ⟨_, rfl⟩ := exec_rWdone_cases he
    simp [State.signal]
  · obtain ⟨_, ⟨f, _, rfl⟩ | ⟨_, rfl⟩⟩ := exec_rWfail_cases he
    · simp
    · simp

end Sys2Proof.Proofs
end

section
/-! The stream TX follows the frames to send in every step (O41; 42_router.md R117, 70_reset_and_hazards.md R186): what an instruction and a
sub-step do to TX[t], to the frame in the worker's hands, and to the frames to send. -/

namespace Sys2Proof.Machine

/-! ### the frames to send -/

/-- What of a Q.DEQ in progress is in the hands of the worker: the frame of the Message that D5 took (70_reset_and_hazards.md R186). -/
def DeqProgress.inHand (p : DeqProgress) : List (Option (List Byte)) :=
  match p.phase with
  | .reading => []
  | .tested => []
  | .copied _ => []
  | .dequeued m => [some (frameOf m)]
  | .encoded f => [some f]

/-- The model's own text for it, by the transfer in progress. -/
theorem State.inHand_eq (s : State) (t : Port) : s.inHand t = (s.deq.get t).elim [] DeqProgress.inHand := by
  unfold State.inHand
  split <;> simp [*, DeqProgress.inHand]

theorem State.inHand_of_none {s : State} {t : Port} (h : s.deq.get t = none) : s.inHand t = [] := by
  rw [State.inHand_eq, h, Option.elim_none]

theorem State.inHand_of_some {s : State} {t : Port} {p : DeqProgress} (h : s.deq.get t = some p) : s.inHand t = p.inHand := by
  rw [State.inHand_eq, h, Option.elim_some]

/-- A transfer that goes on with the same frame in hand does not show. -/
theorem State.setDeq_inHand {s : State} {q : Port} {x : Option DeqProgress} (t : Port)
    (hx : x.elim [] DeqProgress.inHand = s.inHand q) : (s.setDeq q x).inHand t = s.inHand t := by
  rw [State.inHand_eq, State.setDeq_deq, Pair.get_set]
  split
  · subst t
    exact hx
  · exact (s.inHand_eq t).symm

/-- The content after a Message is stored at `tail`. -/
theorem State.Inv.content_of_store {s s' : State} {t : Port} {m : Message} (h : s.Inv)
    (hne : inc (s.queue t).tail (s.cfg.slots t) ≠ (s.queue t).head) (hc : s'.cfg = s.cfg)
    (hq : s'.queue t = { s.queue t with
      slots := (s.queue t).slots.set (s.queue t).tail (some m), tail := inc (s.queue t).tail (s.cfg.slots t) }) :
    s'.content t = s.content t ++ [some m] :=
  (State.content_of_queue hc hq).trans (Queue.content_store (h.queue t) hne)

/-- The content after the first Message of a queue is taken. -/
theorem State.Inv.content_of_take {s s' : State} {t : Port} {m : Message} (h : s.Inv) (hne : (s.queue t).head ≠ (s.queue t).tail)
    (hm : (s.queue t).slots[(s.queue t).head]? = some (some m)) (hc : s'.cfg = s.cfg)
    (hq : s'.queue t = { s.queue t with head := inc (s.queue t).head (s.cfg.slots t) }) :
    s.content t = some m :: s'.content t := by
  rw [State.content_of_queue hc hq]
  exact Queue.content_advance_head (h.queue t) hne hm

theorem State.toSend_of_parts {s s' : State} {t : Port} (hh : s'.inHand t = s.inHand t) (hc : s'.content t = s.content t) :
    s'.toSend t = s.toSend t := by
  simp only [State.toSend, hh, hc]

theorem State.toSend_of_store {s s' : State} {t : Port} {m : Message} (hh : s'.inHand t = s.inHand t)
    (hc : s'.content t = s.content t ++ [some m]) : s'.toSend t = s.toSend t ++ [some (frameOf m)] := by
  simp [State.toSend, hh, hc]

/-- Taking the first Message while no frame is in hand. -/
theorem State.toSend_of_take {s s' : State} {t : Port} {m : Message} (hh : s.inHand t = []) (hh' : s'.inHand t = [])
    (hc : s.content t = some m :: s'.content t) : s.toSend t = some (frameOf m) :: s'.toSend t := by
  simp [State.toSend, hh, hh', hc]

/-- What a step that leaves TX[t] alone may do to the frames to send: nothing, one more at the end, or, on a script's own queue, the
first taken. -/
def State.ToSendMoves (s s' : State) (t : Port) : Prop :=
  s'.toSend t = s.toSend t ∨ (∃ m, s'.toSend t = s.toSend t ++ [some (frameOf m)])
    ∨ (s.owner.get t = some .script ∧ ∃ m, s.toSend t = some (frameOf m) :: s'.toSend t)

/-! ### instructions -/

/-- No instruction but R.WSTART t, R.WFAIL t and SYS.RESET touches TX[t]. -/
theorem exec_keeps_tx {i : Instr} {s s' : State} {t : Port} (he : exec i s = .next s') (hs : i ≠ .rWstart t) (hf : i ≠ .rWfail t)
    (hr : i ≠ .sysReset) : s'.out.tx.get t = s.out.tx.get t := by
  cases i with
  | qIsEmpty | qIsFull | qLen | cEnc =>
    cases he
    rfl
  | cDec b => obtain ⟨_, _, rfl⟩ | ⟨_, _, rfl⟩ := execCDec_cases he <;> rfl
  | qEnq u m =>
    obtain ⟨x, b, rfl, _⟩ := exec_qEnq_cases he
    rfl
  | qDeq u =>
    obtain ⟨x, o, rfl, _⟩ := exec_qDeq_cases he
    rfl
  | rRx u b =>
    obtain ⟨_, _, _, _, htx, _⟩ := serveReceive_frame he
    rw [htx]
  | frame u f =>
    obtain ⟨_, _, _, _, htx, _⟩ := serveReceive_frame he
    rw [htx]
  | rWstart u =>
    obtain ⟨_, m, _, _, _, rfl⟩ := execRWstart_cases he
    exact Pair.get_set_of_ne _ _ fun hu => hs (by rw [hu])
  | rWdone u =>
    obtain ⟨_, rfl⟩ := exec_rWdone_cases he
    rfl
  | rWfail u =>
    obtain ⟨_, ⟨f, _, rfl⟩ | ⟨_, rfl⟩⟩ := exec_rWfail_cases he
    · exact Pair.get_set_of_ne _ _ fun hu => hf (by rw [hu])
    · rfl
  | nWake =>
    simp only [exec, execNWake] at he
    split at he <;> cases he
    rfl
  | nTick =>
    simp only [exec, execNTick] at he
    repeat' split at he
    all_goals
      cases he
      rfl
  | sysReset => exact absurd rfl hr

/-- A script's Q.DEQ of a queue that is not empty: the queue is its own, and no Q.DEQ is in progress on it. -/
theorem exec_qDeq_free {s s' : State} {q : Port} (h : s.Inv) (he : exec (.qDeq q) s = .next s')
    (hne : (s.queue q).head ≠ (s.queue q).tail) : s.deq.get q = none ∧ s.owner.get q = some .script := by
  obtain ⟨_, hde, _⟩ := andThen_eq_next he
  obtain ⟨hdeq, ho⟩ := State.consumerBarred_eq_false.mp (dequeueAs_cases hde).1
  exact ⟨hdeq, h.owner_of_nonempty hne ho⟩

theorem exec_toSend {i : Instr} {s s' : State} {t : Port} (h : s.Inv) (he : exec i s = .next s') (hs : i ≠ .rWstart t)
    (hr : i ≠ .sysReset) : s.ToSendMoves s' t := by
  have hc := exec_cfg he
  have hdeq := (exec_progress he hr).2
  have hh : s'.inHand t = s.inHand t := by rw [State.inHand_eq, State.inHand_eq, hdeq]
  obtain hq | ⟨m, _, hne, _, hq⟩ | ⟨m, rfl | hi, hne, hm, hq⟩ | ⟨hi, _⟩ := exec_queue_cases t he
  · exact .inl (State.toSend_of_parts hh (State.content_of_queue hc hq))
  · exact .inr (.inl ⟨m, State.toSend_of_store hh (h.content_of_store hne hc hq)⟩)
  · obtain ⟨hfree, howner⟩ := exec_qDeq_free h he hne
    have hnil := State.inHand_of_none hfree
    exact .inr (.inr ⟨howner, m, State.toSend_of_take hnil (hh.trans hnil) (h.content_of_take hne hm hc hq)⟩)
  · exact absurd hi hs
  · exact absurd hi hr

/-- R.WSTART offers the frame of the first Message, which leaves the queue. -/
theorem exec_rWstart_offers {s s' : State} {t : Port} (h : s.Inv) (he : exec (.rWstart t) s = .next s') :
    ∃ m, s.content t = some m :: s'.content t ∧ s.toSend t = some (frameOf m) :: s'.toSend t
      ∧ s'.out.tx.get t = s.out.tx.get t ++ [.txStart t (frameOf m)] := by
  obtain ⟨_, m, hne, hm, hbar, rfl⟩ := execRWstart_cases he
  have hnil := State.inHand_of_none (State.consumerBarred_eq_false.mp hbar).1
  have htake := h.content_of_take (s' := ((s.setQueue t { s.queue t with
    head := inc (s.queue t).head (s.cfg.slots t) }).claim t .router).startTransmit t (frameOf m)) hne hm rfl
    (by simp [State.startTransmit])
  exact ⟨m, htake, State.toSend_of_take hnil hnil htake, by simp [State.startTransmit]⟩

/-- R.WFAIL offers `txbuf` again or leaves TX alone, and takes nothing from the frames to send. -/
theorem exec_rWfail_offers {s s' : State} {t : Port} (he : exec (.rWfail t) s = .next s') :
    s'.toSend t = s.toSend t ∧ (s'.out.tx.get t = s.out.tx.get t
      ∨ ∃ f, (s.worker t).txbuf = some f ∧ s'.out.tx.get t = s.out.tx.get t ++ [.txStart t f]) := by
  obtain ⟨_, ⟨f, hf, rfl⟩ | ⟨_, rfl⟩⟩ := exec_rWfail_cases he
  · exact ⟨rfl, .inr ⟨f, hf, by simp⟩⟩
  · exact ⟨rfl, .inl rfl⟩

theorem State.clear_toSend (s : State) (t : Port) : s.clear.toSend t = [] := by
  have hnil : s.clear.inHand t = [] := State.inHand_of_none (State.resetWith_deq s.cfg t)
  simp [State.toSend, hnil, State.clear_content]

/-! ### sub-steps -/

/-- Of the sub-steps only D5 puts a frame into a worker's hands, and only the last of R.WSTART offers it. -/
theorem execSub_keeps_inHand_tx {m : SubStep} {s s' : State} {t : Port} (he : execSub m s = .next s') (hd : m ≠ .d5 t)
    (ht : m ≠ .wstartTransmit t) : s'.inHand t = s.inHand t ∧ s'.out.tx.get t = s.out.tx.get t := by
  cases m with
  | enqBegin q m =>
    obtain ⟨_, _, rfl⟩ := subEnqBegin_cases he
    exact ⟨rfl, rfl⟩
  | e1 q =>
    obtain ⟨_, _, _, rfl⟩ := subE1_cases he
    exact ⟨rfl, rfl⟩
  | e2 q =>
    obtain ⟨_, _, _, rfl⟩ := subE2_cases he
    exact ⟨rfl, rfl⟩
  | e3 q => obtain ⟨_, _, _, _, ⟨_, rfl⟩ | ⟨_, rfl⟩⟩ := subE3_cases he <;> exact ⟨rfl, rfl⟩
  | e4 q =>
    obtain ⟨_, _, _, _, _, rfl⟩ := subE4_cases he
    exact ⟨rfl, rfl⟩
  | e5 q =>
    obtain ⟨_, _, _, _, rfl⟩ := subE5_cases he
    exact ⟨rfl, rfl⟩
  | deqBegin q =>
    obtain ⟨hbar, rfl⟩ := subDeqBegin_cases he
    have hnil := State.inHand_of_none (State.consumerBarred_eq_false.mp hbar).1
    exact ⟨State.setDeq_inHand t hnil.symm, rfl⟩
  | wstartBegin q =>
    obtain ⟨_, hbar, rfl⟩ := subWstartBegin_cases he
    have hnil := State.inHand_of_none (State.consumerBarred_eq_false.mp hbar).1
    exact ⟨State.setDeq_inHand t hnil.symm, rfl⟩
  | d1 q =>
    obtain ⟨_, _, hg, rfl⟩ := subD1_cases he
    exact ⟨State.setDeq_inHand t (State.inHand_of_some hg).symm, rfl⟩
  | d2 q =>
    obtain ⟨_, _, hg, rfl⟩ := subD2_cases he
    exact ⟨State.setDeq_inHand t (State.inHand_of_some hg).symm, rfl⟩
  | d3 q =>
    obtain ⟨_, _, _, hg, hs⟩ := subD3_cases he
    have hnil := (State.inHand_of_some hg).symm
    obtain ⟨_, _, rfl⟩ | ⟨_, _, rfl⟩ | ⟨_, rfl⟩ := hs <;> exact ⟨State.setDeq_inHand t hnil, rfl⟩
  | d4 q =>
    obtain ⟨_, _, _, _, hg, _, rfl⟩ := subD4_cases he
    exact ⟨State.setDeq_inHand t (State.inHand_of_some hg).symm, rfl⟩
  | d5 q =>
    have hne : t ≠ q := fun hq => hd (by rw [hq])
    obtain ⟨_, _, _, _, _, ⟨_, rfl⟩ | ⟨_, rfl⟩⟩ := subD5_cases he <;>
      simp [State.inHand_eq, Pair.get_set_of_ne _ _ hne]
  | wstartEncode q =>
    obtain ⟨_, _, _, _, hg, rfl⟩ := subWstartEncode_cases he
    exact ⟨State.setDeq_inHand t (State.inHand_of_some hg).symm, rfl⟩
  | wstartTransmit q =>
    have hne : t ≠ q := fun hq => ht (by rw [hq])
    obtain ⟨_, _, _, _, _, rfl⟩ := subWstartTransmit_cases he
    simp [State.startTransmit, State.inHand_eq, Pair.get_set_of_ne _ _ hne]

/-- D5 takes the first Message: a script returns it, and a worker keeps its frame in hand, first of the frames to send as before. -/
theorem subD5_toSend {s s' : State} {t : Port} (h : s.Inv) (he : subD5 t s = .next s') :
    s'.out.tx.get t = s.out.tx.get t ∧ s.ToSendMoves s' t := by
  obtain ⟨who, h0, t', m, hg, hcases⟩ := subD5_cases he
  obtain ⟨hi, ho⟩ := h.deq t _ hg
  have hh0 : h0 = (s.queue t).head := hi.h0_eq_of_copied rfl rfl
  subst hh0
  have hne := hi.head_ne_tail (h.queue t) rfl
  have hm := hi.copied m rfl
  have hnil : s.inHand t = [] := State.inHand_of_some hg
  obtain ⟨rfl, rfl⟩ | ⟨rfl, hs'⟩ := hcases
  · exact ⟨rfl, .inr (.inr ⟨ho, m,
      State.toSend_of_take hnil (State.inHand_of_none (by simp)) (h.content_of_take hne hm rfl (by simp))⟩)⟩
  · have hone : s'.inHand t = [some (frameOf m)] := by simp [State.inHand_eq, hs', DeqProgress.inHand]
    have htake := h.content_of_take (s' := s') hne hm (by simp [hs']) (by simp [hs'])
    exact ⟨by simp [hs'], .inl (by simp [State.toSend, hone, hnil, htake])⟩

theorem execSub_toSend {m : SubStep} {s s' : State} {t : Port} (h : s.Inv) (he : execSub m s = .next s')
    (ht : m ≠ .wstartTransmit t) : s'.out.tx.get t = s.out.tx.get t ∧ s.ToSendMoves s' t := by
  by_cases hd : m = .d5 t
  · subst hd
    exact subD5_toSend h he
  obtain ⟨hh, htx⟩ := execSub_keeps_inHand_tx he hd ht
  refine ⟨htx, ?_⟩
  obtain ⟨hc, ⟨hq, _⟩ | ⟨x, _, hq⟩ | ⟨x, _, hne, hx, hq, _⟩ | ⟨_, hm, _⟩⟩ := execSub_queue_cases h t he
  · exact .inl (State.toSend_of_parts hh (State.content_of_queue hc hq))
  · exact .inl (State.toSend_of_parts hh ((State.content_of_queue hc hq).trans (Queue.content_write_tail (h.queue t) _)))
  · exact .inr (.inl ⟨x, State.toSend_of_store hh
      ((State.content_of_queue hc hq).trans (Queue.content_advance_tail (h.queue t) hne hx))⟩)
  · exact absurd hm hd

/-- The last sub-step of R.WSTART offers the frame in hand. -/
theorem subWstartTransmit_offers {s s' : State} {t : Port} (he : subWstartTransmit t s = .next s') :
    ∃ f, s.inHand t = [some f] ∧ s.toSend t = some f :: s'.toSend t ∧ s'.out.tx.get t = s.out.tx.get t ++ [.txStart t f] := by
  obtain ⟨_, _, _, f, hg, rfl⟩ := subWstartTransmit_cases he
  have hone : s.inHand t = [some f] := State.inHand_of_some hg
  have hnil : ((s.setDeq t none).startTransmit t f).inHand t = [] :=
    State.inHand_of_none (by simp [State.startTransmit])
  refine ⟨f, hone, ?_, by simp [State.startTransmit]⟩
  rw [State.toSend, State.toSend, hone, hnil]
  rfl

end Sys2Proof.Machine

namespace Sys2Proof.Proofs

open Sys2Proof.Machine

/-- Settles O41: a step is an instruction or a sub-step from the state with another schedule, which neither TX nor the frames to send look
at. R.WSTART, its last sub-step and a retry of R.WFAIL offer a frame, SYS.RESET restarts both, and every other move leaves TX alone. -/
theorem transmitStreamFollowsQueue : Obligations.TransmitStreamFollowsQueue := by
  intro s s' t h he
  obtain ⟨i, s₁, hf, hx⟩ | ⟨m, s₁, hf, hx⟩ := step_cases he
  · obtain ⟨_, ⟨tr, tu, rfl⟩, _⟩ := fetch_instr_cases hf
    have h₁ := h.schedule tr tu
    by_cases hs : i = .rWstart t
    · subst hs
      obtain ⟨m, hoffer⟩ := exec_rWstart_offers h₁ hx
      exact .inr (.inl ⟨_, m, hf, hoffer⟩)
    by_cases hr : i = .sysReset
    · subst hr
      cases hx
      exact .inr (.inr (.inr (.inr ⟨_, hf, Streams.reset_tx t, State.clear_toSend _ t⟩)))
    by_cases hw : i = .rWfail t
    · subst hw
      obtain ⟨hsame, htx | ⟨f, hbuf, htx⟩⟩ := exec_rWfail_offers hx
      · exact .inl ⟨htx, .inl hsame⟩
      · exact .inr (.inr (.inr (.inl ⟨_, f, hf, hbuf, hsame, htx⟩)))
    have htx := exec_keeps_tx hx hs hw hr
    have hmoves := exec_toSend h₁ hx hs hr
    exact .inl ⟨htx, hmoves⟩
  · obtain ⟨_, tu, rfl⟩ := fetch_sub_cases hf
    have h₁ := h.schedule s.trace tu
    by_cases hm : m = .wstartTransmit t
    · subst hm
      obtain ⟨f, hone, hoffer⟩ := subWstartTransmit_offers hx
      exact .inr (.inr (.inl ⟨_, f, hf, hone, hoffer⟩))
    obtain ⟨htx, hmoves⟩ := execSub_toSend h₁ hx hm
    exact .inl ⟨htx, hmoves⟩

end Sys2Proof.Proofs
end

section
/-! Rounds of a worker: it empties its queue in order (O43), and one of them inside the bridge scenario (O42; 42_router.md R117, R120). -/

namespace Sys2Proof.Machine

/-- Worker t may serve its queue: it is IDLE, and no transfer is in progress on the queue, which no script uses. -/
structure State.WorkerReady (s : State) (t : Port) : Prop where
  inv : s.Inv
  settled : s.settled t
  routed : s.routed t
  idle : (s.worker t).wstate = .idle

/-- One round, R.WSTART answered by R.WDONE: the first Message is taken and its frame offered, a signal is pending, and the worker is ready
again (42_router.md R114, R115). -/
theorem execAll_round {s : State} {t : Port} {o : Option Message} {rest : List (Option Message)} (h : s.WorkerReady t)
    (hc : s.content t = o :: rest) :
    ∃ m u, o = some m ∧ execAll [.rWstart t, .rWdone t] s = .next u ∧ u.WorkerReady t ∧ u.content t = rest
      ∧ u.out = s.out.emit (.txStart t (frameOf m)) ∧ u.ntf = { s.ntf with sig := true } := by
  obtain ⟨hinv, hset, hr, hidle⟩ := h
  have hne : (s.queue t).head ≠ (s.queue t).tail := fun he => by
    have hnil := hinv.content_of_empty (State.empty_iff.mpr he)
    simp [hc] at hnil
  obtain ⟨m, hm⟩ := (hinv.queue t).head_written hne
  have hstart := exec_rWstart_of_item hinv hset hr hidle hne hm
  generalize hv : State.startTransmit _ _ _ = v at hstart
  have hbusy : (v.worker t).wstate = .busy := by simp [← hv, State.startTransmit]
  have htake : s.content t = some m :: v.content t :=
    hinv.content_of_take hne hm (by simp [← hv, State.startTransmit]) (by simp [← hv, State.startTransmit])
  have hdone := exec_rWdone_of_busy hbusy
  have hinv' := exec_keeps_inv (exec_keeps_inv hinv (.inl rfl) hstart) (.inl rfl) hdone
  obtain ⟨rfl, rfl⟩ := List.cons.inj (hc.symm.trans htake)
  subst hv
  exact ⟨m, _, rfl, by simp [execAll, hstart, hdone], ⟨hinv', hset, hr, by simp⟩, rfl, rfl, rfl⟩

/-- As many rounds as there are Messages empty the queue and offer their frames in its order. -/
theorem execAll_rounds {t : Port} (c : List (Option Message)) {s : State} (h : s.WorkerReady t) (hc : s.content t = c) :
    ∃ (ms : List Message) (u : State), c = ms.map some
      ∧ execAll ((List.replicate ms.length [Instr.rWstart t, .rWdone t]).flatten) s = .next u
      ∧ u.content t = [] ∧ (u.worker t).wstate = .idle
      ∧ u.out.tx.get t = s.out.tx.get t ++ ms.map fun m => .txStart t (frameOf m) := by
  induction c generalizing s with
  | nil => exact ⟨[], s, rfl, rfl, hc, h.idle, by simp⟩
  | cons o rest ih =>
    obtain ⟨m, v, rfl, hround, hready, hrest, hout, _⟩ := execAll_round h hc
    obtain ⟨ms, u, rfl, hrun, hnil, hidle, htx⟩ := ih hready hrest
    refine ⟨m :: ms, u, rfl, ?_, hnil, hidle, by simp [htx, hout]⟩
    rw [List.length_cons, List.replicate_succ, List.flatten_cons, execAll_append, hround, andThen_next, hrun]

/-- R.RX of a frame that decodes, into an empty queue: there is room, and the Message is the only one. -/
theorem exec_rRx_into_empty {s : State} {t : Port} {f : List Byte} {m : Message} (h : s.WorkerReady t.other)
    (hempty : s.empty t.other = true) (hd : decodeFrame s.cfg f = .ok m) :
    ∃ u, exec (.rRx t f) s = .next u ∧ u.WorkerReady t.other ∧ u.content t.other = [some m]
      ∧ u.out = (s.out.emit (.rearm t)).emit (.rxStatus t .ok) ∧ u.ntf = s.ntf := by
  obtain ⟨hinv, hset, hr, hidle⟩ := h
  have hroom : inc (s.queue t.other).tail (s.cfg.slots t.other) ≠ (s.queue t.other).head := fun hf =>
    hinv.nonempty_of_full hf (State.empty_iff.mp hempty)
  have he := serveReceive_of_room hinv hr hd hroom
  refine ⟨_, he, ⟨serveReceive_keeps_inv hinv he, hset, ?_, hidle⟩, ?_, rfl, rfl⟩
  · simp [State.routed, State.finishReceive]
  · refine Eq.trans (hinv.content_of_store (m := m) hroom rfl (by simp [State.finishReceive])) ?_
    rw [hinv.content_of_empty hempty, List.nil_append]

theorem execAll_singleton (i : Instr) (s : State) : execAll [i] s = exec i s := by
  unfold execAll
  cases exec i s <;> rfl

theorem exec_nWake_of_signal {s : State} (hoff : s.ntf.state = .off) (hsig : s.ntf.sig = true) :
    exec .nWake s = .next (((s.setNtf { state := .on, sig := false, cnt := s.cfg.holdTicks }).emit .activate).ret .nothing) :=
  if_pos (State.wakeEnabled_iff.mpr ⟨hoff, hsig⟩)

end Sys2Proof.Machine

namespace Sys2Proof.Proofs

open Sys2Proof.Machine

/-- Settles O43: rounds of R.WSTART and R.WDONE, by induction on the content. -/
theorem workerDrainsQueueInOrder : Obligations.WorkerDrainsQueueInOrder :=
  fun _ _ h hs hidle hr => execAll_rounds _ ⟨h, hs, hr, hidle⟩ rfl

/-- Settles O42: the frame decodes to a Message with the same frame (40_codec.md R83 d), which is the only one of the queue; one round
offers it and sets the signal that N.WAKE consumes. -/
theorem bridgeScenario : Obligations.BridgeScenario := by
  intro s t f c h hs hr hempty hidle hoff _ hlen hp hcmd hdom
  obtain ⟨e, he⟩ := inDomain_iff.mp hdom
  obtain ⟨m, hd, hm⟩ := (frameRoundTrip s.cfg f hlen e (by simp [hcmd, he])).1 hp
  obtain ⟨v, hrx, hready, hone, hvout, hvntf⟩ := exec_rRx_into_empty ⟨h, hs, hr, hidle⟩ hempty hd
  obtain ⟨x, w, hx, hround, hdone, hnil, hwout, hwntf⟩ := execAll_round hready hone
  cases hx
  have hwake := exec_nWake_of_signal (s := w) (by simp [hwntf, hvntf, hoff]) (by simp [hwntf])
  have hend : w.empty t.other = true := (hdone.inv.empty_iff_len _).mpr (by rw [← State.content_length, hnil]; rfl)
  have hrun : execAll [.rRx t f, .rWstart t.other, .rWdone t.other, .nWake] s = exec .nWake w := by
    rw [execAll, hrx, andThen_next, ← execAll_singleton]
    exact (execAll_append [.rWstart t.other, .rWdone t.other] [.nWake] v).trans (by rw [hround, andThen_next])
  refine ⟨_, hrun.trans hwake, ?_, hend, hdone.idle, rfl, rfl⟩
  simp only [State.ret_out, State.emit_out, State.setNtf_out, hwout, hvout, hm]
  rfl

end Sys2Proof.Proofs
end

section
/-! The notifier (43_notifier.md): what N.TICK does in each case and everything N.WAKE and N.TICK can do (R131, R132), the events that mark
the level changes (R134), and how long a hold lasts (R133 c). -/

namespace Sys2Proof.Machine

theorem State.led_eq_true {s : State} : s.led = true ↔ s.ntf.state = .on := by
  simp [State.led]

theorem State.led_eq_false {s : State} : s.led = false ↔ s.ntf.state = .off := by
  rw [State.led]
  cases s.ntf.state <;> decide

/-! ### N.TICK in each case, and everything N.WAKE and N.TICK can do, if they answer next -/

theorem exec_nTick_of_off {s : State} (hoff : s.ntf.state = .off) : exec .nTick s = .next (s.ret .nothing) := by
  simp [exec, execNTick, hoff]

theorem exec_nTick_of_hold {s : State} (hon : s.ntf.state = .on) (hcnt : 1 < s.ntf.cnt) :
    exec .nTick s = .next ((s.setNtf ⟨.on, s.ntf.sig, s.ntf.cnt - 1⟩).ret .nothing) := by
  simp [exec, execNTick, hon, hcnt]

theorem exec_nTick_of_restart {s : State} (hon : s.ntf.state = .on) (hcnt : s.ntf.cnt ≤ 1) (hsig : s.ntf.sig = true) :
    exec .nTick s = .next ((s.setNtf ⟨.on, false, s.cfg.holdTicks⟩).ret .nothing) := by
  simp [exec, execNTick, hon, Nat.not_lt.mpr hcnt, hsig]

theorem exec_nTick_of_end {s : State} (hon : s.ntf.state = .on) (hcnt : s.ntf.cnt ≤ 1) (hsig : s.ntf.sig = false) :
    exec .nTick s = .next (((s.setNtf ⟨.off, false, 0⟩).emit .deactivate).ret .nothing) := by
  simp [exec, execNTick, hon, Nat.not_lt.mpr hcnt, hsig]

theorem exec_nWake_cases {s s' : State} (he : exec .nWake s = .next s') :
    s.ntf.state = .off ∧ s' = ((s.setNtf ⟨.on, false, s.cfg.holdTicks⟩).emit .activate).ret .nothing := by
  by_cases hen : s.wakeEnabled = true
  · obtain ⟨hoff, hsig⟩ := State.wakeEnabled_iff.mp hen
    rw [exec_nWake_of_signal hoff hsig] at he
    cases he
    exact ⟨hoff, rfl⟩
  · rw [exec_nWake_of_disabled hen] at he
    cases he

/-- A tick either keeps the state of the notifier and emits nothing, or it ends the hold. -/
theorem exec_nTick_cases {s s' : State} (he : exec .nTick s = .next s') :
    (s'.ntf.state = s.ntf.state ∧ s'.out = s.out)
      ∨ (s.ntf.state = .on ∧ s' = ((s.setNtf ⟨.off, false, 0⟩).emit .deactivate).ret .nothing) := by
  cases hst : s.ntf.state with
  | off =>
    rw [exec_nTick_of_off hst] at he
    cases he
    exact .inl ⟨hst, rfl⟩
  | on =>
    by_cases hcnt : 1 < s.ntf.cnt
    · rw [exec_nTick_of_hold hst hcnt] at he
      cases he
      exact .inl ⟨rfl, rfl⟩
    have hle := Nat.le_of_not_lt hcnt
    cases hsig : s.ntf.sig with
    | true =>
      rw [exec_nTick_of_restart hst hle hsig] at he
      cases he
      exact .inl ⟨rfl, rfl⟩
    | false =>
      rw [exec_nTick_of_end hst hle hsig] at he
      cases he
      exact .inr ⟨rfl, rfl⟩

/-! ### the stream IND and the level -/

/-- No instruction but N.WAKE, N.TICK and SYS.RESET touches IND. -/
theorem exec_keeps_ind {i : Instr} {s s' : State} (he : exec i s = .next s') (hw : i ≠ .nWake) (ht : i ≠ .nTick)
    (hr : i ≠ .sysReset) : s'.out.ind = s.out.ind := by
  cases i with
  | qIsEmpty | qIsFull | qLen | cEnc =>
    cases he
    rfl
  | cDec b => obtain ⟨_, _, rfl⟩ | ⟨_, _, rfl⟩ := execCDec_cases he <;> rfl
  | qEnq q m =>
    obtain ⟨_, _, rfl, _⟩ := exec_qEnq_cases he
    rfl
  | qDeq q =>
    obtain ⟨_, _, rfl, _⟩ := exec_qDeq_cases he
    rfl
  | rRx | frame =>
    obtain ⟨_, _, _, _, _, hind⟩ := serveReceive_frame he
    exact hind
  | rWstart t =>
    obtain ⟨_, _, _, _, _, rfl⟩ := execRWstart_cases he
    rfl
  | rWdone t =>
    obtain ⟨_, rfl⟩ := exec_rWdone_cases he
    rfl
  | rWfail t => obtain ⟨_, ⟨_, _, rfl⟩ | ⟨_, rfl⟩⟩ := exec_rWfail_cases he <;> rfl
  | nWake => exact absurd rfl hw
  | nTick => exact absurd rfl ht
  | sysReset => exact absurd rfl hr

/-- No instruction but N.WAKE, N.TICK and SYS.RESET turns the indicator on or off. -/
theorem exec_keeps_led {i : Instr} {s s' : State} (he : exec i s = .next s') (hw : i ≠ .nWake) (ht : i ≠ .nTick)
    (hr : i ≠ .sysReset) : s'.led = s.led := by
  obtain hn | ⟨_, _, hn⟩ | ⟨hi, _⟩ | ⟨hi, _⟩ | ⟨hi, _⟩ := exec_ntf_cases he
  · simp [State.led, hn]
  · simp [State.led, hn]
  · exact absurd hi hw
  · exact absurd hi ht
  · exact absurd hi hr

/-- What an instruction can do to IND and the level together (43_notifier.md R134). -/
theorem exec_ind_led_cases {i : Instr} {s s' : State} (he : exec i s = .next s') (hr : i ≠ .sysReset) :
    (s'.out.ind = s.out.ind ∧ s'.led = s.led)
      ∨ (s'.out.ind = s.out.ind ++ [.activate] ∧ s.led = false ∧ s'.led = true)
      ∨ (s'.out.ind = s.out.ind ++ [.deactivate] ∧ s.led = true ∧ s'.led = false) := by
  by_cases hw : i = .nWake
  · subst hw
    obtain ⟨hoff, rfl⟩ := exec_nWake_cases he
    exact .inr (.inl ⟨rfl, State.led_eq_false.mpr hoff, rfl⟩)
  by_cases ht : i = .nTick
  · subst ht
    obtain ⟨hstate, hout⟩ | ⟨hon, rfl⟩ := exec_nTick_cases he
    · exact .inl ⟨by rw [hout], by simp only [State.led, hstate]⟩
    · exact .inr (.inr ⟨rfl, State.led_eq_true.mpr hon, rfl⟩)
  exact .inl ⟨exec_keeps_ind he hw ht hr, exec_keeps_led he hw ht hr⟩

/-! ### how long a hold lasts -/

/-- The indicator stays on, with no event, before each of the next n ticks, and the last of them turns it off with Deactivate and no
signal left pending. -/
def State.LitFor (s : State) (n : Nat) : Prop :=
  (∀ j, j < n → ∃ u, execAll (List.replicate j .nTick) s = .next u ∧ u.led = true ∧ u.out = s.out)
    ∧ ∃ u, execAll (List.replicate n .nTick) s = .next u ∧ u.led = false ∧ u.ntf.sig = false
        ∧ u.out = { s.out with ind := s.out.ind ++ [.deactivate] }

/-- The tick that ends the hold. -/
theorem State.litFor_one {s : State} (h : s.ntf = ⟨.on, false, 1⟩) : s.LitFor 1 := by
  have he := exec_nTick_of_end (s := s) (by simp [h]) (by simp [h]) (by simp [h])
  refine ⟨fun j hj => ?_, ⟨_, (execAll_singleton .nTick s).trans he, rfl, rfl, rfl⟩⟩
  obtain rfl := Nat.lt_one_iff.mp hj
  exact ⟨s, rfl, by simp [State.led, h], rfl⟩

/-- A tick that leaves the indicator on, with no event, comes before those of the state it leads to. -/
theorem State.LitFor.succ {s u : State} {n : Nat} (h : u.LitFor n) (hon : s.led = true) (he : exec .nTick s = .next u)
    (hout : u.out = s.out) : s.LitFor (n + 1) := by
  have hrun : ∀ j, execAll (List.replicate (j + 1) .nTick) s = execAll (List.replicate j .nTick) u := fun j => by
    rw [List.replicate_succ, execAll, he, andThen_next]
  obtain ⟨hlit, hend⟩ := h
  rw [hout] at hlit hend
  refine ⟨fun j hj => ?_, by rwa [hrun]⟩
  cases j with
  | zero => exact ⟨s, rfl, hon, rfl⟩
  | succ j => exact hrun j ▸ hlit j (Nat.lt_of_succ_lt_succ hj)

/-- A tick within the hold. -/
theorem State.litFor_of_hold {s : State} {b : Bool} {c n : Nat} (h : s.ntf = ⟨.on, b, c + 2⟩)
    (hlit : ∀ u : State, u.cfg = s.cfg → u.ntf = ⟨.on, b, c + 1⟩ → u.LitFor n) : s.LitFor (n + 1) := by
  have he := exec_nTick_of_hold (s := s) (by simp [h]) (by simp [h])
  have hnext := hlit ((s.setNtf ⟨.on, s.ntf.sig, s.ntf.cnt - 1⟩).ret .nothing) rfl (by simp [h])
  exact hnext.succ (by simp [State.led, h]) he rfl

/-- With no signal pending, the hold lasts the ticks left. -/
theorem State.litFor_cnt {s : State} {c : Nat} (h : s.ntf = ⟨.on, false, c + 1⟩) : s.LitFor (c + 1) := by
  induction c generalizing s with
  | zero => exact State.litFor_one h
  | succ c ih => exact State.litFor_of_hold h fun _ _ hu => ih hu

/-- With a signal pending, the last tick of the hold starts a full one, for which no signal is pending. -/
theorem State.litFor_cnt_add_holdTicks {s : State} {c : Nat} (hhold : 1 ≤ s.cfg.holdTicks) (h : s.ntf = ⟨.on, true, c + 1⟩) :
    s.LitFor (s.cfg.holdTicks + c + 1) := by
  induction c generalizing s with
  | zero =>
    have he := exec_nTick_of_restart (s := s) (by simp [h]) (by simp [h]) (by simp [h])
    obtain ⟨d, hd⟩ := Nat.exists_eq_add_of_le' hhold
    have hfull : State.LitFor ((s.setNtf ⟨.on, false, s.cfg.holdTicks⟩).ret .nothing) s.cfg.holdTicks := by
      rw [hd]
      exact State.litFor_cnt rfl
    exact hfull.succ (by simp [State.led, h]) he rfl
  | succ c ih =>
    refine State.litFor_of_hold h fun u hc hu => ?_
    rw [← hc] at hhold ⊢
    exact ih hhold hu

end Sys2Proof.Machine

namespace Sys2Proof.Proofs

open Sys2Proof.Machine

/-- Settles O44: the enabling condition holds. -/
theorem wakeOutcome : Obligations.WakeOutcome :=
  fun _ hoff hsig => exec_nWake_of_signal hoff hsig

/-- Settles O45: the four branches of N.TICK. -/
theorem tickOutcome : Obligations.TickOutcome :=
  fun _ => ⟨exec_nTick_of_off, exec_nTick_of_hold, exec_nTick_of_restart, exec_nTick_of_end⟩

/-- Settles O47: an instruction leaves IND and the level as they are, or appends the event of the change it makes; no stream equals
itself with an event appended, nor with either event. -/
theorem indicatorEventsMarkLevelChanges : Obligations.IndicatorEventsMarkLevelChanges := by
  intro i s s' he
  constructor
  · intro hr
    obtain ⟨hind, hled⟩ | ⟨hind, hoff, hon⟩ | ⟨hind, hon, hoff⟩ := exec_ind_led_cases he hr
    · simp [hind, hled]
    · simp [hind, hoff, hon]
    · simp [hind, hoff, hon]
  · rintro rfl
    cases he
    exact ⟨rfl, rfl⟩

/-- Settles O46: the invariant bounds the ticks left by a full hold, and by induction on them the hold lasts as long as the pending
signal says. -/
theorem holdLastsItsTicks : Obligations.HoldLastsItsTicks := by
  intro s h hon
  obtain ⟨hpos, hle⟩ : 1 ≤ s.ntf.cnt ∧ s.ntf.cnt ≤ s.cfg.holdTicks := by simpa [Notifier.Inv, hon] using h.ntf
  obtain ⟨c, hc⟩ := Nat.exists_eq_add_of_le' hpos
  have hntf : s.ntf = ⟨.on, s.ntf.sig, c + 1⟩ := by rw [← hon, ← hc]
  cases hsig : s.ntf.sig with
  | false =>
    rw [hsig] at hntf
    rw [if_neg Bool.false_ne_true, hc]
    exact ⟨by omega, State.litFor_cnt hntf⟩
  | true =>
    rw [hsig] at hntf
    rw [if_pos rfl, hc, Nat.add_comm]
    exact ⟨by omega, State.litFor_cnt_add_holdTicks (Config.wf.one_le_holdTicks h.cfg_wf) hntf⟩

end Sys2Proof.Proofs
end

section
/-! The two receive handlers (O35; 60_exceptions.md R151): what a handler does is decided by the configuration, the queue of the other
transport and that queue's owner, none of which the other handler writes, so the handlers commute. -/

namespace Sys2Proof.Machine

/-- The end of every receive handler of transport t: the queue of the other transport is x and owned by o from now on, whether or not that
changes anything, and the handler returns st (42_router.md R111, R112). -/
def State.received (s : State) (t : Port) (x : Queue) (o : Option Party) (st : Status) : State :=
  { s with queues := s.queues.set t.other x, owner := s.owner.set t.other o }.finishReceive t st

theorem State.received_unchanged (s : State) (t : Port) (st : Status) :
    s.received t (s.queue t.other) (s.owner.get t.other) st = s.finishReceive t st := by
  simp [State.received, State.queue]

@[simp] theorem State.received_cfg (s : State) (t : Port) (x : Queue) (o : Option Party) (st : Status) :
    (s.received t x o st).cfg = s.cfg := rfl

@[simp] theorem State.received_queue (s : State) (t : Port) (x : Queue) (o : Option Party) (st : Status) :
    (s.received t x o st).queue t = s.queue t :=
  Pair.get_other_set _ _ _

@[simp] theorem State.received_owner (s : State) (t : Port) (x : Queue) (o : Option Party) (st : Status) :
    (s.received t x o st).owner.get t = s.owner.get t :=
  Pair.get_other_set _ _ _

/-- R.RX 0 writes only `Q[1]` and R.RX 1 only `Q[0]`, and each its own streams: their ends differ in the returned status only
(60_exceptions.md R151). -/
theorem State.received_comm (s : State) (t : Port) (x y : Queue) (o p : Option Party) (st st' : Status) :
    (s.received t x o st).received t.other y p st'
      = ((s.received t.other y p st').received t x o st).ret (.status st') := by
  cases t <;> rfl

/-- Where no script uses the queue of the other transport, the configuration, that queue and its owner decide the handler's end: a Q.ENQ in
progress, which it also tests, would be a script's. -/
theorem serveReceive_uniform {t : Port} (b : List Byte) {s : State} (hr : s.routed t.other) :
    ∃ x o st, ∀ s' : State, s'.Inv → s'.cfg = s.cfg → s'.queue t.other = s.queue t.other →
      s'.owner.get t.other = s.owner.get t.other → serveReceive t b s' = .next (s'.received t x o st) := by
  have routed' {s' : State} (ho : s'.owner.get t.other = s.owner.get t.other) : s'.routed t.other := by
    rwa [State.routed, ho]
  cases hd : decodeFrame s.cfg b with
  | error st =>
    refine ⟨s.queue t.other, s.owner.get t.other, st, fun s' _ hc hq ho => ?_⟩
    rw [← hc] at hd
    rw [← hq, ← ho, State.received_unchanged, serveReceive_of_error hd]
  | ok m =>
    by_cases hf : inc (s.queue t.other).tail (s.cfg.slots t.other) = (s.queue t.other).head
    · refine ⟨s.queue t.other, s.owner.get t.other, .queueFull, fun s' h' hc hq ho => ?_⟩
      rw [← hc] at hd
      rw [← hc, ← hq] at hf
      rw [← hq, ← ho, State.received_unchanged, serveReceive_of_full h' (routed' ho) hd hf]
    · refine ⟨{ s.queue t.other with
        slots := (s.queue t.other).slots.set (s.queue t.other).tail (some m)
        tail := inc (s.queue t.other).tail (s.cfg.slots t.other) }, some .router, .ok, fun s' h' hc hq ho => ?_⟩
      rw [← hc] at hd
      rw [← hc, ← hq] at hf ⊢
      exact serveReceive_of_room h' (routed' ho) hd hf

theorem execAll_pair {i j : Instr} {s s' u : State} (hi : exec i s = .next s') (hj : exec j s' = .next u) :
    execAll [i, j] s = .next u := by
  simp [execAll, hi, hj]

/-- The handlers of transport t and of the other one, in either order: the states after them differ in the returned status only. -/
theorem execAll_rRx_comm {s : State} (t : Port) (b b' : List Byte) (h : s.Inv) (hr : s.routed t) (hr' : s.routed t.other) :
    ∃ v st, execAll [.rRx t b, .rRx t.other b'] s = .next (v.ret st) ∧ execAll [.rRx t.other b', .rRx t b] s = .next v := by
  obtain ⟨x, o, st, hrun⟩ := serveReceive_uniform b hr'
  obtain ⟨y, p, st', hrun'⟩ := serveReceive_uniform (t := t.other) b' (by rwa [Port.other_other])
  rw [Port.other_other] at hrun'
  have hfst := hrun s h rfl rfl rfl
  have hfst' := hrun' s h rfl rfl rfl
  have hsnd := hrun' _ (serveReceive_keeps_inv h hfst) (by simp) (by simp) (by simp)
  have hsnd' := hrun _ (serveReceive_keeps_inv h hfst') (by simp) (by simp) (by simp)
  rw [State.received_comm] at hsnd
  exact ⟨_, _, execAll_pair hfst hsnd, execAll_pair hfst' hsnd'⟩

end Sys2Proof.Machine

namespace Sys2Proof.Proofs

open Sys2Proof.Machine

/-- Settles O35: each handler meets the same end before and after the other one, and the two ends write different parts of the state. -/
theorem receiveHandlersCommute : Obligations.ReceiveHandlersCommute := by
  intro s b b' h huart hcan
  obtain ⟨v, st, hu, hv⟩ := execAll_rRx_comm .uart b b' h huart hcan
  exact ⟨_, v, hu, hv, rfl, rfl, rfl⟩

end Sys2Proof.Proofs
end

section
/-! Sub-steps in any interleaving are the atomic operations (O56; 70_reset_and_hazards.md R180 to R182): what a transfer in progress knows of
its queue when it tests (E2 and E3, D2 and D3) and when it moves an index (E5, D5). -/

namespace Sys2Proof.Machine

/-! ### E5 and D5 as the atomic operation of the queue -/

/-- Writing what a slot holds already changes nothing. -/
theorem Memory.set_of_getElem? {slots : Memory} {i : Nat} {o : Option Message} (h : slots[i]? = some o) : slots.set i o = slots := by
  obtain ⟨_, rfl⟩ := List.getElem?_eq_some_iff.mp h
  exact List.set_getElem_self _

/-- After E4 the atomic Q.ENQ of the item finds room and its slot written, so it only moves `tail`. -/
theorem EnqProgress.Inv.enqueue_of_written {n k : Nat} {q : Queue} {p : EnqProgress} (hi : p.Inv n k q) (hq : q.Inv n k)
    (hp : p.phase = .written) : q.enqueue n p.item = .ok (true, { q with tail := inc q.tail n }) := by
  rw [Queue.enqueue_of_room (hi.room_of_written hq hp) hq.tail_lt_slots, Memory.set_of_getElem? (hi.slot hp)]

/-- After D4 the atomic Q.DEQ finds the copied item at `head`. -/
theorem DeqProgress.Inv.dequeue_of_copied {n k : Nat} {q : Queue} {w : Worker} {p : DeqProgress} {m : Message} (hi : p.Inv n k q w)
    (hq : q.Inv n k) (hp : p.phase = .copied m) : q.dequeue n = .ok (some m, { q with head := inc q.head n }) :=
  Queue.dequeue_of_item (hi.head_ne_tail hq hp) (hi.copied m hp)

theorem subE5_refines_enqueue {q : Port} {s s' : State} (h : s.Inv) (he : subE5 q s = .next s') :
    ∃ p, s.enq.get q = some p ∧ (s.queue q).enqueue (s.cfg.slots q) p.item = .ok (true, s'.queue q)
      ∧ s'.content q = s.content q ++ [some p.item] ∧ s'.result = .bool true ∧ s'.enq.get q = none := by
  obtain ⟨m, t0, hh, hg, rfl⟩ := subE5_cases he
  obtain ⟨hi, _⟩ := h.enq q _ hg
  have ht : t0 = (s.queue q).tail := hi.t0_eq t0 rfl
  subst ht
  have hcontent := Queue.content_advance_tail (h.queue q) (hi.room_of_written (h.queue q) rfl) (hi.slot rfl)
  refine ⟨_, hg, ?_, (State.content_of_queue rfl ?_).trans hcontent, rfl, by simp⟩
  · simpa using hi.enqueue_of_written (h.queue q) rfl
  · simp

theorem subD5_refines_dequeue {q : Port} {s s' : State} (h : s.Inv) (he : subD5 q s = .next s') :
    ∃ p item, s.deq.get q = some p
      ∧ (s.queue q).dequeue (s.cfg.slots q) = .ok (some item, s'.queue q) ∧ s.content q = some item :: s'.content q
      ∧ (p.who = .script → s'.result = .item (some item) ∧ s'.deq.get q = none)
      ∧ (p.who = .router → s'.deq.get q = some { p with phase := .dequeued item }) := by
  obtain ⟨who, h0, t, m, hg, hend⟩ := subD5_cases he
  obtain ⟨hi, _⟩ := h.deq q _ hg
  have hh : h0 = (s.queue q).head := hi.h0_eq_of_copied rfl rfl
  subst hh
  have hmove : s'.cfg = s.cfg ∧ s'.queue q = { s.queue q with head := inc (s.queue q).head (s.cfg.slots q) } := by
    obtain ⟨_, rfl⟩ | ⟨_, rfl⟩ := hend <;> simp
  obtain ⟨hcfg, hqueue⟩ := hmove
  refine ⟨_, m, hg, ?_, h.content_of_take (hi.head_ne_tail (h.queue q) rfl) (hi.copied m rfl) hcfg hqueue, ?_⟩
  · rw [hqueue]
    exact hi.dequeue_of_copied (h.queue q) rfl
  · obtain ⟨rfl, rfl⟩ | ⟨rfl, rfl⟩ := hend <;> simp

/-! ### what the tests go by -/

theorem subE2_reads_full {q : Port} {s s' : State} (he : subE2 q s = .next s') :
    ∃ p h, s'.enq.get q = some p ∧ p.h = some h ∧ (inc (s.queue q).tail (s.cfg.slots q) = h ↔ s.full q = true) := by
  obtain ⟨m, t0, _, rfl⟩ := subE2_cases he
  exact ⟨_, _, Pair.get_set_self _ _ _, rfl, State.full_iff.symm⟩

theorem subD2_reads_empty {q : Port} {s s' : State} (he : subD2 q s = .next s') :
    ∃ p y, s'.deq.get q = some p ∧ p.t = some y ∧ ((s.queue q).head = y ↔ s.empty q = true) := by
  obtain ⟨who, h0, _, rfl⟩ := subD2_cases he
  exact ⟨_, _, Pair.get_set_self _ _ _, rfl, State.empty_iff.symm⟩

theorem subE3_goes_by_reads {q : Port} {s s' : State} (h : s.Inv) (he : subE3 q s = .next s') :
    ∃ p t0 h, s.enq.get q = some p ∧ p.t0 = some t0 ∧ p.h = some h ∧ t0 = (s.queue q).tail
      ∧ (inc t0 (s.cfg.slots q) = h → s'.result = .bool false ∧ s'.enq.get q = none)
      ∧ (inc t0 (s.cfg.slots q) ≠ h → s'.enq.get q = some { p with phase := .tested }) := by
  obtain ⟨m, t0, y, hg, hend⟩ := subE3_cases he
  refine ⟨_, t0, y, hg, rfl, rfl, (h.enq q _ hg).1.t0_eq t0 rfl, ?_⟩
  obtain ⟨hf, rfl⟩ | ⟨hne, rfl⟩ := hend
  · exact ⟨fun _ => ⟨rfl, by simp⟩, absurd hf⟩
  · exact ⟨fun hf => absurd hf hne, fun _ => by simp⟩

/-- The worker's test D3 does not fail: its queue was not empty when R.WSTART began, and `tail` only moved on since. -/
theorem subD3_goes_by_reads {q : Port} {s s' : State} (h : s.Inv) (he : subD3 q s = .next s') :
    ∃ p h0 y, s.deq.get q = some p ∧ p.h0 = some h0 ∧ p.t = some y ∧ h0 = (s.queue q).head
      ∧ (h0 = y → p.who = .script ∧ s'.result = .item none ∧ s'.deq.get q = none)
      ∧ (h0 ≠ y → s'.deq.get q = some { p with phase := .tested }) := by
  obtain ⟨who, h0, y, hg, hend⟩ := subD3_cases he
  obtain ⟨hhead, _, hrouter, _⟩ := (h.deq q _ hg).1.before_d5 (by simp) (by simp)
  have hh : h0 = (s.queue q).head := hhead h0 rfl
  refine ⟨_, h0, y, hg, rfl, rfl, hh, ?_⟩
  obtain ⟨heq, rfl, rfl⟩ | ⟨heq, rfl, _⟩ | ⟨hne, rfl⟩ := hend
  · exact ⟨fun _ => ⟨rfl, rfl, by simp⟩, absurd heq⟩
  · exact absurd (heq.symm.trans hh) ((hrouter rfl).2 y rfl)
  · exact ⟨fun heq => absurd heq hne, fun _ => by simp⟩

/-! ### every other sub-step -/

/-- No sub-step but E5 and D5 of a queue changes its indices or its content: E4 writes outside the live region. -/
theorem execSub_keeps_indices_content {m : SubStep} {s s' : State} {q : Port} (h : s.Inv) (he : execSub m s = .next s')
    (h5 : m ≠ .e5 q) (hd : m ≠ .d5 q) :
    (s'.queue q).head = (s.queue q).head ∧ (s'.queue q).tail = (s.queue q).tail ∧ s'.content q = s.content q := by
  obtain ⟨hc, ⟨hq, _⟩ | ⟨x, _, hq⟩ | ⟨_, hm, _⟩ | ⟨_, hm, _⟩⟩ := execSub_queue_cases h q he
  · exact ⟨by rw [hq], by rw [hq], State.content_of_queue hc hq⟩
  · exact ⟨by rw [hq], by rw [hq], (State.content_of_queue hc hq).trans (Queue.content_write_tail (h.queue q) _)⟩
  · exact absurd hm h5
  · exact absurd hm hd

end Sys2Proof.Machine

namespace Sys2Proof.Proofs

open Sys2Proof.Machine

/-- Settles O56: each sub-step that tests or moves an index, by what the invariant says of its transfer; the others move none. -/
theorem subStepsRefineAtomicOperations : Obligations.SubStepsRefineAtomicOperations := by
  intro m s s' h he
  refine ⟨?_, ?_, ?_, ?_, ?_, ?_, fun q h5 hd => execSub_keeps_indices_content h he h5 hd⟩
  · rintro q rfl
    exact subE5_refines_enqueue h he
  · rintro q rfl
    exact subD5_refines_dequeue h he
  · rintro q rfl
    exact subE2_reads_full he
  · rintro q rfl
    exact subD2_reads_empty he
  · rintro q rfl
    exact subE3_goes_by_reads h he
  · rintro q rfl
    exact subD3_goes_by_reads h he

end Sys2Proof.Proofs
end

section
/-! SYS.RESET (O9), the order of sub-steps (O60), and the quiescent states, in which every sub-step but a start is out of that order (O54;
70_reset_and_hazards.md R170, R183, R192). -/

namespace Sys2Proof.Machine

/-- The quiescent states, element by element (70_reset_and_hazards.md R192). -/
theorem State.quiescent_iff {s : State} : s.quiescent = true ↔
    (∀ t, s.empty t = true ∧ (s.worker t).wstate = .idle ∧ s.settled t) ∧ s.ntf.sig = false ∧ s.ntf.state = .off := by
  have ports {p : Port → Prop} : (∀ t, p t) ↔ p .uart ∧ p .can :=
    ⟨fun h => ⟨h .uart, h .can⟩, fun ⟨hu, hc⟩ t => by cases t <;> assumption⟩
  have henq : s.enq = ⟨none, none⟩ ↔ s.enq.get .uart = none ∧ s.enq.get .can = none := by
    rw [← Pair.mk.injEq]
    rfl
  have hdeq : s.deq = ⟨none, none⟩ ↔ s.deq.get .uart = none ∧ s.deq.get .can = none := by
    rw [← Pair.mk.injEq]
    rfl
  simp only [State.quiescent, Bool.and_eq_true, beq_iff_eq, Bool.not_eq_true', henq, hdeq, ports, State.settled]
  tauto

/-- D5 goes on, for either party, only after D4. -/
theorem subD5_of_not_copied {q : Port} {s : State} (h : ∀ p, s.deq.get q = some p → ∀ m, p.phase ≠ .copied m) :
    subD5 q s = .refused .subStepOutOfOrder := by
  unfold subD5
  split
  case h_3 => rfl
  all_goals exact absurd rfl (h _ ‹_› _)

end Sys2Proof.Machine

namespace Sys2Proof.Proofs

open Sys2Proof.Machine

/-- Settles O9: each element after SYS.RESET is that of the state after reset with the same parameters. -/
theorem sysResetClearsEverything : Obligations.SysResetClearsEverything := fun s =>
  ⟨s.clear, rfl, State.clear_queue s, State.clear_worker s, rfl, rfl, rfl, State.resetWith_settled s.cfg, rfl, rfl⟩

/-- Settles O60: a sub-step goes on only with a transfer in the one form it takes, which each hypothesis excludes. -/
theorem subStepOrderKept : Obligations.SubStepOrderKept := by
  intro s q
  refine ⟨?_, ?_, ?_, ?_, ?_, ?_, ?_, ?_, ?_, subD5_of_not_copied, ?_, ?_⟩
  all_goals
    intro h
    simp only [execSub, subE1, subE2, subE3, subE4, subE5, subD1, subD2, subD3, subD4, subWstartEncode, subWstartTransmit]
    split
    case h_1 hg => exact absurd (h _ hg) (by simp)
    case h_2 => rfl

/-- Settles O54: no enabling condition holds, and with no transfer in progress every sub-step but a start is out of order. -/
theorem quiescentStatesAreStill : Obligations.QuiescentStatesAreStill := by
  intro s hs
  obtain ⟨hport, hsig, hoff⟩ := State.quiescent_iff.mp hs
  have hstart (t : Port) : ¬ s.wstartEnabled t = true := fun hen =>
    (State.wstartEnabled_iff.mp hen).2 (State.empty_iff.mp (hport t).1)
  have hanswer (t : Port) : ¬ s.answerEnabled t = true := by
    rw [State.answerEnabled_iff, (hport t).2.1]
    decide
  have hwake : ¬ s.wakeEnabled = true := by simp [State.wakeEnabled_iff, hsig]
  refine ⟨fun t => ⟨exec_rWstart_of_disabled (hstart t), exec_rWdone_of_disabled (hanswer t), exec_rWfail_of_disabled (hanswer t)⟩,
    exec_nWake_of_disabled hwake, fun t => if_neg (hstart t), fun m hw he hd => ?_, exec_nTick_of_off hoff⟩
  have horder (q : Port) := subStepOrderKept s q
  have henq (q : Port) : s.enq.get q = none := (hport q).2.2.1
  have hdeq (q : Port) : s.deq.get q = none := (hport q).2.2.2
  simp only [henq, hdeq, reduceCtorEq, false_implies, implies_true, true_implies] at horder
  cases m with
  | enqBegin q x => exact absurd rfl (he q x)
  | deqBegin q => exact absurd rfl (hd q)
  | wstartBegin t => exact absurd rfl (hw t)
  | e1 q | e2 q | e3 q | e4 q | e5 q | d1 q | d2 q | d3 q | d4 q | d5 q | wstartEncode q | wstartTransmit q => simp [horder q]

end Sys2Proof.Proofs
end

section
/-! Who may use a queue (O30; 70_reset_and_hazards.md R185; log 7): the other party, and a second operation before the first is finished, are
refused, and whoever performs or starts an operation on a queue has it from then on. -/

namespace Sys2Proof.Machine

/-! ### refusals -/

theorem State.foreign_of_owner {s : State} {q : Port} {p who : Party} (h : s.owner.get q = some p) (hne : p ≠ who) :
    s.foreign who q = true := by
  simp [State.foreign, h, hne]

theorem State.producerBarred_of {s : State} {q : Port} {p who : Party} (hne : p ≠ who)
    (h : s.owner.get q = some p ∨ ∃ x, s.enq.get q = some x) : s.producerBarred who q = true := by
  obtain h | ⟨x, h⟩ := h
  · simp [State.producerBarred, State.foreign_of_owner h hne]
  · simp [State.producerBarred, h]

theorem State.consumerBarred_of {s : State} {q : Port} {p who : Party} (hne : p ≠ who)
    (h : s.owner.get q = some p ∨ ∃ x, s.deq.get q = some x) : s.consumerBarred who q = true := by
  obtain h | ⟨x, h⟩ := h
  · simp [State.consumerBarred, State.foreign_of_owner h hne]
  · simp [State.consumerBarred, h]

theorem exec_qEnq_of_barred {s : State} {q : Port} (m : Message) (h : s.producerBarred .script q = true) :
    exec (.qEnq q m) s = .refused (.secondProducer q) ∧ execSub (.enqBegin q m) s = .refused (.secondProducer q) :=
  ⟨by simp [exec, execQEnq, enqueueAs_of_barred h], if_pos h⟩

theorem exec_qDeq_of_barred {s : State} {q : Port} (h : s.consumerBarred .script q = true) :
    exec (.qDeq q) s = .refused (.secondConsumer q) ∧ execSub (.deqBegin q) s = .refused (.secondConsumer q) :=
  ⟨by simp [exec, execQDeq, dequeueAs_of_barred h], if_pos h⟩

theorem serveReceive_of_barred {t : Port} {b : List Byte} {s : State} {m : Message} (hd : decodeFrame s.cfg b = .ok m)
    (h : s.producerBarred .router t.other = true) : serveReceive t b s = .refused (.secondProducer t.other) := by
  simp [serveReceive, hd, enqueueAs_of_barred h]

theorem exec_rWstart_of_barred {s : State} {t : Port} (hen : s.wstartEnabled t = true) (h : s.consumerBarred .router t = true) :
    exec (.rWstart t) s = .refused (.secondConsumer t) ∧ execSub (.wstartBegin t) s = .refused (.secondConsumer t) :=
  ⟨by simp [exec, execRWstart, hen, dequeueAs_of_barred h], by simp [execSub, subWstartBegin, hen, h]⟩

/-! ### claims -/

theorem exec_claims_for_script {i : Instr} {s s' : State} {q : Port} (hi : i = .qDeq q ∨ ∃ m, i = .qEnq q m)
    (he : exec i s = .next s') : s'.owner.get q = some .script := by
  obtain rfl | ⟨m, rfl⟩ := hi
  · obtain ⟨_, _, rfl, _⟩ := exec_qDeq_cases he
    simp
  · obtain ⟨_, _, rfl, _⟩ := exec_qEnq_cases he
    simp

theorem execSub_claims_for_script {m : SubStep} {s s' : State} {q : Port} (hm : m = .deqBegin q ∨ ∃ x, m = .enqBegin q x)
    (he : execSub m s = .next s') : s'.owner.get q = some .script := by
  obtain rfl | ⟨x, rfl⟩ := hm
  · obtain ⟨_, rfl⟩ := subDeqBegin_cases he
    simp
  · obtain ⟨_, _, rfl⟩ := subEnqBegin_cases he
    simp

/-- A handler whose bytes decode performs a Q.ENQ, whether it succeeds or not. -/
theorem serveReceive_claims {t : Port} {b : List Byte} {s s' : State} {m : Message} (hd : decodeFrame s.cfg b = .ok m)
    (he : serveReceive t b s = .next s') : s'.owner.get t.other = some .router := by
  obtain ⟨st, hst, _⟩ | ⟨_, _, _, _, hen, rfl⟩ := serveReceive_cases he
  · simp [hd] at hst
  · obtain ⟨_, ⟨_, rfl, _⟩ | ⟨_, _, _, rfl⟩⟩ := enqueueAs_cases hen <;> simp [State.finishReceive]

theorem exec_claims_for_router {i : Instr} {s s' : State} {q : Port}
    (hi : i = .rWstart q ∨ ∃ b m, Receives q.other b i ∧ decodeFrame s.cfg b = .ok m) (he : exec i s = .next s') :
    s'.owner.get q = some .router := by
  obtain rfl | ⟨b, m, hb, hd⟩ := hi
  · obtain ⟨_, _, _, _, _, rfl⟩ := execRWstart_cases he
    simp [State.startTransmit]
  · rw [hb.exec_eq] at he
    simpa using serveReceive_claims hd he

/-- A queue keeps its owner in every step but SYS.RESET. -/
theorem step_keeps_owner {s s' : State} {q : Port} {p : Party} (h : s.owner.get q = some p) (he : step s = .next s') :
    s'.owner.get q = some p ∨ ∃ s₁, fetch s = .instr .sysReset s₁ := by
  obtain ⟨i, s₁, hf, hx⟩ | ⟨m, s₁, hf, hx⟩ := step_cases he
  · by_cases hr : i = .sysReset
    · exact .inr ⟨s₁, hr ▸ hf⟩
    · obtain ⟨_, ⟨tr, tu, rfl⟩, _⟩ := fetch_instr_cases hf
      refine .inl (exec_keeps_owner ?_ hx hr)
      exact h
  · obtain ⟨_, tu, rfl⟩ := fetch_sub_cases hf
    refine .inl (execSub_keeps_owner ?_ hx)
    exact h

end Sys2Proof.Machine

namespace Sys2Proof.Proofs

open Sys2Proof.Machine

/-- Settles O30: the refusals come from the bars on a producer and a consumer, the claims from what the operations do if they answer, and
no other move gives a queue an owner or takes one away. -/
theorem secondProducerOrConsumerRefused : Obligations.SecondProducerOrConsumerRefused := by
  intro s s' q
  have hrouter : Party.router ≠ .script := by decide
  have hscript : Party.script ≠ .router := by decide
  refine ⟨fun h m => exec_qEnq_of_barred m (State.producerBarred_of hrouter h),
    fun h => exec_qDeq_of_barred (State.consumerBarred_of hrouter h), fun h b m i hb hd => ?_,
    fun h hen => exec_rWstart_of_barred hen (State.consumerBarred_of hscript h), fun i => exec_claims_for_script,
    fun m => execSub_claims_for_script, fun i => exec_claims_for_router, fun he => ?_, fun p => step_keeps_owner,
    fun i hd hen hw hrx hr he => ?_, fun m hd hen hw he => ?_⟩
  · have hbar : s.producerBarred .router q.other.other = true := by
      rw [Port.other_other]
      exact State.producerBarred_of hscript h
    rw [hb.exec_eq, serveReceive_of_barred hd hbar, Port.other_other]
  · obtain ⟨_, _, rfl⟩ := subWstartBegin_cases he
    simp
  · obtain hsame | ⟨_, rfl | ⟨m, rfl⟩ | rfl | ⟨b, hb⟩⟩ | rfl := exec_owner_cases q he
    · exact hsame
    · exact absurd rfl hd
    · exact absurd rfl (hen m)
    · exact absurd rfl hw
    · exact absurd hb (hrx b)
    · exact absurd rfl hr
  · obtain hsame | ⟨_, rfl | ⟨x, rfl⟩ | rfl⟩ := execSub_owner_cases q he
    · exact hsame
    · exact absurd rfl hd
    · exact absurd rfl (hen x)
    · exact absurd rfl hw

end Sys2Proof.Proofs
end

section
/-! Undisturbed sub-steps of Q.ENQ and Q.DEQ (O57; 70_reset_and_hazards.md R180, R181): what each sub-step answers with its transfer in the
form it takes, and that one after the other they do what the atomic operation does. -/

namespace Sys2Proof.Machine

/-! ### a transfer put in progress and taken away -/

@[simp] theorem State.setEnq_setEnq (s : State) (q : Port) (x y : Option EnqProgress) : (s.setEnq q x).setEnq q y = s.setEnq q y := by
  simp [State.setEnq]

@[simp] theorem State.setDeq_setDeq (s : State) (q : Port) (x y : Option DeqProgress) : (s.setDeq q x).setDeq q y = s.setDeq q y := by
  simp [State.setDeq]

@[simp] theorem State.setQueue_setQueue (s : State) (q : Port) (x y : Queue) : (s.setQueue q x).setQueue q y = s.setQueue q y := by
  simp [State.setQueue]

@[simp] theorem State.setQueue_setEnq (s : State) (q u : Port) (x : Option EnqProgress) (y : Queue) :
    (s.setEnq q x).setQueue u y = (s.setQueue u y).setEnq q x := rfl

@[simp] theorem State.setQueue_setDeq (s : State) (q u : Port) (x : Option DeqProgress) (y : Queue) :
    (s.setDeq q x).setQueue u y = (s.setQueue u y).setDeq q x := rfl

theorem State.setEnq_of_get {s : State} {q : Port} {x : Option EnqProgress} (h : s.enq.get q = x) : s.setEnq q x = s := by
  simp [State.setEnq, ← h]

theorem State.setDeq_of_get {s : State} {q : Port} {x : Option DeqProgress} (h : s.deq.get q = x) : s.setDeq q x = s := by
  simp [State.setDeq, ← h]

/-! ### the sub-steps of Q.ENQ -/

theorem execSub_enqBegin_of_free {s : State} {q : Port} {m : Message} (hbar : s.producerBarred .script q = false)
    (hm : m.wf s.cfg.k = true) :
    execSub (.enqBegin q m) s = .next ((s.claim q .script).setEnq q (some ⟨m, none, none, .reading⟩)) := by
  simp only [execSub, subEnqBegin, hbar, hm]
  rfl

@[simp] theorem execSub_e1 (s : State) (q : Port) (m : Message) (h : Option Nat) :
    execSub (.e1 q) (s.setEnq q (some ⟨m, none, h, .reading⟩))
      = .next (s.setEnq q (some ⟨m, some (s.queue q).tail, h, .reading⟩)) := by
  simp [execSub, subE1]

@[simp] theorem execSub_e2 (s : State) (q : Port) (m : Message) (t0 : Option Nat) :
    execSub (.e2 q) (s.setEnq q (some ⟨m, t0, none, .reading⟩))
      = .next (s.setEnq q (some ⟨m, t0, some (s.queue q).head, .reading⟩)) := by
  simp [execSub, subE2]

theorem execSub_e3_of_full {s : State} {q : Port} {m : Message} {t0 h : Nat} (hf : inc t0 (s.cfg.slots q) = h) :
    execSub (.e3 q) (s.setEnq q (some ⟨m, some t0, some h, .reading⟩)) = .next ((s.setEnq q none).ret (.bool false)) := by
  simp [execSub, subE3, hf]

theorem execSub_e3_of_room {s : State} {q : Port} {m : Message} {t0 h : Nat} (hne : inc t0 (s.cfg.slots q) ≠ h) :
    execSub (.e3 q) (s.setEnq q (some ⟨m, some t0, some h, .reading⟩))
      = .next (s.setEnq q (some ⟨m, some t0, some h, .tested⟩)) := by
  simp [execSub, subE3, hne]

theorem execSub_e4_of_slot {s : State} {q : Port} {m : Message} {t0 : Nat} {h : Option Nat} (hlt : t0 < (s.queue q).slots.length) :
    execSub (.e4 q) (s.setEnq q (some ⟨m, some t0, h, .tested⟩))
      = .next ((s.setQueue q { s.queue q with slots := (s.queue q).slots.set t0 (some m) }).setEnq q
          (some ⟨m, some t0, h, .written⟩)) := by
  simp [execSub, subE4, slotWrite_ok m hlt]

@[simp] theorem execSub_e5 (s : State) (q : Port) (m : Message) (t0 : Nat) (h : Option Nat) :
    execSub (.e5 q) (s.setEnq q (some ⟨m, some t0, h, .written⟩))
      = .next (((s.setQueue q { s.queue q with tail := inc t0 (s.cfg.slots q) }).setEnq q none).ret (.bool true)) := by
  simp [execSub, subE5]

/-! ### the sub-steps of Q.DEQ and R.WSTART -/

theorem execSub_deqBegin_of_free {s : State} {q : Port} (hbar : s.consumerBarred .script q = false) :
    execSub (.deqBegin q) s = .next ((s.claim q .script).setDeq q (some ⟨.script, none, none, .reading⟩)) := by
  simp only [execSub, subDeqBegin, hbar]
  rfl

theorem execSub_wstartBegin_of_free {s : State} {t : Port} (hen : s.wstartEnabled t = true)
    (hbar : s.consumerBarred .router t = false) :
    execSub (.wstartBegin t) s = .next ((s.claim t .router).setDeq t (some ⟨.router, none, none, .reading⟩)) := by
  simp only [execSub, subWstartBegin, hen, hbar]
  rfl

@[simp] theorem execSub_d1 (s : State) (q : Port) (who : Party) (t : Option Nat) :
    execSub (.d1 q) (s.setDeq q (some ⟨who, none, t, .reading⟩))
      = .next (s.setDeq q (some ⟨who, some (s.queue q).head, t, .reading⟩)) := by
  simp [execSub, subD1]

@[simp] theorem execSub_d2 (s : State) (q : Port) (who : Party) (h0 : Option Nat) :
    execSub (.d2 q) (s.setDeq q (some ⟨who, h0, none, .reading⟩))
      = .next (s.setDeq q (some ⟨who, h0, some (s.queue q).tail, .reading⟩)) := by
  simp [execSub, subD2]

theorem execSub_d3_of_empty {s : State} {q : Port} {h0 t : Nat} (he : h0 = t) :
    execSub (.d3 q) (s.setDeq q (some ⟨.script, some h0, some t, .reading⟩)) = .next ((s.setDeq q none).ret (.item none)) := by
  simp [execSub, subD3, he]

theorem execSub_d3_of_item {s : State} {q : Port} {who : Party} {h0 t : Nat} (hne : h0 ≠ t) :
    execSub (.d3 q) (s.setDeq q (some ⟨who, some h0, some t, .reading⟩))
      = .next (s.setDeq q (some ⟨who, some h0, some t, .tested⟩)) := by
  simp [execSub, subD3, hne]

theorem execSub_d4_of_item {s : State} {q : Port} {who : Party} {h0 : Nat} {t : Option Nat} {m : Message}
    (hm : (s.queue q).slots[h0]? = some (some m)) :
    execSub (.d4 q) (s.setDeq q (some ⟨who, some h0, t, .tested⟩))
      = .next (s.setDeq q (some ⟨who, some h0, t, .copied m⟩)) := by
  simp [execSub, subD4, slotRead_eq_ok.mpr hm]

@[simp] theorem execSub_d5_script (s : State) (q : Port) (h0 : Nat) (t : Option Nat) (m : Message) :
    execSub (.d5 q) (s.setDeq q (some ⟨.script, some h0, t, .copied m⟩))
      = .next (((s.setQueue q { s.queue q with head := inc h0 (s.cfg.slots q) }).setDeq q none).ret (.item (some m))) := by
  simp [execSub, subD5]

@[simp] theorem execSub_d5_router (s : State) (q : Port) (h0 : Nat) (t : Option Nat) (m : Message) :
    execSub (.d5 q) (s.setDeq q (some ⟨.router, some h0, t, .copied m⟩))
      = .next ((s.setQueue q { s.queue q with head := inc h0 (s.cfg.slots q) }).setDeq q
          (some ⟨.router, some h0, t, .dequeued m⟩)) := by
  simp [execSub, subD5]

@[simp] theorem execSub_wstartEncode (s : State) (t : Port) (who : Party) (h0 t' : Option Nat) (m : Message) :
    execSub (.wstartEncode t) (s.setDeq t (some ⟨who, h0, t', .dequeued m⟩))
      = .next (s.setDeq t (some ⟨who, h0, t', .encoded (frameOf m)⟩)) := by
  simp [execSub, subWstartEncode]

@[simp] theorem execSub_wstartTransmit (s : State) (t : Port) (who : Party) (h0 t' : Option Nat) (f : List Byte) :
    execSub (.wstartTransmit t) (s.setDeq t (some ⟨who, h0, t', .encoded f⟩))
      = .next ((s.setDeq t none).startTransmit t f) := by
  simp [execSub, subWstartTransmit]

/-! ### one after the other -/

theorem runSubs_cons_of_next {m : SubStep} {ms : List SubStep} {s s' : State} (h : execSub m s = .next s') :
    runSubs (m :: ms) s = runSubs ms s' := by
  rw [runSubs, h, andThen_next]

/-- E1 and E2 in either order. -/
theorem runSubs_enq_reads (s : State) (q : Port) (m : Message) (rest : List SubStep) :
    let read := s.setEnq q (some ⟨m, some (s.queue q).tail, some (s.queue q).head, .reading⟩)
    runSubs (.e1 q :: .e2 q :: rest) (s.setEnq q (some ⟨m, none, none, .reading⟩)) = runSubs rest read
      ∧ runSubs (.e2 q :: .e1 q :: rest) (s.setEnq q (some ⟨m, none, none, .reading⟩)) = runSubs rest read := by
  simp [runSubs]

/-- D1 and D2 in either order. -/
theorem runSubs_deq_reads (s : State) (q : Port) (who : Party) (rest : List SubStep) :
    let read := s.setDeq q (some ⟨who, some (s.queue q).head, some (s.queue q).tail, .reading⟩)
    runSubs (.d1 q :: .d2 q :: rest) (s.setDeq q (some ⟨who, none, none, .reading⟩)) = runSubs rest read
      ∧ runSubs (.d2 q :: .d1 q :: rest) (s.setDeq q (some ⟨who, none, none, .reading⟩)) = runSubs rest read := by
  simp [runSubs]

/-- E3 to E5 with room store the item, as Q.ENQ does. -/
theorem runSubs_enq_of_room {s : State} {q : Port} {m : Message} (h : s.enq.get q = none)
    (hne : inc (s.queue q).tail (s.cfg.slots q) ≠ (s.queue q).head) (hlt : (s.queue q).tail < (s.queue q).slots.length) :
    runSubs [.e3 q, .e4 q, .e5 q] (s.setEnq q (some ⟨m, some (s.queue q).tail, some (s.queue q).head, .reading⟩))
      = .next ((s.setQueue q { s.queue q with
          slots := (s.queue q).slots.set (s.queue q).tail (some m)
          tail := inc (s.queue q).tail (s.cfg.slots q) }).ret (.bool true)) := by
  rw [runSubs_cons_of_next (execSub_e3_of_room hne), runSubs_cons_of_next (execSub_e4_of_slot hlt),
    runSubs_cons_of_next (execSub_e5 _ _ _ _ _), State.setEnq_of_get (by exact h)]
  simp [runSubs]

/-- E3 of a full queue ends the operation. -/
theorem runSubs_enq_of_full {s : State} {q : Port} {m : Message} (h : s.enq.get q = none)
    (hf : inc (s.queue q).tail (s.cfg.slots q) = (s.queue q).head) :
    runSubs [.e3 q] (s.setEnq q (some ⟨m, some (s.queue q).tail, some (s.queue q).head, .reading⟩))
      = .next (s.ret (.bool false)) := by
  rw [runSubs_cons_of_next (execSub_e3_of_full hf), State.setEnq_of_get h]
  rfl

/-- D3 to D5 of a queue that is not empty take its first Message, as Q.DEQ does. -/
theorem runSubs_deq_of_item {s : State} {q : Port} {m : Message} (h : s.deq.get q = none)
    (hne : (s.queue q).head ≠ (s.queue q).tail) (hm : (s.queue q).slots[(s.queue q).head]? = some (some m)) :
    runSubs [.d3 q, .d4 q, .d5 q] (s.setDeq q (some ⟨.script, some (s.queue q).head, some (s.queue q).tail, .reading⟩))
      = .next ((s.setQueue q { s.queue q with head := inc (s.queue q).head (s.cfg.slots q) }).ret (.item (some m))) := by
  rw [runSubs_cons_of_next (execSub_d3_of_item hne), runSubs_cons_of_next (execSub_d4_of_item hm),
    runSubs_cons_of_next (execSub_d5_script _ _ _ _ _), State.setDeq_of_get (by exact h)]
  rfl

/-- D3 of an empty queue ends the operation. -/
theorem runSubs_deq_of_empty {s : State} {q : Port} (h : s.deq.get q = none) (he : (s.queue q).head = (s.queue q).tail) :
    runSubs [.d3 q] (s.setDeq q (some ⟨.script, some (s.queue q).head, some (s.queue q).tail, .reading⟩))
      = .next (s.ret (.item none)) := by
  rw [runSubs_cons_of_next (execSub_d3_of_empty he), State.setDeq_of_get h]
  rfl

end Sys2Proof.Machine

namespace Sys2Proof.Proofs

open Sys2Proof.Machine

/-- Settles O57: both orders of the reads give the same transfer, from which the rest does what the atomic operation does. -/
theorem undisturbedSubStepsEqualAtomic : Obligations.UndisturbedSubStepsEqualAtomic := by
  intro s q m h hsa hm
  obtain ⟨henq, hdeq⟩ := hsa.1
  have hprod := hsa.producer_free
  have hcons := hsa.consumer_free
  have hbegin (rest : List SubStep) := runSubs_cons_of_next (ms := rest) (execSub_enqBegin_of_free hprod hm)
  have hbegin' (rest : List SubStep) := runSubs_cons_of_next (ms := rest) (execSub_deqBegin_of_free hcons)
  have hread := runSubs_enq_reads (s.claim q .script) q m
  have hread' := runSubs_deq_reads (s.claim q .script) q .script
  refine ⟨fun hroom => ?_, fun hf => ?_, fun hitem => ?_, fun he => ?_⟩
  · have hne : inc (s.queue q).tail (s.cfg.slots q) ≠ (s.queue q).head := by simpa [← State.full_iff] using hroom
    have hend := runSubs_enq_of_room (s := s.claim q .script) (m := m) henq hne (h.queue q).tail_lt_slots
    rw [exec_qEnq_of_room m h hsa hne]
    exact ⟨(hbegin _).trans ((hread _).1.trans hend), (hbegin _).trans ((hread _).2.trans hend)⟩
  · have hend := runSubs_enq_of_full (s := s.claim q .script) (m := m) henq (State.full_iff.mp hf)
    rw [exec, execQEnq, enqueueAs_of_full hprod (State.full_iff.mp hf)]
    exact ⟨(hbegin _).trans ((hread _).1.trans hend), (hbegin _).trans ((hread _).2.trans hend)⟩
  · have hne : (s.queue q).head ≠ (s.queue q).tail := by simpa [← State.empty_iff] using hitem
    obtain ⟨x, hx⟩ := (h.queue q).head_written hne
    have hend := runSubs_deq_of_item (s := s.claim q .script) hdeq hne hx
    rw [exec, execQDeq, dequeueAs_of_item hcons hne hx]
    exact ⟨(hbegin' _).trans ((hread' _).1.trans hend), (hbegin' _).trans ((hread' _).2.trans hend)⟩
  · have hend := runSubs_deq_of_empty (s := s.claim q .script) hdeq (State.empty_iff.mp he)
    rw [exec_qDeq_of_empty hsa (State.empty_iff.mp he)]
    exact ⟨(hbegin' _).trans ((hread' _).1.trans hend), (hbegin' _).trans ((hread' _).2.trans hend)⟩

end Sys2Proof.Proofs
end

section
/-! R.WSTART in its sub-steps (O58; 70_reset_and_hazards.md R186): up to D5 only the transfer changes, and whatever has been read, the
sub-steps still to do end as the whole operation does. -/

namespace Sys2Proof.Machine

/-- Worker t can start R.WSTART, with the first Message m of its queue. -/
structure State.CanStart (s : State) (t : Port) (m : Message) : Prop where
  ready : s.WorkerReady t
  nonempty : (s.queue t).head ≠ (s.queue t).tail
  first : (s.queue t).slots[(s.queue t).head]? = some (some m)

theorem State.WorkerReady.canStart {s : State} {t : Port} (h : s.WorkerReady t) (hne : (s.queue t).head ≠ (s.queue t).tail) :
    ∃ m, s.CanStart t m := by
  obtain ⟨m, hm⟩ := (h.inv.queue t).head_written hne
  exact ⟨m, h, hne, hm⟩

theorem State.CanStart.exec_rWstart {s : State} {t : Port} {m : Message} (h : s.CanStart t m) :
    exec (.rWstart t) s = .next ((s.setQueue t { s.queue t with
      head := inc (s.queue t).head (s.cfg.slots t) }).startTransmit t (frameOf m)) :=
  exec_rWstart_of_item h.ready.inv h.ready.settled h.ready.routed h.ready.idle h.nonempty h.first

/-- Up to D5 of worker t's R.WSTART: the transfer so far and the sub-steps still to do, where m is the first Message of the queue and `hd`
its index. Whatever tail D2 has read, it is not `hd` (70_reset_and_hazards.md R182). -/
inductive StartPending (t : Port) (hd : Nat) (m : Message) : Option DeqProgress → List SubStep → Prop
  | start : StartPending t hd m none (wstartSubs t)
  | startSwapped : StartPending t hd m none (wstartSubsSwapped t)
  | begun : StartPending t hd m (some ⟨.router, none, none, .reading⟩)
      [.d1 t, .d2 t, .d3 t, .d4 t, .d5 t, .wstartEncode t, .wstartTransmit t]
  | begunSwapped : StartPending t hd m (some ⟨.router, none, none, .reading⟩)
      [.d2 t, .d1 t, .d3 t, .d4 t, .d5 t, .wstartEncode t, .wstartTransmit t]
  | headRead : StartPending t hd m (some ⟨.router, some hd, none, .reading⟩)
      [.d2 t, .d3 t, .d4 t, .d5 t, .wstartEncode t, .wstartTransmit t]
  | tailRead {y : Nat} (hy : hd ≠ y) : StartPending t hd m (some ⟨.router, none, some y, .reading⟩)
      [.d1 t, .d3 t, .d4 t, .d5 t, .wstartEncode t, .wstartTransmit t]
  | bothRead {y : Nat} (hy : hd ≠ y) : StartPending t hd m (some ⟨.router, some hd, some y, .reading⟩)
      [.d3 t, .d4 t, .d5 t, .wstartEncode t, .wstartTransmit t]
  | tested {y : Nat} : StartPending t hd m (some ⟨.router, some hd, some y, .tested⟩)
      [.d4 t, .d5 t, .wstartEncode t, .wstartTransmit t]
  | copied {y : Nat} : StartPending t hd m (some ⟨.router, some hd, some y, .copied m⟩)
      [.d5 t, .wstartEncode t, .wstartTransmit t]

/-- R.WSTART starts with a claim of the queue, which is the router's already. -/
theorem State.CanStart.begin {s : State} {t : Port} {m : Message} (h : s.CanStart t m) :
    execSub (.wstartBegin t) (s.setDeq t none) = .next (s.setDeq t (some ⟨.router, none, none, .reading⟩)) := by
  have hbar := h.ready.routed.consumer_free h.ready.settled
  rw [State.setDeq_of_get h.ready.settled.2,
    execSub_wstartBegin_of_free (State.wstartEnabled_iff.mpr ⟨h.ready.idle, h.nonempty⟩) hbar,
    h.ready.inv.claim_of_nonempty h.nonempty (State.consumerBarred_eq_false.mp hbar).2]

/-- The next sub-step is D5, or it goes on towards it and changes nothing but the transfer. -/
theorem StartPending.step {s : State} {t : Port} {m : Message} {x : Option DeqProgress} {rest : List SubStep}
    (hp : StartPending t (s.queue t).head m x rest) (h : s.CanStart t m) :
    (∃ y, x = some ⟨.router, some (s.queue t).head, some y, .copied m⟩ ∧ rest = [.d5 t, .wstartEncode t, .wstartTransmit t])
      ∨ ∃ a rest' x', rest = a :: rest' ∧ execSub a (s.setDeq t x) = .next (s.setDeq t x')
          ∧ StartPending t (s.queue t).head m x' rest' := by
  cases hp with
  | start => exact .inr ⟨_, _, _, rfl, h.begin, .begun⟩
  | startSwapped => exact .inr ⟨_, _, _, rfl, h.begin, .begunSwapped⟩
  | begun => exact .inr ⟨_, _, _, rfl, execSub_d1 _ _ _ _, .headRead⟩
  | begunSwapped => exact .inr ⟨_, _, _, rfl, execSub_d2 _ _ _ _, .tailRead h.nonempty⟩
  | headRead => exact .inr ⟨_, _, _, rfl, execSub_d2 _ _ _ _, .bothRead h.nonempty⟩
  | tailRead hy => exact .inr ⟨_, _, _, rfl, execSub_d1 _ _ _ _, .bothRead hy⟩
  | bothRead hy => exact .inr ⟨_, _, _, rfl, execSub_d3_of_item hy, .tested⟩
  | tested => exact .inr ⟨_, _, _, rfl, execSub_d4_of_item h.first, .copied⟩
  | copied => exact .inl ⟨_, rfl, rfl⟩

/-- The sub-steps after D5 encode the Message and transmit its frame. -/
theorem runSubs_of_dequeued {s : State} (t : Port) (h0 t' : Option Nat) (m : Message) (h : s.deq.get t = none) :
    runSubs [.wstartEncode t, .wstartTransmit t] (s.setDeq t (some ⟨.router, h0, t', .dequeued m⟩))
      = .next (s.startTransmit t (frameOf m)) := by
  rw [runSubs_cons_of_next (execSub_wstartEncode _ _ _ _ _ _), runSubs_cons_of_next (execSub_wstartTransmit _ _ _ _ _ _),
    State.setDeq_of_get h]
  rfl

/-- The sub-steps still to do end as the whole R.WSTART does. -/
theorem StartPending.finish {s : State} {t : Port} {m : Message} {x : Option DeqProgress} {rest : List SubStep}
    (hp : StartPending t (s.queue t).head m x rest) (h : s.CanStart t m) :
    runSubs rest (s.setDeq t x) = exec (.rWstart t) s := by
  induction rest generalizing x with
  | nil => nomatch hp
  | cons a rest ih =>
    obtain ⟨y, rfl, hd5⟩ | ⟨_, _, x', hcons, hstep, hp'⟩ := hp.step h
    · rw [hd5, runSubs_cons_of_next (execSub_d5_router _ _ _ _ _), h.exec_rWstart]
      exact runSubs_of_dequeued t _ _ m h.ready.settled.2
    · obtain ⟨rfl, rfl⟩ := List.cons.inj hcons
      rw [runSubs_cons_of_next hstep]
      exact ih hp'

end Sys2Proof.Machine

namespace Sys2Proof.Proofs

open Sys2Proof.Machine

/-- Settles O58: all sub-steps of R.WSTART are still to do at its start. -/
theorem undisturbedWorkerStartEqualsAtomic : Obligations.UndisturbedWorkerStartEqualsAtomic := by
  intro s t h hs hr hen
  obtain ⟨hidle, hne⟩ := State.wstartEnabled_iff.mp hen
  obtain ⟨m, hstart⟩ := State.WorkerReady.canStart ⟨h, hs, hr, hidle⟩ hne
  have hfinish (subs : List SubStep) (hp : StartPending t (s.queue t).head m none subs) : runSubs subs s = exec (.rWstart t) s := by
    rw [← hp.finish hstart, State.setDeq_of_get hs.2]
  exact ⟨hfinish _ .start, hfinish _ .startSwapped⟩

end Sys2Proof.Proofs
end

section
/-! A receive handler inside R.WSTART (O59; 70_reset_and_hazards.md R186): before D5 it leaves the worker where it can start with the same
Message, and after D5 the handler and the end of R.WSTART write different parts of the state. -/

namespace Sys2Proof.Machine

/-! ### sub-steps in two parts -/

theorem runSubs_append (xs ys : List SubStep) (s : State) : runSubs (xs ++ ys) s = andThen (runSubs xs s) (runSubs ys) := by
  induction xs generalizing s with
  | nil => rfl
  | cons x xs ih =>
    simp only [List.cons_append, runSubs]
    cases execSub x s <;> simp [ih]

theorem runSubs_keeps_inv {ms : List SubStep} {s u : State} (h : s.Inv) (he : runSubs ms s = .next u) : u.Inv := by
  induction ms generalizing s with
  | nil =>
    cases he
    exact h
  | cons m ms ih =>
    obtain ⟨s₁, hm, hms⟩ := andThen_eq_next he
    exact ih (execSub_keeps_inv h hm) hms

/-- Before D5 the sub-steps done so far change nothing but the transfer. -/
theorem StartPending.cut {s : State} {t : Port} {m : Message} (h : s.CanStart t m) {k : Nat} {x : Option DeqProgress}
    {rest : List SubStep} (hp : StartPending t (s.queue t).head m x rest) (hk : k + 3 ≤ rest.length) :
    ∃ x', runSubs (rest.take k) (s.setDeq t x) = .next (s.setDeq t x')
      ∧ StartPending t (s.queue t).head m x' (rest.drop k) := by
  induction k generalizing x rest with
  | zero => exact ⟨x, rfl, hp⟩
  | succ k ih =>
    obtain ⟨y, _, rfl⟩ | ⟨a, rest', x', rfl, hstep, hp'⟩ := hp.step h
    · simp only [List.length_cons, List.length_nil] at hk
      omega
    · obtain ⟨x'', hrun, hp''⟩ := ih hp' (by simp only [List.length_cons] at hk; omega)
      exact ⟨x'', by rw [List.take_succ_cons, runSubs_cons_of_next hstep, hrun], hp''⟩

/-- Where D5 is next, D4 has copied the Message. -/
theorem StartPending.copied_of_d5 {t : Port} {hd : Nat} {m : Message} {x : Option DeqProgress}
    (hp : StartPending t hd m x [.d5 t, .wstartEncode t, .wstartTransmit t]) :
    ∃ y, x = some ⟨.router, some hd, some y, .copied m⟩ := by
  cases hp
  exact ⟨_, rfl⟩

/-! ### the handler before D5 -/

/-- A receive handler leaves a worker that can start R.WSTART with the same first Message at the same index: it stores, if at all, at
`tail`. -/
theorem State.CanStart.after_receive {s v : State} {t r : Port} {b : List Byte} {m : Message} (h : s.CanStart t m)
    (he : serveReceive r b s = .next v) : v.CanStart t m ∧ (v.queue t).head = (s.queue t).head := by
  obtain ⟨⟨hinv, hset, hr, hidle⟩, hne, hm⟩ := h
  obtain ⟨hworkers, _, henq, hdeq, _⟩ := serveReceive_frame he
  have hready : v.WorkerReady t := by
    refine ⟨serveReceive_keeps_inv hinv he, ?_, ?_, ?_⟩
    · rwa [State.settled, henq, hdeq]
    · have howner := hinv.owner_of_nonempty hne (State.consumerBarred_eq_false.mp (hr.consumer_free hset)).2
      simp [State.routed, exec_keeps_owner (i := .rRx r b) howner he]
    · rwa [State.worker, hworkers]
  obtain hq | ⟨x, _, hroom, _, hq⟩ | ⟨_, hi, _⟩ | ⟨hi, _⟩ := exec_queue_cases (i := .rRx r b) t he
  · exact ⟨⟨hready, by rwa [hq], by rwa [hq]⟩, by rw [hq]⟩
  · refine ⟨⟨hready, ?_, ?_⟩, by rw [hq]⟩
    · rw [hq]
      exact hroom.symm
    · simpa [hq, List.getElem?_set_ne hne.symm] using hm
  · simp at hi
  · simp at hi

theorem State.received_setDeq (s : State) (t r : Port) (p : Option DeqProgress) (x : Queue) (o : Option Party) (st : Status) :
    (s.setDeq t p).received r x o st = (s.received r x o st).setDeq t p := rfl

/-- The handler before D5: the sub-steps still to do then end as R.WSTART does after the handler. -/
theorem StartPending.interrupted {s : State} {t r : Port} (b : List Byte) {m : Message} {x : Option DeqProgress} {rest : List SubStep}
    (hp : StartPending t (s.queue t).head m x rest) (h : s.CanStart t m) (hr : s.routed r.other) (hinv : (s.setDeq t x).Inv) :
    ∃ v s₁ w, serveReceive r b (s.setDeq t x) = .next v ∧ runSubs rest v = .next w
      ∧ serveReceive r b s = .next s₁ ∧ exec (.rWstart t) s₁ = .next w := by
  obtain ⟨y, o, st, hrun⟩ := serveReceive_uniform b hr
  have hatomic := hrun s h.ready.inv rfl rfl rfl
  obtain ⟨hstart, hhead⟩ := h.after_receive hatomic
  rw [← hhead] at hp
  exact ⟨_, _, _, hrun _ hinv rfl rfl rfl, (hp.finish hstart).trans hstart.exec_rWstart, hatomic, hstart.exec_rWstart⟩

/-! ### the handler after D5 -/

/-- The end of R.WSTART writes the worker and TX, and a handler a queue, its owner and the streams REARM and STAT. -/
theorem State.received_startTransmit (s : State) (t r : Port) (f : List Byte) (x : Queue) (o : Option Party) (st : Status) :
    (s.startTransmit t f).received r x o st = ((s.received r x o st).startTransmit t f).ret (.status st) := by
  cases t <;> cases r <;> rfl

/-- The handler after D5: with a transfer x from which the sub-steps still to do transmit f in every state, it has the effect of running
after them. -/
theorem interrupted_after_d5 {s : State} {t r : Port} (b : List Byte) {f : List Byte} {x : Option DeqProgress} {rest : List SubStep}
    (hrest : ∀ u : State, u.deq.get t = none → runSubs rest (u.setDeq t x) = .next (u.startTransmit t f))
    (hd : s.deq.get t = none) (hr : s.routed r.other) (hinv : (s.setDeq t x).Inv) (hinv' : (s.startTransmit t f).Inv) :
    ∃ v w res, serveReceive r b (s.setDeq t x) = .next v ∧ runSubs rest v = .next w
      ∧ serveReceive r b (s.startTransmit t f) = .next (w.ret res) := by
  obtain ⟨y, o, st, hrun⟩ := serveReceive_uniform b hr
  have hafter := hrun _ hinv' rfl rfl rfl
  rw [State.received_startTransmit] at hafter
  exact ⟨_, _, _, hrun _ hinv rfl rfl rfl, hrest (s.received r y o st) hd, hafter⟩

/-- D5 and the two sub-steps that follow it in R.WSTART. -/
def endSubs (t : Port) : List SubStep :=
  [.d5 t, .wstartEncode t, .wstartTransmit t]

/-- After D5, alone or with the encoding, `head` has moved on, and the sub-steps still to do transmit the frame of the Message in every
state. -/
theorem runSubs_endSubs_take {j : Nat} (hj : j < 2) (s : State) (t : Port) (h0 y : Nat) (m : Message) :
    ∃ x, runSubs ((endSubs t).take (j + 1)) (s.setDeq t (some ⟨.router, some h0, some y, .copied m⟩))
          = .next ((s.setQueue t { s.queue t with head := inc h0 (s.cfg.slots t) }).setDeq t x)
      ∧ ∀ u : State, u.deq.get t = none →
          runSubs ((endSubs t).drop (j + 1)) (u.setDeq t x) = .next (u.startTransmit t (frameOf m)) := by
  match j, hj with
  | 0, _ => exact ⟨some ⟨.router, some h0, some y, .dequeued m⟩, by simp [endSubs, runSubs],
      fun u hu => runSubs_of_dequeued t _ _ m hu⟩
  | 1, _ => exact ⟨some ⟨.router, some h0, some y, .encoded (frameOf m)⟩, by simp [endSubs, runSubs],
      fun u hu => by simp [endSubs, runSubs, State.setDeq_of_get hu]⟩

/-- The sub-steps of R.WSTART from D5 on come after five others, which bring it to D5. -/
theorem StartPending.reach_d5 {s : State} {t : Port} {m : Message} {pre : List SubStep}
    (hp : StartPending t (s.queue t).head m none (pre ++ endSubs t)) (h : s.CanStart t m) :
    ∃ y, runSubs pre s = .next (s.setDeq t (some ⟨.router, some (s.queue t).head, some y, .copied m⟩)) := by
  obtain ⟨x, hrun, hp'⟩ := hp.cut h (k := pre.length) (by simp [endSubs])
  rw [List.take_left, State.setDeq_of_get h.ready.settled.2] at hrun
  rw [List.drop_left] at hp'
  obtain ⟨y, rfl⟩ := hp'.copied_of_d5
  exact ⟨y, hrun⟩

theorem StartPending.of_subs {t : Port} {hd : Nat} {m : Message} {subs : List SubStep}
    (h : subs = wstartSubs t ∨ subs = wstartSubsSwapped t) : StartPending t hd m none subs := by
  obtain rfl | rfl := h
  · exact .start
  · exact .startSwapped

theorem wstartSubs_split {t : Port} {subs : List SubStep} (h : subs = wstartSubs t ∨ subs = wstartSubsSwapped t) :
    ∃ pre, pre.length = 5 ∧ subs = pre ++ endSubs t := by
  obtain rfl | rfl := h
  · exact ⟨_, rfl, (List.take_append_drop 5 _).symm⟩
  · exact ⟨_, rfl, (List.take_append_drop 5 _).symm⟩

end Sys2Proof.Machine

namespace Sys2Proof.Proofs

open Sys2Proof.Machine

/-- Settles O59: up to D5 the handler leaves what the worker goes by, so R.WSTART ends as after it; after D5 the handler and the end of
R.WSTART write different parts of the state; and after the last sub-step R.WSTART is done. -/
theorem interruptInsideWorkerStart : Obligations.InterruptInsideWorkerStart := by
  intro s t r b i subs k h hs hr hen hr' hi hsubs hk
  obtain ⟨hidle, hne⟩ := State.wstartEnabled_iff.mp hen
  obtain ⟨m, hstart⟩ := State.WorkerReady.canStart ⟨h, hs, hr, hidle⟩ hne
  have hp := StartPending.of_subs (hd := (s.queue t).head) (m := m) hsubs
  obtain ⟨pre, hpre, rfl⟩ := wstartSubs_split hsubs
  by_cases hk5 : k ≤ 5
  · obtain ⟨x, hrun, hp'⟩ := hp.cut hstart (k := k) (by simpa [hpre, endSubs] using hk5)
    rw [State.setDeq_of_get hs.2] at hrun
    obtain ⟨v, s₁, w, hv, hw, hs₁, hatomic⟩ := hp'.interrupted b hstart hr' (runSubs_keeps_inv h hrun)
    rw [← hi.exec_eq] at hv hs₁
    rw [if_pos hk5]
    exact ⟨_, v, w, hrun, hv, hw, w, execAll_pair hs₁ hatomic, rfl, rfl, rfl⟩
  obtain ⟨j, rfl⟩ : ∃ j, k = pre.length + (j + 1) := ⟨k - 6, by omega⟩
  obtain ⟨y, hrun⟩ := hp.reach_d5 hstart
  have hend : ((s.setQueue t { s.queue t with head := inc (s.queue t).head (s.cfg.slots t) }).startTransmit t (frameOf m)).Inv :=
    exec_keeps_inv h (.inl rfl) hstart.exec_rWstart
  rw [if_neg hk5, List.take_length_add_append, List.drop_length_add_append, runSubs_append, hrun, andThen_next]
  obtain hj | rfl : j < 2 ∨ j = 2 := by omega
  · obtain ⟨x, hd5, hrest⟩ := runSubs_endSubs_take hj s t (s.queue t).head y m
    have hcut := runSubs_keeps_inv (runSubs_keeps_inv h hrun) hd5
    obtain ⟨v, w, res, hv, hw, hafter⟩ := interrupted_after_d5 (s := s.setQueue t _) b hrest hs.2 hr' hcut hend
    rw [← hi.exec_eq] at hv hafter
    exact ⟨_, v, w, hd5, hv, hw, _, execAll_pair hstart.exec_rWstart hafter, rfl, rfl, rfl⟩
  · have hall : runSubs (endSubs t) _ = exec (.rWstart t) s := (StartPending.copied (y := y)).finish hstart
    obtain ⟨v, hv⟩ := serveReceive_completes b hend hr'
    rw [← hi.exec_eq] at hv
    exact ⟨_, v, v, hall.trans hstart.exec_rWstart, hv, rfl, v, execAll_pair hstart.exec_rWstart hv, rfl, rfl, rfl⟩

end Sys2Proof.Proofs
end

section
/-! Progress on fair endless runs of whole operations (O55; 70_reset_and_hazards.md R191; log 20): a worker answers its retries and becomes
idle, so it starts again as long as its queue holds a Message; a signal turns the indicator on; and ticks turn it off. -/

namespace Sys2Proof.Machine

/-- A natural number that never grows does not shrink again and again. -/
theorem not_descends_forever {f : Nat → Nat} {n : Nat} (hle : ∀ i, n ≤ i → f (i + 1) ≤ f i)
    (hlt : ∀ i, n ≤ i → ∃ m, i ≤ m ∧ f (m + 1) < f m) : False := by
  induction hv : f n using Nat.strong_induction_on generalizing n with
  | h v ih =>
    obtain ⟨m, hm, hlt'⟩ := hlt n (Nat.le_refl n)
    have hfm : f m ≤ f n := antitoneOn_nat_Ici_of_succ_le hle (Nat.le_refl n) hm hm
    exact ih (f (m + 1)) (by omega) (fun i hi => hle i (by omega)) (fun i hi => hlt i (by omega)) rfl

/-- A fair run that meets the invariant at n and is not reset from n on. -/
structure FairFrom (σ : Nat → State) (μ : Nat → Instr) (n : Nat) : Prop where
  run : IsRun σ μ
  fair : Fair σ μ
  inv : (σ n).Inv
  noReset : ∀ i, n ≤ i → μ i ≠ .sysReset

section
variable {σ : Nat → State} {μ : Nat → Instr} {n : Nat}

theorem IsRun.exec_eq (h : IsRun σ μ) (i : Nat) : exec (μ i) (σ i) = .next (σ (i + 1)) :=
  (h i).2

/-- What holds at n and is kept by every operation of the run from n on holds from n on. -/
theorem IsRun.always (h : IsRun σ μ) {p : State → Prop} (hn : p (σ n))
    (hstep : ∀ i, n ≤ i → p (σ i) → exec (μ i) (σ i) = .next (σ (i + 1)) → p (σ (i + 1))) {i : Nat} (hi : n ≤ i) : p (σ i) :=
  Nat.le_induction hn (fun j hj hp => hstep j hj hp (h.exec_eq j)) i hi

theorem FairFrom.later (h : FairFrom σ μ n) {i : Nat} (hi : n ≤ i) : FairFrom σ μ i where
  run := h.run
  fair := h.fair
  inv := h.run.always h.inv (fun j _ hj he => exec_keeps_inv hj (h.run j).1 he) hi
  noReset j hj := h.noReset j (hi.trans hj)

theorem FairFrom.keeps_owner (h : FairFrom σ μ n) {t : Port} {p : Party} (ho : (σ n).owner.get t = some p) {i : Nat} (hi : n ≤ i) :
    (σ i).owner.get t = some p :=
  h.run.always (p := fun s => s.owner.get t = some p) ho (fun j hj hp he => exec_keeps_owner hp he (h.noReset j hj)) hi

/-! ### a worker becomes idle (R191 c) -/

/-- The retries left to a worker. -/
def State.retriesLeft (s : State) (t : Port) : Nat := s.cfg.txRetryMax - (s.worker t).retry

/-- What a worker that stays BUSY can go through: nothing, or one of its retries. -/
theorem exec_busy_cases {i : Instr} {s s' : State} {t : Port} (he : exec i s = .next s') (hb : (s.worker t).wstate = .busy)
    (hb' : (s'.worker t).wstate = .busy) :
    (s'.worker t = s.worker t ∧ i ≠ .rWdone t ∧ i ≠ .rWfail t)
      ∨ (i = .rWfail t ∧ s'.worker t = { s.worker t with retry := (s.worker t).retry + 1 }) := by
  by_cases hd : i = .rWdone t
  · subst hd
    obtain ⟨_, rfl⟩ := exec_rWdone_cases he
    simp at hb'
  by_cases hf : i = .rWfail t
  · subst hf
    obtain ⟨_, ⟨_, _, rfl⟩ | ⟨_, rfl⟩⟩ := exec_rWfail_cases he
    · exact .inr ⟨rfl, by simp⟩
    · simp at hb'
  obtain hw | ⟨_, rfl, _⟩ | ⟨hi, _⟩ | ⟨hi, _⟩ | ⟨_, rfl⟩ := exec_worker_cases t he
  · exact .inl ⟨hw, hd, hf⟩
  · have hidle := (State.wstartEnabled_iff.mp (execRWstart_cases he).1).1
    simp [hb] at hidle
  · exact absurd hi hd
  · exact absurd hi hf
  · simp [State.clear_worker, Worker.reset] at hb'

theorem FairFrom.eventually_idle (h : FairFrom σ μ n) (t : Port) : ∃ i, n ≤ i ∧ ((σ i).worker t).wstate = .idle := by
  by_contra hnot
  have hbusy (i : Nat) (hi : n ≤ i) : ((σ i).worker t).wstate = .busy :=
    WState.ne_idle_iff.mp fun hidle => hnot ⟨i, hi, hidle⟩
  have hcases (i : Nat) (hi : n ≤ i) := exec_busy_cases (h.run.exec_eq i) (hbusy i hi) (hbusy (i + 1) (by omega))
  have hcfg (i : Nat) : (σ (i + 1)).cfg = (σ i).cfg := exec_cfg (h.run.exec_eq i)
  refine not_descends_forever (f := fun i => (σ i).retriesLeft t) (n := n) (fun i hi => ?_) fun i hi => ?_
  · simp only [State.retriesLeft, hcfg]
    obtain ⟨hw, _⟩ | ⟨_, hw⟩ := hcases i hi
    · rw [hw]
    · simp only [hw]
      omega
  · obtain ⟨m, hm, htaken⟩ := h.fair.answer t i fun j hj => State.answerEnabled_iff.mpr (hbusy j (hi.trans hj))
    have hnm := hi.trans hm
    refine ⟨m, hm, ?_⟩
    obtain ⟨_, hd, hf⟩ | ⟨_, hw⟩ := hcases m hnm
    · exact absurd htaken (by simp [hd, hf])
    · have hle := ((h.later (hnm.trans m.le_succ)).inv.worker t).retry_le
      simp only [State.retriesLeft, hw, hcfg] at hle ⊢
      omega

/-! ### the queue until the next R.WSTART (R191 a) -/

/-- A router's queue only grows at its end, but for R.WSTART. -/
theorem exec_content_prefix {i : Instr} {s s' : State} {t : Port} (h : s.Inv) (ho : s.owner.get t = some .router)
    (he : exec i s = .next s') (hs : i ≠ .rWstart t) (hr : i ≠ .sysReset) : s.content t <+: s'.content t := by
  have hc := exec_cfg he
  obtain hq | ⟨m, _, hne, _, hq⟩ | ⟨m, rfl | hi, hne, _, _⟩ | ⟨hi, _⟩ := exec_queue_cases t he
  · rw [State.content_of_queue hc hq]
    exact List.prefix_rfl
  · rw [h.content_of_store hne hc hq]
    exact List.prefix_append _ _
  · have hscript := (exec_qDeq_free h he hne).2
    simp [ho] at hscript
  · exact absurd hi hs
  · exact absurd hi hr

theorem FairFrom.content_prefix (h : FairFrom σ μ n) {t : Port} (ho : (σ n).owner.get t = some .router) {i : Nat} (hi : n ≤ i)
    (hno : ∀ k, n ≤ k → k < i → μ k ≠ .rWstart t) : (σ n).content t <+: (σ i).content t := by
  induction i, hi using Nat.le_induction with
  | base => exact List.prefix_rfl
  | succ i hi ih =>
    have hstep := exec_content_prefix (h.later hi).inv (h.keeps_owner ho hi) (h.run.exec_eq i) (hno i hi i.lt_succ_self)
      (h.noReset i hi)
    exact (ih fun k hk hki => hno k hk (by omega)).trans hstep

/-- While a router's queue holds a Message, its worker starts again: it becomes idle, and R.WSTART then stays enabled until taken. -/
theorem FairFrom.exists_start (h : FairFrom σ μ n) {t : Port} (ho : (σ n).owner.get t = some .router) (hc : (σ n).content t ≠ []) :
    ∃ i, n ≤ i ∧ μ i = .rWstart t := by
  by_contra hnot
  have hno (i : Nat) (hi : n ≤ i) : μ i ≠ .rWstart t := fun hs => hnot ⟨i, hi, hs⟩
  obtain ⟨i, hi, hidle⟩ := h.eventually_idle t
  have henabled (j : Nat) (hj : i ≤ j) : (σ j).wstartEnabled t = true := by
    have hnj := hi.trans hj
    refine State.wstartEnabled_iff.mpr ⟨?_, fun he => hc ?_⟩
    · refine h.run.always (p := fun s => (s.worker t).wstate = .idle) hidle (fun k hk hidle he => ?_) hj
      by_contra hbusy
      exact hno k (hi.trans hk) (exec_turns_busy he hidle (WState.ne_idle_iff.mp hbusy)).1
    · have hprefix := h.content_prefix ho hnj fun k hk _ => hno k hk
      rwa [(h.later hnj).inv.content_of_empty (State.empty_iff.mpr he), List.prefix_nil] at hprefix
  obtain ⟨m, hm, htaken⟩ := h.fair.start t i henabled
  exact hno m (hi.trans hm) htaken

theorem FairFrom.first_start (h : FairFrom σ μ n) {t : Port} (ho : (σ n).owner.get t = some .router) (hc : (σ n).content t ≠ []) :
    ∃ i, n ≤ i ∧ μ i = .rWstart t ∧ ∀ k, n ≤ k → k < i → μ k ≠ .rWstart t := by
  classical
  have hex := h.exists_start ho hc
  obtain ⟨hi, hs⟩ := Nat.find_spec hex
  exact ⟨Nat.find hex, hi, hs, fun k hk hki hks => Nat.find_min hex hki ⟨hk, hks⟩⟩

/-- The number of R.WSTART t from n up to but excluding i. -/
def startsBetween (μ : Nat → Instr) (t : Port) (n i : Nat) : Nat :=
  (List.range' n (i - n)).countP fun x => decide (μ x = .rWstart t)

theorem startsBetween_eq_zero {t : Port} {i : Nat} (hno : ∀ k, n ≤ k → k < i → μ k ≠ .rWstart t) : startsBetween μ t n i = 0 := by
  refine List.countP_eq_zero.mpr fun k hk => ?_
  obtain ⟨hnk, hki⟩ := List.mem_range'_1.mp hk
  simpa using hno k hnk (by omega)

/-- Up to the first R.WSTART, itself, and what follows. -/
theorem startsBetween_of_first {t : Port} {i j : Nat} (hi : n ≤ i) (hs : μ i = .rWstart t)
    (hno : ∀ k, n ≤ k → k < i → μ k ≠ .rWstart t) (hj : i + 1 ≤ j) :
    startsBetween μ t n j = startsBetween μ t (i + 1) j + 1 := by
  have hzero := startsBetween_eq_zero hno
  obtain ⟨d, rfl⟩ := Nat.exists_eq_add_of_le hi
  obtain ⟨e, rfl⟩ := Nat.exists_eq_add_of_le hj
  rw [startsBetween, Nat.add_sub_cancel_left] at hzero
  rw [startsBetween, show n + d + 1 + e - n = d + (e + 1) by omega, ← List.range'_append_1, List.range'_succ, List.countP_append, hzero,
    List.countP_cons_of_pos (by simp [hs]), startsBetween, Nat.add_sub_cancel_left, Nat.zero_add]

/-- The first R.WSTART takes the first Message of a queue whose Messages have waited, in their order, since n. -/
theorem FairFrom.first_start_offers (h : FairFrom σ μ n) {t : Port} (ho : (σ n).owner.get t = some .router) {j : Nat}
    {o : Option Message} (hj : ((σ n).content t)[j]? = some o) :
    ∃ i m, n ≤ i ∧ μ i = .rWstart t ∧ (∀ k, n ≤ k → k < i → μ k ≠ .rWstart t)
      ∧ (some m :: (σ (i + 1)).content t)[j]? = some o
      ∧ (σ (i + 1)).out.tx.get t = (σ i).out.tx.get t ++ [.txStart t (frameOf m)] := by
  obtain ⟨i, hi, hs, hno⟩ := h.first_start ho (by rintro hnil; simp [hnil] at hj)
  have he := h.run.exec_eq i
  rw [hs] at he
  obtain ⟨m, htake, _, htx⟩ := exec_rWstart_offers (h.later hi).inv he
  obtain ⟨later, hlater⟩ := h.content_prefix ho hi hno
  refine ⟨i, m, hi, hs, hno, ?_, htx⟩
  rw [← htake, ← hlater, List.getElem?_append_left (List.getElem?_eq_some_iff.mp hj).1, hj]

/-- The (j+1)-th Message of a router's queue is transmitted by the (j+1)-th R.WSTART. -/
theorem FairFrom.transmits (h : FairFrom σ μ n) {t : Port} (ho : (σ n).owner.get t = some .router) {j : Nat} {m : Message}
    (hm : ((σ n).content t)[j]? = some (some m)) :
    ∃ i, n ≤ i ∧ μ i = .rWstart t ∧ startsBetween μ t n i = j
      ∧ (σ (i + 1)).out.tx.get t = (σ i).out.tx.get t ++ [.txStart t (frameOf m)] := by
  induction j generalizing n with
  | zero =>
    obtain ⟨i, x, hi, hs, hno, hfirst, htx⟩ := h.first_start_offers ho hm
    obtain rfl : x = m := by simpa using hfirst
    exact ⟨i, hi, hs, startsBetween_eq_zero hno, htx⟩
  | succ j ih =>
    obtain ⟨i, x, hi, hs, hno, hrest, _⟩ := h.first_start_offers ho hm
    have hi' : n ≤ i + 1 := hi.trans i.le_succ
    obtain ⟨i', hle, hs', hcount, htx⟩ := ih (h.later hi') (h.keeps_owner ho hi') hrest
    exact ⟨i', hi'.trans hle, hs', by rw [startsBetween_of_first hi hs hno hle, hcount], htx⟩

/-! ### the indicator (R191 b, d) -/

/-- A pending signal stays pending while the indicator is off, so N.WAKE stays enabled until taken. -/
theorem FairFrom.eventually_on (h : FairFrom σ μ n) (hsig : (σ n).ntf.sig = true) : ∃ i, n ≤ i ∧ (σ i).led = true := by
  by_contra hnot
  have hoff (i : Nat) (hi : n ≤ i) : (σ i).ntf.state = .off :=
    State.led_eq_false.mp (Bool.eq_false_iff.mpr fun hon => hnot ⟨i, hi, hon⟩)
  have hpending (i : Nat) (hi : n ≤ i) : (σ i).ntf.sig = true := by
    refine h.run.always (p := fun s => s.ntf.sig = true) hsig (fun k hk hsig he => ?_) hi
    have hoff' := hoff (k + 1) (hk.trans k.le_succ)
    obtain hn | ⟨_, _, hn⟩ | ⟨_, _, hn⟩ | ⟨_, hon, _⟩ | ⟨hr, _⟩ := exec_ntf_cases he
    · rwa [hn]
    · rw [hn]
    · simp [hn] at hoff'
    · simp [hoff k hk] at hon
    · exact absurd hr (h.noReset k hk)
  obtain ⟨m, hm, htaken⟩ := h.fair.wake n fun i hi => State.wakeEnabled_iff.mpr ⟨hoff i hi, hpending i hi⟩
  have he := h.run.exec_eq m
  rw [htaken] at he
  have hoff' := hoff (m + 1) (hm.trans m.le_succ)
  rw [(exec_nWake_cases he).2] at hoff'
  cases hoff'

/-- The ticks for which the indicator stays on, if no further signal comes (43_notifier.md R133 c). -/
def State.ticksLeft (s : State) : Nat := if s.ntf.sig then s.ntf.cnt + s.cfg.holdTicks else s.ntf.cnt

theorem Notifier.Inv.cnt_pos {c : Config} {x : Notifier} (h : x.Inv c) (hon : x.state = .on) : 0 < x.cnt := by
  simp only [Notifier.Inv, hon] at h
  exact h.1

/-- What a notifier that stays ON can go through without a new signal: nothing, or a tick. -/
theorem exec_lit_cases {i : Instr} {s s' : State} (h : s.Inv) (he : exec i s = .next s') (hon : s.ntf.state = .on)
    (hon' : s'.ntf.state = .on) (hd : ∀ t, i ≠ .rWdone t) :
    (i ≠ .nTick ∧ s'.ntf = s.ntf) ∨ (i = .nTick ∧ s'.ticksLeft < s.ticksLeft) := by
  by_cases ht : i = .nTick
  · subst ht
    refine .inr ⟨rfl, ?_⟩
    have hpos := h.ntf.cnt_pos hon
    by_cases hcnt : 1 < s.ntf.cnt
    · rw [exec_nTick_of_hold hon hcnt] at he
      cases he
      cases hsig : s.ntf.sig
      · simpa [State.ticksLeft, hsig] using hpos
      · simpa [State.ticksLeft, hsig] using hpos
    have hle := Nat.le_of_not_lt hcnt
    cases hsig : s.ntf.sig with
    | true =>
      rw [exec_nTick_of_restart hon hle hsig] at he
      cases he
      simpa [State.ticksLeft, hsig] using hpos
    | false =>
      rw [exec_nTick_of_end hon hle hsig] at he
      cases he
      cases hon'
  obtain hn | ⟨t, hi, _⟩ | ⟨_, hen, _⟩ | ⟨hi, _⟩ | ⟨_, rfl⟩ := exec_ntf_cases he
  · exact .inl ⟨ht, hn⟩
  · exact absurd hi (hd t)
  · simp [(State.wakeEnabled_iff.mp hen).1] at hon
  · exact absurd hi ht
  · cases hon'

/-- An indicator that is on goes off, if no further transmit completes. -/
theorem FairFrom.eventually_off (h : FairFrom σ μ n) (hd : ∀ i t, n ≤ i → μ i ≠ .rWdone t) : ∃ i, n ≤ i ∧ (σ i).led = false := by
  by_contra hnot
  have hled (i : Nat) (hi : n ≤ i) : (σ i).led = true := by
    by_contra hoff
    exact hnot ⟨i, hi, Bool.eq_false_iff.mpr hoff⟩
  have hon (i : Nat) (hi : n ≤ i) := State.led_eq_true.mp (hled i hi)
  have hcases (i : Nat) (hi : n ≤ i) :=
    exec_lit_cases (h.later hi).inv (h.run.exec_eq i) (hon i hi) (hon (i + 1) (hi.trans i.le_succ)) fun t => hd i t hi
  refine not_descends_forever (f := fun i => (σ i).ticksLeft) (n := n) (fun i hi => ?_) fun i hi => ?_
  · obtain ⟨_, hn⟩ | ⟨_, hlt⟩ := hcases i hi
    · simp only [State.ticksLeft, hn, exec_cfg (h.run.exec_eq i), le_refl]
    · exact hlt.le
  · obtain ⟨m, hm, htaken⟩ := h.fair.tick i fun k hk => hled k (hi.trans hk)
    obtain ⟨hne, _⟩ | ⟨_, hlt⟩ := hcases m (hi.trans hm)
    · exact absurd htaken hne
    · exact ⟨m, hm, hlt⟩

end

end Sys2Proof.Machine

namespace Sys2Proof.Proofs

open Sys2Proof.Machine

/-- Settles O55: the three progress claims for the run from n on; that the queue is settled is not needed, since an R.WSTART refused for a
transfer in progress would be no operation of the run. -/
theorem fairRunsMakeProgress : Obligations.FairRunsMakeProgress := by
  intro σ μ n hrun hfair hinv hreset
  have h : FairFrom σ μ n := ⟨hrun, hfair, hinv, hreset⟩
  exact ⟨fun t j m _ ho hm => h.transmits ho hm, h.eventually_on, fun _ => h.eventually_off⟩

end Sys2Proof.Proofs
end

section
/-! What SYS.RESET leaves of the state: the schedule (O10; 70_reset_and_hazards.md R170; log 14). -/

namespace Sys2Proof.Machine

theorem exec_sysReset (s : State) : exec .sysReset s = .next s.clear := rfl

theorem State.clear_trace (s : State) : s.clear.trace = s.trace := rfl

theorem State.clear_turns (s : State) : s.clear.turns = s.turns := rfl

end Sys2Proof.Machine

namespace Sys2Proof.Proofs

open Sys2Proof.Machine

/-- Settles O10: the state SYS.RESET goes to, reset with the same parameters, takes over both lists of the schedule. -/
theorem sysResetKeepsSchedule : Obligations.SysResetKeepsSchedule := fun s =>
  ⟨s.clear, exec_sysReset s, s.clear_trace, s.clear_turns⟩

end Sys2Proof.Proofs
end
